-- ==== Sys2Proof/Word.lean ====
section
/-! DEFINITION. The words of GRAYMIX: bytes of memory, 32-bit registers and addresses (spec/00_scope.md R9, R10). -/

namespace Sys2Proof

/-- One byte of memory or one table entry (R201, R140). -/
abbrev Byte := BitVec 8

/-- A 32-bit register value, command word or physical byte address (R102, R201, R300). -/
abbrev Word := BitVec 32

end Sys2Proof
end

