-- ==== Sys2Proof/Config.lean ====
section
/-! DEFINITION. What the platform or the implementation fixes, and the free values. Nothing here has a body that a proof could
lean on: an opaque constant may be any value of its type. -/

namespace Sys2Proof

/-- The free values ("any value", spec/93_implementation_defined.md I1, I3, I4): draw number `n` of a run. It has no body: a
claim that holds, holds for every choice of the values. Log entry 4. -/
opaque Config.freeByte : Nat → Byte

/-- REG_BASE, the physical address of the register window (spec/20_memory.md R200, 92 D44): OPEN. Log entry 15. -/
opaque Config.regBase : Word

/-- IRQ_ROUTE, the line of the host's interrupt controller that IRQ drives (spec/60_exceptions.md R1010, 92 D47): OPEN.
Log entry 15. -/
opaque Config.irqLine : Nat

end Sys2Proof
end

