-- ==== Sys2Proof/Syntax.lean ====
section
/-! DEFINITION. The commands of GRAYMIX (spec/30_encoding.md R302): one constructor per row of spec/opcode_table.json. -/

namespace Sys2Proof

/-- A command. Format C has no register, immediate or mode field (R300), so no constructor has an argument: every operand is a
fixed register (R303). -/
inductive Instr where
  /-- R410: no operation. -/
  | nop
  /-- R510: integer weights from the raw weights. -/
  | normalize
  /-- R603: weighted gray and brightness of every pixel. -/
  | mix
  /-- R710: statistics, pass 1. -/
  | sum
  /-- R720: statistics, pass 2. -/
  | var
  /-- R810: the contrast table. -/
  | lutBuild
  /-- R811: the destination region through the table. -/
  | remap
  /-- R900: the whole transform. -/
  | run
  deriving DecidableEq, Repr

end Sys2Proof
end

