-- ==== Sys2Proof/WellFormed.lean ====
section
/-! DEFINITION. Well-formedness of commands and of command words (spec/30_encoding.md R300, R301). -/

namespace Sys2Proof

/-- Every command is well formed: format C has no operand field that could be out of range (R300). -/
def Instr.wellFormed : Instr → Bool
  | .nop => true
  | .normalize => true
  | .mix => true
  | .sum => true
  | .var => true
  | .lutBuild => true
  | .remap => true
  | .run => true

/-- The first check of R301: the reserved bits 31 to 4 are zero. -/
def reservedBitsZero (c : Word) : Bool := c.toNat / 16 == 0

/-- The second check of R301: the opcode, bits 3 to 0, is at most 7. -/
def opcodeAssigned (c : Word) : Bool := decide (c.toNat % 16 ≤ 7)

/-- A legal command word (R301). -/
def wellFormedWord (c : Word) : Bool := reservedBitsZero c && opcodeAssigned c

end Sys2Proof
end

