-- ==== Sys2Proof/Decode.lean ====
section
/-! DEFINITION. The decoder of command words, total on 32-bit words, the encoder, and the opcode table's view of the decoder
(spec/30_encoding.md R300 to R306). -/

namespace Sys2Proof

/-- Why a word is no command (R305). -/
inductive DecodeError where
  /-- Bits 31 to 4 are not all zero. -/
  | reservedBits
  /-- The opcode is 0x8 to 0xF. -/
  | reservedOpcode
  deriving DecidableEq, Repr

/-- OPCODE, bits 3 to 0 of a command word (R300). -/
def opcodeOf (c : Word) : BitVec 4 := c.extractLsb' 0 4

/-- RSV, bits 31 to 4 of a command word (R300). -/
def reservedOf (c : Word) : BitVec 28 := c.extractLsb' 4 28

/-- Decoding a command word (R301, R302). A word with both defects is reported for its reserved bits; GRAYMIX reports both as
ILLEGAL_CMD (R305). -/
def decode (c : Word) : Except DecodeError Instr :=
  if reservedOf c = 0#28 then
    match (opcodeOf c).toNat with
    | 0 => .ok .nop
    | 1 => .ok .normalize
    | 2 => .ok .mix
    | 3 => .ok .sum
    | 4 => .ok .var
    | 5 => .ok .lutBuild
    | 6 => .ok .remap
    | 7 => .ok .run
    | _ => .error .reservedOpcode
  else .error .reservedBits

/-- The command word of a command (R302). -/
def encode : Instr → Word
  | .nop => 0x00000000#32
  | .normalize => 0x00000001#32
  | .mix => 0x00000002#32
  | .sum => 0x00000003#32
  | .var => 0x00000004#32
  | .lutBuild => 0x00000005#32
  | .remap => 0x00000006#32
  | .run => 0x00000007#32

/-- What the decoder reads from a table row's bits. A command is exactly one 32-bit word (R306), so a number that does not fit
one word is no command. -/
def decodeTableWord (nbits w : Nat) : Option Instr :=
  if nbits ≤ 32 ∧ w < 2 ^ 32 then (decode (BitVec.ofNat 32 w)).toOption else none

end Sys2Proof
end

