-- ==== Sys2Proof/Machine/State.lean ====
section
/-! DEFINITION. The state of GRAYMIX: the record of spec/10_state.md R152 (`Regs`), the external memory and what the platform
decides (`Platform`), the transactions still to come and the last response (`State`), and why a step can stop. -/

namespace Sys2Proof.Machine

/-- STATUS.PHASE (R114): the phase the engine runs, or where the last command ended. Codes 7 to 15 never occur, so they have no
constructor (log entry 10). -/
inductive Phase where
  /-- Code 0: a NOP, or no phase ran. -/
  | none
  /-- Code 1. -/
  | normalize
  /-- Code 2. -/
  | mix
  /-- Code 3. -/
  | sum
  /-- Code 4. -/
  | var
  /-- Code 5. -/
  | lutBuild
  /-- Code 6. -/
  | remap
  deriving DecidableEq, Repr

/-- STATUS.STATS (R115): which statistics registers hold a complete result. Code 3 never occurs (log entry 10). -/
inductive Stats where
  /-- Code 0, NONE: no complete SUM. -/
  | none
  /-- Code 1, MEAN: STAT_N and S1 are complete. -/
  | mean
  /-- Code 2, FULL: STAT_N, S1 and Q are complete. -/
  | full
  deriving DecidableEq, Repr

/-- STATUS.ERR_CODE (R1000). Codes 9 to 15 are reserved and never raised, so they have no constructor (log entry 10). -/
inductive ErrCode where
  /-- Code 0: no error. -/
  | none
  /-- Code 1: the command word is reserved (R305). -/
  | illegalCmd
  /-- Code 2: WIDTH or HEIGHT is 0. -/
  | badDim
  /-- Code 3: the raw weights sum to 0. -/
  | badWeights
  /-- Code 4: a region runs past 2^32 - 1. -/
  | addrRange
  /-- Code 5: the source and destination regions intersect. -/
  | overlap
  /-- Code 6: VAR or LUT_BUILD without the statistics it needs. -/
  | noStats
  /-- Code 7: a DMA access got buserr. -/
  | busError
  /-- Code 8: allocated for the source's ContrastComputationFailed and never raised (R804). -/
  | contrastFail
  deriving DecidableEq, Repr

/-- The lookup table, 256 entries of 8 bits (R140). -/
abbrev Lut := Vector Byte 256

/-- The reset table: LUT[v] = v (R1101). -/
def Lut.identity : Lut := ⟨⟨(List.range 256).map (BitVec.ofNat 8)⟩, by simp⟩

/-- The whole state of GRAYMIX, the record of R152. -/
structure Regs where
  /-- CTRL.CONTRAST_EN (R111). -/
  ctrlContrastEn : Bool
  /-- CTRL.IRQ_EN (R111). -/
  ctrlIrqEn : Bool
  /-- STATUS.BUSY (R112). -/
  busy : Bool
  /-- STATUS.DONE (R112). -/
  done : Bool
  /-- STATUS.ERR (R112). -/
  err : Bool
  /-- STATUS.CMD_DROPPED (R112). -/
  cmdDropped : Bool
  /-- STATUS.WR_IGNORED (R112). -/
  wrIgnored : Bool
  /-- STATUS.ERR_CODE (R112, R1000). -/
  errCode : ErrCode
  /-- STATUS.OP, bits 3 to 0 of the last accepted CMD word (R114). -/
  op : BitVec 4
  /-- STATUS.PHASE (R114). -/
  phase : Phase
  /-- STATUS.STATS (R115). -/
  stats : Stats
  /-- SRC_ADDR (R117). -/
  src : Word
  /-- DST_ADDR (R118). -/
  dst : Word
  /-- DIM.WIDTH (R119). -/
  width : BitVec 16
  /-- DIM.HEIGHT (R119). -/
  height : BitVec 16
  /-- RAW_R (R120). -/
  rawR : BitVec 16
  /-- RAW_G (R120). -/
  rawG : BitVec 16
  /-- RAW_B (R120). -/
  rawB : BitVec 16
  /-- WEIGHT_R (R121). -/
  wR : BitVec 9
  /-- WEIGHT_G (R121). -/
  wG : BitVec 9
  /-- WEIGHT_B (R121). -/
  wB : BitVec 9
  /-- BRIGHTNESS, the 9 stored bits (R122). -/
  brBits : BitVec 9
  /-- CONTRAST, the 9 stored bits (R123). -/
  cBits : BitVec 9
  /-- STAT_N (R124). -/
  statN : Word
  /-- S1, read through STAT_S1_LO and STAT_S1_HI (R125). -/
  s1 : BitVec 40
  /-- Q, read through STAT_Q0 to STAT_Q3 (R126). -/
  q : BitVec 128
  /-- PROGRESS (R127). -/
  progress : Word
  /-- FAULT_ADDR (R128). -/
  faultAddr : Word
  /-- LUT[0..255] (R140). -/
  lut : Lut
  /-- CL, the contrast latch, which no register shows (R150). -/
  cl : Bool
  deriving DecidableEq, Repr

/-- The kind of a DMA access (R201). -/
inductive AccessKind where
  | read
  | write
  deriving DecidableEq, Repr

/-- A range of addresses on which the platform answers accesses of one kind with buserr (R201, D45). -/
structure ErrRange where
  kind : AccessKind
  base : Nat
  len : Nat
  deriving DecidableEq, Repr

/-- One access the engine made on the DMA port, and whether the platform answered ok (R201, R210). -/
structure DmaAccess where
  kind : AccessKind
  addr : Word
  ok : Bool
  deriving DecidableEq, Repr

/-- Physical memory: address and byte pairs, addresses strictly rising, no byte equal to what an unlisted address reads as. -/
abbrev Memory := List Host.Cell

/-- The external memory and what the platform decides; none of it is GRAYMIX's own (R152, R201, R228). -/
structure Platform where
  /-- Physical memory (R201, R202). -/
  mem : Memory
  /-- The platform parameter busErr(addr, kind), D45: the accesses that get buserr (log entry 3). -/
  busErrs : List ErrRange
  /-- The platform assumption dma_coherent, D46 (log entry 7). -/
  coherent : Bool
  /-- Addresses of the running command's regions that a host write has raced on (R223, log entry 6). -/
  raced : List Word
  /-- Addresses the host wrote and has not cleaned from its caches, where the platform is not coherent (R228, log entry 7). -/
  unclean : List Word
  /-- Addresses the engine wrote and the host has not invalidated, where the platform is not coherent (R228, log entry 7). -/
  stale : List Word
  /-- How many free values have been drawn: the model's own counter (log entry 4). -/
  draws : Nat
  /-- The DMA accesses made so far, newest first: the model's own observation of the port (R203, R211, log entry 13). -/
  dmaLog : List DmaAccess
  deriving DecidableEq, Repr

/-- What can happen to GRAYMIX between two states: a host transaction, a turn of the engine, a change of the platform's
answers, or the reset event (R1140, R405, R1100). -/
inductive Event where
  /-- The engine's turn: one step if a command runs, nothing otherwise (R405, R1025). -/
  | engine
  /-- A register write of `size` bytes at `offset` (R200, R206). -/
  | regWrite (offset : BitVec 12) (size : Nat) (data : Word)
  /-- A register read of `size` bytes at `offset` (R200, R206). -/
  | regRead (offset : BitVec 12) (size : Nat)
  /-- `wait` of R308: read STATUS until BUSY is 0, the engine taking its turns between the reads. -/
  | wait
  /-- `wrlut v, x` of R308: read the window word of entry `v`, then write it back with that entry set to `x`. -/
  | wrlut (v x : Byte)
  /-- A host memory write of one byte, through the platform (R309, R1140). -/
  | memWrite (addr : Word) (byte : Byte)
  /-- A host memory read of one byte, through the platform (R309, R1140). -/
  | memRead (addr : Word)
  /-- The host cleans its caches over `len` bytes from `base` (R228). -/
  | cacheClean (base len : Nat)
  /-- The host invalidates its caches over `len` bytes from `base` (R228). -/
  | cacheInvalidate (base len : Nat)
  /-- The platform's busErr changes: a transient error comes or goes (spec/95_test_vectors.md P7, log entry 3). -/
  | platformErr (ranges : List ErrRange)
  /-- The reset event (R1100). -/
  | reset
  deriving DecidableEq, Repr

/-- The response of a register transaction (R200). -/
inductive Resp where
  | ok
  | error
  deriving DecidableEq, Repr

/-- What the host got back from its last transaction (R200, R206, R1140). -/
inductive Reply where
  /-- No transaction yet, or one that gives nothing back. -/
  | none
  /-- A register write's response. -/
  | written (resp : Resp)
  /-- A register read's response and data. -/
  | data (resp : Resp) (value : Word)
  /-- A host memory read's byte. -/
  | memory (byte : Byte)
  deriving DecidableEq, Repr

/-- The machine: GRAYMIX's own state, the platform around it, the events still to come, and the last response. -/
structure State where
  /-- GRAYMIX's own state (R152). -/
  reg : Regs
  /-- Memory and the platform's answers. -/
  plat : Platform
  /-- The events still to come, the next first; with none left the engine takes its turns alone (R405, log entry 1). -/
  inputs : List Event
  /-- The response of the last host transaction (R200, log entry 13). -/
  reply : Reply
  deriving DecidableEq, Repr

/-- Why the machine stops. -/
inductive Fault where
  /-- Raised by a DMA operation of an engine step at an address of 2^32 or above, which the spec says is never computed (R213).
  Safe: the model stops where the spec gives no behaviour, and no accepted command comes there (log entry 11). -/
  | dmaOutsideSpace
  deriving DecidableEq, Repr

/-- Why the machine gives no meaning. -/
inductive Refusal where
  /-- Raised by no arm of exec in this model: every command has its meaning. Safe: the model would stop. -/
  | notModelled (mnemonic : String)
  deriving DecidableEq, Repr

/-- The registers after the reset event, each at the value R1101 states. -/
def Regs.reset : Regs where
  ctrlContrastEn := false
  ctrlIrqEn := false
  busy := false
  done := false
  err := false
  cmdDropped := false
  wrIgnored := false
  errCode := .none
  op := 0#4
  phase := .none
  stats := .none
  src := 0#32
  dst := 0#32
  width := 0#16
  height := 0#16
  rawR := 0#16
  rawG := 0#16
  rawB := 0#16
  wR := 0#9
  wG := 0#9
  wB := 0#9
  brBits := 0#9
  cBits := 0#9
  statN := 0#32
  s1 := 0#40
  q := 0#128
  progress := 0#32
  faultAddr := 0#32
  lut := Lut.identity
  cl := false

/-- The platform a run starts with: no byte listed, no access that errs, DMA coherent (DESIGN CHOICE, log entries 3, 5, 7;
spec/95_test_vectors.md Part C starts its programs so). -/
def Platform.initial : Platform where
  mem := []
  busErrs := []
  coherent := true
  raced := []
  unclean := []
  stale := []
  draws := 0
  dmaLog := []

/-- The machine right after reset (R1101), with nothing placed in memory and no event to come. -/
def State.reset : State where
  reg := Regs.reset
  plat := Platform.initial
  inputs := []
  reply := .none

end Sys2Proof.Machine
end

