-- ==== Sys2Proof/Machine/Operands.lean ====
section
/-! DEFINITION. Operand assembly (spec/30_encoding.md R303, R304), the regions of a command (spec/20_memory.md R203, R204,
R213) and the entries and window words of the lookup table (spec/10_state.md R129, R140). -/

namespace Sys2Proof.Machine

/-- Field `x` placed in a register with its least significant bit at bit `lo` (R9). -/
def placed {w : Nat} (x : BitVec w) (lo : Nat) : Word := x.setWidth 32 <<< lo

/-- N = WIDTH · HEIGHT, exactly (R119, R304). -/
def Regs.pixels (g : Regs) : Nat := g.width.toNat * g.height.toNat

/-- S_w, the sum of the raw weights, exactly (R304). -/
def Regs.rawSum (g : Regs) : Nat := g.rawR.toNat + g.rawG.toNat + g.rawB.toNat

/-- BR = sext_9(BRIGHTNESS[8:0]) (R122, R303). -/
def Regs.brightness (g : Regs) : Int := g.brBits.toInt

/-- c = sext_9(CONTRAST[8:0]) (R123, R303). -/
def Regs.contrast (g : Regs) : Int := g.cBits.toInt

/-- How many bytes from SRC_ADDR the command in STATUS.OP accesses: 3N for MIX and RUN, none otherwise (R203, R204). -/
def Regs.srcLen (g : Regs) : Nat :=
  match g.op.toNat with
  | 2 => 3 * g.pixels
  | 7 => 3 * g.pixels
  | _ => 0

/-- How many bytes from DST_ADDR the command in STATUS.OP accesses: N for MIX, SUM, REMAP and RUN, STAT_N for VAR, none
otherwise (R203, R204). -/
def Regs.dstLen (g : Regs) : Nat :=
  match g.op.toNat with
  | 2 => g.pixels
  | 3 => g.pixels
  | 4 => g.statN.toNat
  | 6 => g.pixels
  | 7 => g.pixels
  | _ => 0

/-- Address `a` is one of the `len` bytes from `base`. -/
def inRegion (base len a : Nat) : Bool := decide (base ≤ a ∧ a < base + len)

/-- A region of `len` bytes at `base` is in range: it does not run past 2^32 - 1 (R213). -/
def regionInRange (base len : Nat) : Bool := decide (base + len ≤ 2 ^ 32)

/-- Two regions share a byte (R1000, code OVERLAP). -/
def regionsOverlap (baseA lenA baseB lenB : Nat) : Bool :=
  decide (baseA < baseB + lenB ∧ baseB < baseA + lenA)

/-- The engine owns byte `a`: a command runs and `a` is in a region that it accesses (R223). -/
def Regs.owns (g : Regs) (a : Word) : Bool :=
  g.busy && (inRegion g.src.toNat g.srcLen a.toNat || inRegion g.dst.toNat g.dstLen a.toNat)

/-- LUT[v] (R11, R140). -/
def Lut.entry (l : Lut) (v : Byte) : Byte := l[v.toNat]'v.isLt

/-- LUT[v] <- x (R140). -/
def Lut.put (l : Lut) (v x : Byte) : Lut := l.set v.toNat x v.isLt

/-- The index of entry `k` (0 to 3) of window word `j` (R129). -/
def Lut.index (j : BitVec 6) (k : Nat) : Byte := BitVec.ofNat 8 (4 * j.toNat + k)

/-- Window word `j`: entry 4j in bits 7 to 0, up to entry 4j + 3 in bits 31 to 24 (R129, R207). -/
def Lut.window (l : Lut) (j : BitVec 6) : Word :=
  placed (l.entry (Lut.index j 3)) 24 ||| placed (l.entry (Lut.index j 2)) 16 ||| placed (l.entry (Lut.index j 1)) 8 |||
    placed (l.entry (Lut.index j 0)) 0

/-- A write of window word `j` sets its four entries (R129). -/
def Lut.setWindow (l : Lut) (j : BitVec 6) (d : Word) : Lut :=
  (((l.put (Lut.index j 0) (d.extractLsb' 0 8)).put (Lut.index j 1) (d.extractLsb' 8 8)).put
    (Lut.index j 2) (d.extractLsb' 16 8)).put (Lut.index j 3) (d.extractLsb' 24 8)

end Sys2Proof.Machine
end

