-- ==== Sys2Proof/Machine/Flags.lean ====
section
/-! DEFINITION. The flags of GRAYMIX: the codes and the word of STATUS (spec/10_state.md R112, R114, R115, R131), its
write-one-to-clear bits, and the interrupt output (spec/60_exceptions.md R1010). There are no arithmetic flags (R131). -/

namespace Sys2Proof.Machine

/-- The 4-bit code of a phase (R114). -/
def Phase.code : Phase → BitVec 4
  | .none => 0#4
  | .normalize => 1#4
  | .mix => 2#4
  | .sum => 3#4
  | .var => 4#4
  | .lutBuild => 5#4
  | .remap => 6#4

/-- The 2-bit code of STATUS.STATS (R115). -/
def Stats.code : Stats → BitVec 2
  | .none => 0#2
  | .mean => 1#2
  | .full => 2#2

/-- The 4-bit code of an error (R1000). -/
def ErrCode.code : ErrCode → BitVec 4
  | .none => 0#4
  | .illegalCmd => 1#4
  | .badDim => 2#4
  | .badWeights => 3#4
  | .addrRange => 4#4
  | .overlap => 5#4
  | .noStats => 6#4
  | .busError => 7#4
  | .contrastFail => 8#4

/-- The word a read of STATUS returns (R112); the reserved bits 7 to 5 and 31 to 22 read 0. -/
def Regs.statusWord (g : Regs) : Word :=
  placed (BitVec.ofBool g.busy) 0 ||| placed (BitVec.ofBool g.done) 1 ||| placed (BitVec.ofBool g.err) 2 |||
    placed (BitVec.ofBool g.cmdDropped) 3 ||| placed (BitVec.ofBool g.wrIgnored) 4 ||| placed g.errCode.code 8 |||
    placed g.op 12 ||| placed g.phase.code 16 ||| placed g.stats.code 20

/-- A host write of `d` to STATUS (R112): a 1 in bit 1, 2, 3 or 4 clears that flag, ERR_CODE is cleared with ERR, and every
other bit is ignored. -/
def Regs.clearFlags (d : Word) (g : Regs) : Regs :=
  { g with
    done := g.done && !d.getLsbD 1
    err := g.err && !d.getLsbD 2
    errCode := if d.getLsbD 2 then .none else g.errCode
    cmdDropped := g.cmdDropped && !d.getLsbD 3
    wrIgnored := g.wrIgnored && !d.getLsbD 4 }

/-- IRQ, the level-sensitive output: IRQ_EN and (DONE or ERR) at every moment (R1010). -/
def Regs.irq (g : Regs) : Bool := g.ctrlIrqEn && (g.done || g.err)

/-- Interrupt line `l` of the host: IRQ drives the line IRQ_ROUTE names (R1010, D47). -/
def State.irqLine (s : State) (l : Nat) : Bool := decide (l = Config.irqLine) && s.reg.irq

end Sys2Proof.Machine
end

