-- ==== Sys2Proof/Machine/Ops.lean ====
section
/-! DEFINITION. The named operations every command shares: physical memory, the DMA port with its bus errors and races
(spec/20_memory.md), arrival, acceptance, start, phases, completion and the two ways of ending in error
(spec/40_lifecycle.md R400 to R407, spec/60_exceptions.md R1000 to R1003). -/

namespace Sys2Proof.Machine

/-! ### Physical memory -/

/-- What a byte that nothing has written reads as (DESIGN CHOICE, log entry 5). -/
def Memory.unlisted : Byte := 0#8

/-- The canonical form: addresses strictly rising and inside the address space, no byte equal to the unlisted one. -/
abbrev Memory.wf (m : Memory) : Prop :=
  m.Pairwise (fun x y => x.1 < y.1) ∧ ∀ c ∈ m, c.1 < 2 ^ 32 ∧ c.2 ≠ Memory.unlisted

/-- The byte at key `k`. -/
def Memory.lookup : Memory → Nat → Byte
  | [], _ => Memory.unlisted
  | (j, w) :: rest, k => if j = k then w else Memory.lookup rest k

/-- Put byte `v` at key `k`, keeping the canonical form. -/
def Memory.insert : Memory → Nat → Byte → Memory
  | [], k, v => if v = Memory.unlisted then [] else [(k, v)]
  | (j, w) :: rest, k, v =>
    if j < k then (j, w) :: Memory.insert rest k v
    else if j = k then (if v = Memory.unlisted then rest else (k, v) :: rest)
    else (if v = Memory.unlisted then (j, w) :: rest else (k, v) :: (j, w) :: rest)

/-- The byte at physical address `a` (R201). -/
def Memory.read (m : Memory) (a : Word) : Byte := m.lookup a.toNat

/-- The memory after byte `v` is written at physical address `a` (R201). -/
def Memory.write (m : Memory) (a : Word) (v : Byte) : Memory := m.insert a.toNat v

/-! ### The platform: bus errors, free values, races, coherence -/

/-- The platform parameter busErr(a, kind) (R201, D45). -/
def Platform.busErr (p : Platform) (kind : AccessKind) (a : Word) : Bool :=
  p.busErrs.any fun r => decide (r.kind = kind) && inRegion r.base r.len a.toNat

/-- An engine read of `a` gives any value: a host write raced on it (R223), or the host has not cleaned it on a platform that
is not coherent (R228, I2). -/
def Platform.anyValue (p : Platform) (a : Word) : Bool := p.raced.contains a || p.unclean.contains a

/-- Record an access the engine made on the DMA port (R210). -/
def Platform.note (p : Platform) (kind : AccessKind) (a : Word) (ok : Bool) : Platform :=
  { p with dmaLog := ⟨kind, a, ok⟩ :: p.dmaLog }

/-- The next free value. -/
def Platform.fresh (p : Platform) : Byte := Config.freeByte p.draws

/-- Count a free value as drawn. -/
def Platform.drew (p : Platform) : Platform := { p with draws := p.draws + 1 }

/-- Byte `a` becomes any value (I1, I3, I4). -/
def Platform.drawAt (p : Platform) (a : Word) : Platform := { p.drew with mem := p.mem.write a p.fresh }

/-- Each of the `n` bytes from `base` becomes any value (I4). -/
def Platform.drawRange (base : Nat) : Nat → Platform → Platform
  | 0, p => p
  | n + 1, p => (Platform.drawRange base n p).drawAt (BitVec.ofNat 32 (base + n))

/-- Each of the listed bytes becomes any value (I2: as I1). -/
def Platform.drawEach : List Word → Platform → Platform
  | [], p => p
  | a :: rest, p => (Platform.drawEach rest p).drawAt a

/-- The engine wrote `a`: on a platform that is not coherent, the host's caches may still hold an older byte (R228). -/
def Platform.wroteStale (p : Platform) (a : Word) : Platform :=
  { p with stale := if p.coherent || p.stale.contains a then p.stale else a :: p.stale }

/-- The end of a command: the bytes a host write raced on keep the value drawn for them and are no longer contested (R223). -/
def Platform.settle (p : Platform) : Platform := { p with raced := [] }

/-- The answer of one or more DMA accesses. -/
inductive Dma (α : Type) where
  /-- Every access was answered ok. -/
  | ok (v : α) (p : Platform)
  /-- The access at `a` got buserr, and no access follows it (R210). -/
  | buserr (a : Word) (p : Platform)
  /-- The access would be outside the address space (log entry 11). -/
  | outside
  deriving Repr

/-- Go on with further accesses if the ones so far were answered ok (R210). -/
def Dma.bind {α β : Type} (x : Dma α) (f : α → Platform → Dma β) : Dma β :=
  match x with
  | .ok v p => f v p
  | .buserr a p => .buserr a p
  | .outside => .outside

/-- MemRead8(a) (R11, R201): the byte at `a`, any value where the access is contested, or buserr. -/
def dmaRead (a : Nat) (p : Platform) : Dma Byte :=
  if a < 2 ^ 32 then
    let w := BitVec.ofNat 32 a
    if p.busErr .read w then .buserr w (p.note .read w false)
    else if p.anyValue w then .ok p.fresh (p.drew.note .read w true)
    else .ok (p.mem.read w) (p.note .read w true)
  else .outside

/-- MemWrite8(a, v) (R11, R201): write byte `v` at `a`. A byte whose write got buserr is any value (I3), and so is one that a
host access races on (R223). -/
def dmaWrite (a : Nat) (v : Byte) (p : Platform) : Dma Unit :=
  if a < 2 ^ 32 then
    let w := BitVec.ofNat 32 a
    if p.busErr .write w then .buserr w (((p.drawAt w).wroteStale w).note .write w false)
    else if p.anyValue w then .ok () (((p.drawAt w).wroteStale w).note .write w true)
    else .ok () ((({ p with mem := p.mem.write w v } : Platform).wroteStale w).note .write w true)
  else .outside

/-! ### Phases -/

/-- U, the number of work units of a phase (R405). -/
def Regs.unitCount (g : Regs) : Phase → Nat
  | .none => 1
  | .normalize => 1
  | .mix => g.pixels
  | .sum => g.pixels
  | .var => g.statN.toNat
  | .lutBuild => 256
  | .remap => g.pixels

/-- The start of a phase (R404, R405): PHASE is its code, PROGRESS is 0, and its start actions run (R710 for SUM, R720 for
VAR; the other phases have none). -/
def Regs.enterPhase (ph : Phase) (g : Regs) : Regs :=
  match ph with
  | .none => { g with phase := .none, progress := 0#32 }
  | .normalize => { g with phase := .normalize, progress := 0#32 }
  | .mix => { g with phase := .mix, progress := 0#32 }
  | .sum =>
    { g with phase := .sum, progress := 0#32, statN := BitVec.ofNat 32 g.pixels, s1 := 0#40, q := 0#128, stats := .none }
  | .var => { g with phase := .var, progress := 0#32, q := 0#128, stats := .mean }
  | .lutBuild => { g with phase := .lutBuild, progress := 0#32 }
  | .remap => { g with phase := .remap, progress := 0#32 }

/-- The end action of a phase (R710, R720): SUM leaves STATS = 1, VAR leaves STATS = 2, the others change nothing. -/
def Regs.leavePhase (ph : Phase) (g : Regs) : Regs :=
  match ph with
  | .none => g
  | .normalize => g
  | .mix => g
  | .sum => { g with stats := .mean }
  | .var => { g with stats := .full }
  | .lutBuild => g
  | .remap => g

/-! ### Acceptance, completion, errors -/

/-- A command that arrives while BUSY = 1 is dropped: CMD_DROPPED is set and nothing else changes (R401). -/
def Regs.dropCommand (g : Regs) : Regs := { g with cmdDropped := true }

/-- What acceptance does first (R402): DONE, ERR, ERR_CODE, PROGRESS and FAULT_ADDR are cleared, OP is C[3:0], PHASE is 0. -/
def Regs.acceptBase (opcode : BitVec 4) (g : Regs) : Regs :=
  { g with done := false, err := false, errCode := .none, progress := 0#32, faultAddr := 0#32, op := opcode, phase := .none }

/-- raise Error(e): an acceptance that fails a check ends with ERR and ERR_CODE, and BUSY stays 0 (R403). -/
def Regs.raiseError (e : ErrCode) (g : Regs) : Regs := { g with err := true, errCode := e }

/-- BUSY <- 1, the first action of a start (R404). -/
def Regs.setBusy (g : Regs) : Regs := { g with busy := true }

/-- The arrival of a command (R400 to R404), in one atomic action: dropped while BUSY = 1; otherwise accepted, checked, and
either ended with the first failing check's code or started. `start` is the entry of the command's first phase. -/
def accept (opcode : BitVec 4) (checks : Regs → Option ErrCode) (start : Regs → Regs) (s : State) :
    Host.Outcome State Fault Refusal :=
  if s.reg.busy then .next { s with reg := s.reg.dropCommand }
  else
    match checks (s.reg.acceptBase opcode) with
    | some e => .next { s with reg := (s.reg.acceptBase opcode).raiseError e }
    | none => .next { s with reg := start (s.reg.acceptBase opcode).setBusy }

/-- complete: the end of a command in success (R406). PROGRESS and PHASE stay. -/
def Regs.complete (g : Regs) : Regs := { g with busy := false, done := true }

/-- fault BusError(a): the end of a command in a bus error (R407). PROGRESS and PHASE stay, and so does every register the
faulting unit would have written. -/
def Regs.busFault (a : Word) (g : Regs) : Regs :=
  { g with faultAddr := a, err := true, errCode := .busError, busy := false }

/-- The arrival of a word that is no command (R305): ILLEGAL_CMD, the first check of R1001. -/
def illegalCommand (c : Word) (s : State) : Host.Outcome State Fault Refusal :=
  accept (opcodeOf c) (fun _ => some .illegalCmd) id s

/-! ### The acceptance checks (R1000), each `some` code where it fails -/

/-- NO_STATS of VAR: STATUS.STATS = 0. -/
def checkMean (g : Regs) : Option ErrCode := if g.stats = .none then some .noStats else none

/-- NO_STATS of LUT_BUILD: STATUS.STATS ≠ 2. -/
def checkFull (g : Regs) : Option ErrCode := if g.stats = .full then none else some .noStats

/-- BAD_DIM: WIDTH = 0 or HEIGHT = 0. -/
def checkDim (g : Regs) : Option ErrCode := if g.width = 0#16 ∨ g.height = 0#16 then some .badDim else none

/-- BAD_WEIGHTS: the raw weights sum to 0. -/
def checkWeights (g : Regs) : Option ErrCode := if g.rawSum = 0 then some .badWeights else none

/-- ADDR_RANGE of the source region: SRC_ADDR + 3N > 2^32. -/
def checkSrcRange (g : Regs) : Option ErrCode :=
  if regionInRange g.src.toNat (3 * g.pixels) then none else some .addrRange

/-- ADDR_RANGE of a destination region of `len` bytes: DST_ADDR + len > 2^32. -/
def checkDstRange (len : Nat) (g : Regs) : Option ErrCode :=
  if regionInRange g.dst.toNat len then none else some .addrRange

/-- OVERLAP: the source and destination regions intersect. -/
def checkOverlap (g : Regs) : Option ErrCode :=
  if regionsOverlap g.src.toNat (3 * g.pixels) g.dst.toNat g.pixels then some .overlap else none

/-- The first check that fails is the one reported (R1001). -/
def firstError : List (Option ErrCode) → Option ErrCode
  | [] => none
  | some e :: _ => some e
  | none :: rest => firstError rest

end Sys2Proof.Machine
end

