-- ==== Sys2Proof/Machine/Contrast.lean ====
section
/-! DEFINITION. The contrast table: LUT_BUILD and REMAP (spec/44_contrast.md). -/

namespace Sys2Proof.Machine

/-- LE(A, B), which decides sqrt(Q)·A ≤ sqrt(N^3)·B on integers (R802). -/
def contrastLe (n q : Nat) (a b : Int) : Bool :=
  if a.sign < b.sign then true
  else if b.sign < a.sign then false
  else if a = 0 ∧ b = 0 then true
  else if 0 < a then decide ((q : Int) * a ^ 2 ≤ (n : Int) ^ 3 * b ^ 2)
  else decide ((n : Int) ^ 3 * b ^ 2 ≤ (q : Int) * a ^ 2)

/-- The number of j in 1..255 with LE(N·j - S1, c·(N·v - S1)) (R802). -/
def contrastCount (n s1 q : Nat) (c : Int) (v : Nat) : Nat :=
  (List.range 255).countP fun j =>
    contrastLe n q ((n : Int) * ((j : Int) + 1) - (s1 : Int)) (c * ((n : Int) * (v : Int) - (s1 : Int)))

/-- L(v): the variance-zero rung of R801 when Q = 0, the integer procedure of R802 otherwise (R810). -/
def contrastEntry (n s1 q : Nat) (c : Int) (v : Nat) : Nat :=
  if q = 0 then min 255 (s1 / n) else contrastCount n s1 q c v

/-- L(v) on the registers as they stand (R810). -/
def Regs.tableEntry (g : Regs) (v : Nat) : Byte :=
  BitVec.ofNat 8 (contrastEntry g.statN.toNat g.s1.toNat g.q.toNat g.contrast v)

/-- LUT[v] <- L(v) for v = PROGRESS (R810). -/
def Regs.buildEntry (g : Regs) : Regs :=
  { g with lut := g.lut.put (BitVec.ofNat 8 g.progress.toNat) (g.tableEntry g.progress.toNat) }

/-- Work unit v = PROGRESS of LUT_BUILD: LUT[v] <- L(v) (R810). -/
def unitLutBuild (g : Regs) (p : Platform) : Dma Regs := .ok g.buildEntry p

/-- LUT_BUILD arrives: NO_STATS, then the start (R810). -/
def execLutBuild (s : State) : Host.Outcome State Fault Refusal :=
  accept 5#4 (fun g => firstError [checkFull g]) (Regs.enterPhase .lutBuild) s

/-- Work unit i = PROGRESS of REMAP: read byte i of the destination region, write its table entry back (R811). -/
def unitRemap (g : Regs) (p : Platform) : Dma Regs :=
  (dmaRead (g.dst.toNat + g.progress.toNat) p).bind fun v p =>
  (dmaWrite (g.dst.toNat + g.progress.toNat) (g.lut.entry v) p).bind fun _ p => .ok g p

/-- REMAP arrives: BAD_DIM, ADDR_RANGE, then the start (R811). -/
def execRemap (s : State) : Host.Outcome State Fault Refusal :=
  accept 6#4 (fun g => firstError [checkDim g, checkDstRange g.pixels g]) (Regs.enterPhase .remap) s

end Sys2Proof.Machine
end

