-- ==== Sys2Proof/Machine/Lifecycle.lean ====
section
/-! DEFINITION. NOP (spec/40_lifecycle.md R410). -/

namespace Sys2Proof.Machine

/-- The work unit of NOP does nothing (R410). -/
def unitNop (g : Regs) (p : Platform) : Dma Regs := .ok g p

/-- NOP arrives: no checks; it starts with PHASE 0 (R404, R410). -/
def execNop (s : State) : Host.Outcome State Fault Refusal :=
  accept 0#4 (fun _ => none) (Regs.enterPhase .none) s

end Sys2Proof.Machine
end

