-- ==== Sys2Proof/Machine/Mix.lean ====
section
/-! DEFINITION. The mixer, the brightness saturator and MIX (spec/42_mix.md). -/

namespace Sys2Proof.Machine

/-- acc = wa·r + wb·g + wc·b, exactly (R600). -/
def Regs.mixSum (g : Regs) (red green blue : Byte) : Nat :=
  g.wR.toNat * red.toNat + g.wG.toNat * green.toNat + g.wB.toNat * blue.toNat

/-- gray(r, g, b) = min(255, acc >> 8): floor division by 256, then the 8-bit clamp (R600). -/
def Regs.gray (g : Regs) (red green blue : Byte) : Nat := min 255 (g.mixSum red green blue / 256)

/-- clamp(x, 0, 255) as a byte (R10). -/
def clampByte (x : Int) : Byte := BitVec.ofNat 8 (min 255 (max 0 x)).toNat

/-- bright(v) = clamp(v + BR, 0, 255) (R601). -/
def Regs.bright (g : Regs) (v : Nat) : Byte := clampByte ((v : Int) + g.brightness)

/-- The output byte of a pixel (R603). -/
def Regs.mixPixel (g : Regs) (red green blue : Byte) : Byte := g.bright (g.gray red green blue)

/-- Work unit i = PROGRESS of MIX: read red, green and blue of pixel i, write its gray (R603, R605). -/
def unitMix (g : Regs) (p : Platform) : Dma Regs :=
  (dmaRead (g.src.toNat + 3 * g.progress.toNat) p).bind fun red p =>
  (dmaRead (g.src.toNat + 3 * g.progress.toNat + 1) p).bind fun green p =>
  (dmaRead (g.src.toNat + 3 * g.progress.toNat + 2) p).bind fun blue p =>
  (dmaWrite (g.dst.toNat + g.progress.toNat) (g.mixPixel red green blue) p).bind fun _ p => .ok g p

/-- MIX arrives: BAD_DIM, ADDR_RANGE of the source and the destination, OVERLAP, then the start (R603). -/
def execMix (s : State) : Host.Outcome State Fault Refusal :=
  accept 2#4 (fun g => firstError [checkDim g, checkSrcRange g, checkDstRange g.pixels g, checkOverlap g])
    (Regs.enterPhase .mix) s

end Sys2Proof.Machine
end

