-- ==== Sys2Proof/Machine/Normalize.lean ====
section
/-! DEFINITION. The weight normaliser and NORMALIZE (spec/41_normalize.md). -/

namespace Sys2Proof.Machine

/-- The three channels. -/
inductive Channel where
  | red
  | green
  | blue
  deriving DecidableEq, Repr

/-- T, the total of the integer weights (R8). -/
def weightTotal : Nat := 256

/-- The raw weight of a channel (R303). -/
def Regs.raw (g : Regs) : Channel → Nat
  | .red => g.rawR.toNat
  | .green => g.rawG.toNat
  | .blue => g.rawB.toNat

/-- f_X, the floored weight of a channel (R501). -/
def Regs.flooredWeight (g : Regs) (x : Channel) : Nat := weightTotal * g.raw x / g.rawSum

/-- r_X, the numerator of a channel's fractional deficit (R501). -/
def Regs.deficit (g : Regs) (x : Channel) : Nat := weightTotal * g.raw x % g.rawSum

/-- D, the shortfall of the floored weights (R502). -/
def Regs.shortfall (g : Regs) : Nat :=
  weightTotal - (g.flooredWeight .red + g.flooredWeight .green + g.flooredWeight .blue)

/-- Insert a channel behind every channel whose key is at least its own, so that ties keep their order. -/
def insertDescending (key : Channel → Nat) (x : Channel) : List Channel → List Channel
  | [] => [x]
  | y :: rest => if key x ≤ key y then y :: insertDescending key x rest else x :: y :: rest

/-- Sort by key, largest first, stable (R503). -/
def stableSortDescending (key : Channel → Nat) : List Channel → List Channel → List Channel
  | sorted, [] => sorted
  | sorted, x :: rest => stableSortDescending key (insertDescending key x sorted) rest

/-- The order in which channels are nudged: by deficit, largest first, ties in the order R, B, G (R503). -/
def Regs.nudgeOrder (g : Regs) : List Channel := stableSortDescending g.deficit [] [.red, .blue, .green]

/-- w_X: the floored weight, plus 1 for the first D channels of the order (R503). -/
def Regs.weight (g : Regs) (x : Channel) : Nat :=
  g.flooredWeight x + (if x ∈ g.nudgeOrder.take g.shortfall then 1 else 0)

/-- WEIGHT_R, WEIGHT_G and WEIGHT_B take the normalised weights (R510). -/
def Regs.normalized (g : Regs) : Regs :=
  { g with
    wR := BitVec.ofNat 9 (g.weight .red)
    wG := BitVec.ofNat 9 (g.weight .green)
    wB := BitVec.ofNat 9 (g.weight .blue) }

/-- The work unit of NORMALIZE writes the three weights (R510). -/
def unitNormalize (g : Regs) (p : Platform) : Dma Regs := .ok g.normalized p

/-- NORMALIZE arrives: BAD_WEIGHTS, then the start (R510). -/
def execNormalize (s : State) : Host.Outcome State Fault Refusal :=
  accept 1#4 (fun g => firstError [checkWeights g]) (Regs.enterPhase .normalize) s

end Sys2Proof.Machine
end

