-- ==== Sys2Proof/Machine/Sequencer.lean ====
section
/-! DEFINITION. The sequencer: RUN and its phase order (spec/45_run.md). -/

namespace Sys2Proof.Machine

/-- CL <- CTRL.CONTRAST_EN, RUN's latch at acceptance (R404, R900). -/
def Regs.latchContrast (g : Regs) : Regs := { g with cl := g.ctrlContrastEn }

/-- The phase after `ph`, if the command has one: RUN follows the order of R901, every other command is one phase (R405). -/
def Regs.nextPhase (g : Regs) (ph : Phase) : Option Phase :=
  if g.op = 7#4 then
    match ph with
    | .none => none
    | .normalize => some .mix
    | .mix => if g.cl then some .sum else none
    | .sum => some .var
    | .var => some .lutBuild
    | .lutBuild => some .remap
    | .remap => none
  else none

/-- RUN arrives: BAD_DIM, BAD_WEIGHTS, ADDR_RANGE of the source and the destination, OVERLAP, then the start, which latches CL
and enters NORMALIZE (R900). -/
def execRun (s : State) : Host.Outcome State Fault Refusal :=
  accept 7#4
    (fun g => firstError [checkDim g, checkWeights g, checkSrcRange g, checkDstRange g.pixels g, checkOverlap g])
    (fun g => g.latchContrast.enterPhase .normalize) s

end Sys2Proof.Machine
end

