-- ==== Sys2Proof/Machine/Statistics.lean ====
section
/-! DEFINITION. The statistics accumulator: SUM and VAR (spec/43_statistics.md). -/

namespace Sys2Proof.Machine

/-- S1 <- S1 + v (R710). -/
def Regs.addSample (v : Byte) (g : Regs) : Regs := { g with s1 := BitVec.ofNat 40 (g.s1.toNat + v.toNat) }

/-- Work unit i = PROGRESS of SUM: S1 <- S1 + v_i (R710). -/
def unitSum (g : Regs) (p : Platform) : Dma Regs :=
  (dmaRead (g.dst.toNat + g.progress.toNat) p).bind fun v p => .ok (g.addSample v) p

/-- SUM arrives: BAD_DIM, ADDR_RANGE, then the start (R710). -/
def execSum (s : State) : Host.Outcome State Fault Refusal :=
  accept 3#4 (fun g => firstError [checkDim g, checkDstRange g.pixels g]) (Regs.enterPhase .sum) s

/-- (N_s·v - S1)^2, exactly (R701, R720). -/
def Regs.squaredDeviation (g : Regs) (v : Byte) : Nat :=
  (((g.statN.toNat : Int) * (v.toNat : Int) - (g.s1.toNat : Int)) ^ 2).toNat

/-- Q <- Q + (N_s·v - S1)^2 (R720). -/
def Regs.addDeviation (v : Byte) (g : Regs) : Regs :=
  { g with q := BitVec.ofNat 128 (g.q.toNat + g.squaredDeviation v) }

/-- Work unit i = PROGRESS of VAR: Q <- Q + (N_s·v_i - S1)^2 (R720). -/
def unitVar (g : Regs) (p : Platform) : Dma Regs :=
  (dmaRead (g.dst.toNat + g.progress.toNat) p).bind fun v p => .ok (g.addDeviation v) p

/-- VAR arrives: NO_STATS, ADDR_RANGE of the first STAT_N destination bytes, then the start (R720). -/
def execVar (s : State) : Host.Outcome State Fault Refusal :=
  accept 4#4 (fun g => firstError [checkMean g, checkDstRange g.statN.toNat g]) (Regs.enterPhase .var) s

end Sys2Proof.Machine
end

