-- ==== Sys2Proof/Machine/Dispatch.lean ====
section
/-! DEFINITION. The meaning of every command: its arrival by a CMD write (spec/40_lifecycle.md R400 to R404). -/

namespace Sys2Proof.Machine

/-- A command arrives (R400): dropped, ended in error, or started; the engine's steps then do its work units (R405). -/
def exec (i : Instr) (s : State) : Host.Outcome State Fault Refusal :=
  match i with
  | .nop => Sys2Proof.Machine.execNop s
  | .normalize => Sys2Proof.Machine.execNormalize s
  | .mix => Sys2Proof.Machine.execMix s
  | .sum => Sys2Proof.Machine.execSum s
  | .var => Sys2Proof.Machine.execVar s
  | .lutBuild => Sys2Proof.Machine.execLutBuild s
  | .remap => Sys2Proof.Machine.execRemap s
  | .run => Sys2Proof.Machine.execRun s

end Sys2Proof.Machine
end

