-- ==== Sys2Proof/Machine/Engine.lean ====
section
/-! DEFINITION. The engine's steps (spec/40_lifecycle.md R405 to R407): one work unit of the current phase, then the end of
the phase and of the command. -/

namespace Sys2Proof.Machine

/-- The work unit of the current phase (R405): the registers it leaves, or the buserr that ends it. -/
def workUnit (g : Regs) (p : Platform) : Dma Regs :=
  match g.phase with
  | .none => unitNop g p
  | .normalize => unitNormalize g p
  | .mix => unitMix g p
  | .sum => unitSum g p
  | .var => unitVar g p
  | .lutBuild => unitLutBuild g p
  | .remap => unitRemap g p

/-- PROGRESS <- PROGRESS + 1 (R405). -/
def Regs.countUnit (g : Regs) : Regs := { g with progress := BitVec.ofNat 32 (g.progress.toNat + 1) }

/-- What follows a completed unit (R405, R406): PROGRESS advances; when it reaches the phase's unit count the phase ends, and
in the same step the next phase begins or the command completes. -/
def Regs.advance (g : Regs) : Regs :=
  if g.progress.toNat + 1 < g.unitCount g.phase then g.countUnit
  else
    match g.nextPhase g.phase with
    | some ph => (g.countUnit.leavePhase g.phase).enterPhase ph
    | none => (g.countUnit.leavePhase g.phase).complete

/-- The platform after a step: if the command has ended, its races are over (R223). -/
def settleWhenIdle (g : Regs) (p : Platform) : Platform := if g.busy then p else p.settle

/-- One turn of the engine (R405, R407): nothing while BUSY = 0 (R1025), one work unit while BUSY = 1. -/
def engineStep (s : State) : Host.Outcome State Fault Refusal :=
  if s.reg.busy then
    match workUnit s.reg s.plat with
    | .ok g p => .next { s with reg := g.advance, plat := settleWhenIdle g.advance p }
    | .buserr a p => .next { s with reg := s.reg.busFault a, plat := p.settle }
    | .outside => .fault .dmaOutsideSpace
  else .next s

/-- `n` turns of the engine in a row, with no host transaction between them. -/
def engineRun : Nat → State → Host.Outcome State Fault Refusal
  | 0, s => .next s
  | n + 1, s =>
    match engineStep s with
    | .next t => engineRun n t
    | .fault f => .fault f
    | .refused r => .refused r

end Sys2Proof.Machine
end

