-- ==== Sys2Proof/Machine/Registers.lean ====
section
/-! DEFINITION. The register map: offsets, reads and writes (spec/10_state.md R102, R103, R110 to R130; spec/40_lifecycle.md
R408, R409; spec/20_memory.md R206). -/

namespace Sys2Proof.Machine

/-- The registers of the window (R103). -/
inductive Reg where
  | id
  | ctrl
  | status
  | cmd
  | srcAddr
  | dstAddr
  | dim
  | rawR
  | rawG
  | rawB
  | weightR
  | weightG
  | weightB
  | brightness
  | contrast
  | statN
  | statS1Lo
  | statS1Hi
  | statQ0
  | statQ1
  | statQ2
  | statQ3
  | progress
  | faultAddr
  /-- Word `j` of the LUT window. -/
  | lutw (j : BitVec 6)
  deriving DecidableEq, Repr

/-- The offset of a register from REG_BASE (R103). -/
def Reg.offset : Reg → BitVec 12
  | .id => 0x000#12
  | .ctrl => 0x004#12
  | .status => 0x008#12
  | .cmd => 0x00C#12
  | .srcAddr => 0x010#12
  | .dstAddr => 0x014#12
  | .dim => 0x018#12
  | .rawR => 0x01C#12
  | .rawG => 0x020#12
  | .rawB => 0x024#12
  | .weightR => 0x028#12
  | .weightG => 0x02C#12
  | .weightB => 0x030#12
  | .brightness => 0x034#12
  | .contrast => 0x038#12
  | .statN => 0x03C#12
  | .statS1Lo => 0x040#12
  | .statS1Hi => 0x044#12
  | .statQ0 => 0x048#12
  | .statQ1 => 0x04C#12
  | .statQ2 => 0x050#12
  | .statQ3 => 0x054#12
  | .progress => 0x058#12
  | .faultAddr => 0x05C#12
  | .lutw j => BitVec.ofNat 12 (0x100 + 4 * j.toNat)

/-- The registers of offsets 0x000 to 0x05C, one a word (R103). -/
def Reg.firstWords : List Reg :=
  [.id, .ctrl, .status, .cmd, .srcAddr, .dstAddr, .dim, .rawR, .rawG, .rawB, .weightR, .weightG, .weightB, .brightness,
    .contrast, .statN, .statS1Lo, .statS1Hi, .statQ0, .statQ1, .statQ2, .statQ3, .progress, .faultAddr]

/-- The register at an aligned offset, `none` at a reserved one (R103, R130). -/
def Reg.ofOffset (o : BitVec 12) : Option Reg :=
  if o.toNat < 0x060 then Reg.firstWords[o.toNat / 4]?
  else if 0x100 ≤ o.toNat ∧ o.toNat < 0x200 then some (.lutw (BitVec.ofNat 6 ((o.toNat - 0x100) / 4)))
  else none

/-- The physical address of an offset: the window starts at REG_BASE (R200, D44). -/
def windowAddress (o : BitVec 12) : Nat := Config.regBase.toNat + o.toNat

/-- A register transaction is served if it is 32 bits wide at a multiple of 4; any other gets response ERROR (R206). -/
def portServes (o : BitVec 12) (size : Nat) : Bool := size == 4 && o.toNat % 4 == 0

/-- What a served read of a register returns (R102, R103, R409); reserved bits read 0, CMD reads 0 (R116), and the LUT window
reads 0 while BUSY = 1 (R129). -/
def Regs.readReg (g : Regs) : Reg → Word
  | .id => 0x47590100#32
  | .ctrl => placed (BitVec.ofBool g.ctrlContrastEn) 0 ||| placed (BitVec.ofBool g.ctrlIrqEn) 1
  | .status => g.statusWord
  | .cmd => 0#32
  | .srcAddr => g.src
  | .dstAddr => g.dst
  | .dim => placed g.width 0 ||| placed g.height 16
  | .rawR => placed g.rawR 0
  | .rawG => placed g.rawG 0
  | .rawB => placed g.rawB 0
  | .weightR => placed g.wR 0
  | .weightG => placed g.wG 0
  | .weightB => placed g.wB 0
  | .brightness => placed g.brBits 0
  | .contrast => placed g.cBits 0
  | .statN => g.statN
  | .statS1Lo => g.s1.extractLsb' 0 32
  | .statS1Hi => placed (g.s1.extractLsb' 32 8) 0
  | .statQ0 => g.q.extractLsb' 0 32
  | .statQ1 => g.q.extractLsb' 32 32
  | .statQ2 => g.q.extractLsb' 64 32
  | .statQ3 => g.q.extractLsb' 96 32
  | .progress => g.progress
  | .faultAddr => g.faultAddr
  | .lutw j => if g.busy then 0#32 else g.lut.window j

/-- What a served read at an offset returns; a reserved offset reads 0 (R130). -/
def Regs.readOffset (g : Regs) (o : BitVec 12) : Word :=
  match Reg.ofOffset o with
  | some r => g.readReg r
  | none => 0#32

/-- Store the field bits of an operand register or a LUT window word (R117 to R123, R129); the other registers are no operand
and are unchanged. -/
def Regs.setOperand (d : Word) (g : Regs) : Reg → Regs
  | .srcAddr => { g with src := d }
  | .dstAddr => { g with dst := d }
  | .dim => { g with width := d.extractLsb' 0 16, height := d.extractLsb' 16 16 }
  | .rawR => { g with rawR := d.extractLsb' 0 16 }
  | .rawG => { g with rawG := d.extractLsb' 0 16 }
  | .rawB => { g with rawB := d.extractLsb' 0 16 }
  | .weightR => { g with wR := d.extractLsb' 0 9 }
  | .weightG => { g with wG := d.extractLsb' 0 9 }
  | .weightB => { g with wB := d.extractLsb' 0 9 }
  | .brightness => { g with brBits := d.extractLsb' 0 9 }
  | .contrast => { g with cBits := d.extractLsb' 0 9 }
  | .lutw j => { g with lut := g.lut.setWindow j d }
  | .id => g
  | .ctrl => g
  | .status => g
  | .cmd => g
  | .statN => g
  | .statS1Lo => g
  | .statS1Hi => g
  | .statQ0 => g
  | .statQ1 => g
  | .statQ2 => g
  | .statQ3 => g
  | .progress => g
  | .faultAddr => g

/-- The registers whose host writes are ignored while BUSY = 1 and set WR_IGNORED (R408). -/
def Reg.isOperand : Reg → Bool
  | .srcAddr => true
  | .dstAddr => true
  | .dim => true
  | .rawR => true
  | .rawG => true
  | .rawB => true
  | .weightR => true
  | .weightG => true
  | .weightB => true
  | .brightness => true
  | .contrast => true
  | .lutw _ => true
  | .id => false
  | .ctrl => false
  | .status => false
  | .cmd => false
  | .statN => false
  | .statS1Lo => false
  | .statS1Hi => false
  | .statQ0 => false
  | .statQ1 => false
  | .statQ2 => false
  | .statQ3 => false
  | .progress => false
  | .faultAddr => false

/-- A write of CTRL takes effect even while BUSY = 1 (R111, R408). -/
def Regs.setCtrl (d : Word) (g : Regs) : Regs := { g with ctrlContrastEn := d.getLsbD 0, ctrlIrqEn := d.getLsbD 1 }

/-- A served host write of `d` to a register other than CMD (R102, R103, R408): operand registers and LUT words store it while
idle and set WR_IGNORED while busy, CTRL and STATUS always act, read-only registers ignore it. -/
def Regs.writeReg (d : Word) (g : Regs) (r : Reg) : Regs :=
  if r.isOperand then (if g.busy then { g with wrIgnored := true } else g.setOperand d r)
  else if r = .ctrl then g.setCtrl d
  else if r = .status then g.clearFlags d
  else g

end Sys2Proof.Machine
end

