-- ==== Sys2Proof/Machine/HostPort.lean ====
section
/-! DEFINITION. What each event does: register transactions, host memory accesses, cache maintenance, the platform's changes,
the reset event and the engine's turns (spec/70_reset_and_hazards.md R1140). -/

namespace Sys2Proof.Machine

/-- A command word arrives at CMD (R400): decoded and executed, or reported as ILLEGAL_CMD (R301, R305). -/
def command (c : Word) (s : State) : Host.Outcome State Fault Refusal :=
  match decode c with
  | .ok i => exec i s
  | .error _ => illegalCommand c s

/-- A host register write (R200, R206): refused with ERROR and no effect unless it is a 32-bit access at a multiple of 4; a
write of CMD is a command (R400); a write at a reserved offset is ignored (R130). -/
def hostRegWrite (o : BitVec 12) (size : Nat) (d : Word) (s : State) : Host.Outcome State Fault Refusal :=
  if portServes o size then
    match Reg.ofOffset o with
    | some r =>
      if r = .cmd then command d { s with reply := .written .ok }
      else .next { s with reg := s.reg.writeReg d r, reply := .written .ok }
    | none => .next { s with reply := .written .ok }
  else .next { s with reply := .written .error }

/-- A host register read (R200, R206): no effect but its reply; ERROR and data 0 unless it is a 32-bit access at a multiple
of 4. -/
def hostRegRead (o : BitVec 12) (size : Nat) (s : State) : State :=
  if portServes o size then { s with reply := .data .ok (s.reg.readOffset o) }
  else { s with reply := .data .error 0#32 }

/-- `wait` (R308): read STATUS, and while BUSY = 1 read it again after the engine's turn. -/
def hostWait (s : State) : State :=
  { s with
    reply := .data .ok s.reg.statusWord
    inputs := if s.reg.busy then .engine :: .wait :: s.inputs else s.inputs }

/-- The LUT window word that holds entry `v` (R129, R308). -/
def windowOf (v : Byte) : BitVec 6 := BitVec.ofNat 6 (v.toNat / 4)

/-- The word `t` with byte `k` (0 to 3) replaced by `x` (R308). -/
def replaceByte (t : Word) (k : Nat) (x : Byte) : Word :=
  (t &&& ~~~((0xFF#32) <<< (8 * k))) ||| (x.setWidth 32 <<< (8 * k))

/-- `wrlut v, x` (R308): read the window word of entry `v`, then write it back with that entry replaced. -/
def hostWrlut (v x : Byte) (s : State) : State :=
  let t := s.reg.readReg (.lutw (windowOf v))
  { s with
    reply := .data .ok t
    inputs := .regWrite (Reg.lutw (windowOf v)).offset 4 (replaceByte t (v.toNat % 4) x) :: s.inputs }

/-- A host write of one byte of memory (R221, R223): in a region the running command accesses it is a race, and the byte is any
value; elsewhere the byte is written, and on a platform that is not coherent it waits in the host's caches (R228). DESIGN CHOICE
(log entry 7): R228 and 93 I2 do not say what a host write does to a byte that the host's caches hold stale. Here it ends that
byte's staleness, so that the host's later reads of it give the byte in memory with no invalidate between. -/
def hostMemWrite (a : Word) (v : Byte) (s : State) : State :=
  let p := s.plat
  let cached : Platform :=
    if p.coherent then p
    else { p with unclean := if p.unclean.contains a then p.unclean else a :: p.unclean, stale := p.stale.erase a }
  { s with
    reply := .none
    plat :=
      if s.reg.owns a then { cached.drawAt a with raced := if p.raced.contains a then p.raced else a :: p.raced }
      else { cached with mem := p.mem.write a v } }

/-- A host read of one byte of memory (R222, R223): any value where it races with the running command, or where the host's
caches may be stale on a platform that is not coherent (R228); the byte elsewhere. -/
def hostMemRead (a : Word) (s : State) : State :=
  if s.reg.owns a || s.plat.stale.contains a then { s with reply := .memory s.plat.fresh, plat := s.plat.drew }
  else { s with reply := .memory (s.plat.mem.read a) }

/-- The host cleans its caches over a range (R228): its writes there reach memory. DESIGN CHOICE (log entry 7): a byte of a running
command's regions stays contested, and a stale byte stays stale. -/
def hostCacheClean (base len : Nat) (s : State) : State :=
  { s with
    reply := .none
    plat := { s.plat with unclean := s.plat.unclean.filter fun a => !inRegion base len a.toNat || s.reg.owns a } }

/-- The host invalidates its caches over a range (R228): later reads see memory. DESIGN CHOICE (log entry 7): R228 does not say
what an invalidate does to a byte the host wrote and had not cleaned. Its write may be lost or not, so the byte in memory becomes
any value, whatever the host cleans or invalidates later; until it is cleaned the engine's reads of it, and until it is
invalidated again after that the host's, are free values of their own. -/
def hostCacheInvalidate (base len : Nat) (s : State) : State :=
  let lost := s.plat.unclean.filter fun a => inRegion base len a.toNat
  { s with
    reply := .none
    plat := { s.plat.drawEach lost with
      stale := (s.plat.stale.filter fun a => !inRegion base len a.toNat) ++ lost } }

/-- The reset event (R1100 to R1102): every register takes its reset value; memory stays, but for the destination region of a
command that was running, each byte of which is any value. -/
def resetEvent (s : State) : State :=
  { s with
    reg := Regs.reset
    reply := .none
    plat := (if s.reg.busy then s.plat.drawRange s.reg.dst.toNat s.reg.dstLen else s.plat).settle }

/-- What an event does (R1140). -/
def perform (e : Event) (s : State) : Host.Outcome State Fault Refusal :=
  match e with
  | .engine => engineStep s
  | .regWrite o size d => hostRegWrite o size d s
  | .regRead o size => .next (hostRegRead o size s)
  | .wait => .next (hostWait s)
  | .wrlut v x => .next (hostWrlut v x s)
  | .memWrite a v => .next (hostMemWrite a v s)
  | .memRead a => .next (hostMemRead a s)
  | .cacheClean base len => .next (hostCacheClean base len s)
  | .cacheInvalidate base len => .next (hostCacheInvalidate base len s)
  | .platformErr ranges => .next { s with plat := { s.plat with busErrs := ranges } }
  | .reset => .next (resetEvent s)

/-- The next event, or the engine's turn where none is left (R405: weak fairness). -/
def turn (s : State) : Host.Outcome State Fault Refusal :=
  match s.inputs with
  | [] => engineStep s
  | e :: rest => perform e { s with inputs := rest }

end Sys2Proof.Machine
end

