-- ==== Sys2Proof/Machine/Step.lean ====
section
/-! DEFINITION. One step of the machine, and how a command is placed where the next step takes it. -/

namespace Sys2Proof.Machine

/-- One step: the next event of the outside world, or one turn of the engine (R405, R1140). -/
def step (s : State) : Host.Outcome State Fault Refusal := turn s

/-- `s` with the host's next transaction a write of the command word `w` to CMD (R309: `cmd M` is (W, 0x00C, word)). GRAYMIX
fetches no instructions (R101), so the CMD write is what brings a command to the machine (log entry 1). -/
def State.withFetchWord (s : State) (nbits w : Nat) : State :=
  { s with inputs := .regWrite (Reg.offset .cmd) 4 (BitVec.ofNat 32 (w % 2 ^ nbits)) :: s.inputs }

end Sys2Proof.Machine
end

