-- ==== Sys2Proof/Machine/Program.lean ====
section
/-! DEFINITION. Host programs: the statements of spec/30_encoding.md R307 and the transactions they stand for (R308, R309). -/

namespace Sys2Proof.Machine

/-- The flags a `clr` statement can name (R307). -/
inductive ClearFlag where
  | done
  | err
  | cmdDropped
  | wrIgnored
  deriving DecidableEq, Repr

/-- The STATUS mask of a flag (R308). -/
def ClearFlag.mask : ClearFlag → Word
  | .done => 0x2#32
  | .err => 0x4#32
  | .cmdDropped => 0x8#32
  | .wrIgnored => 0x10#32

/-- A statement of a host program (R307). -/
inductive Stmt where
  /-- `wr r, value`: one 32-bit write; a negative value is its two's complement. -/
  | wr (r : Reg) (value : Int)
  /-- `rd r`: one 32-bit read. -/
  | rd (r : Reg)
  /-- `cmd M`. -/
  | cmd (i : Instr)
  /-- `wait`. -/
  | wait
  /-- `clr F1|F2...`. -/
  | clr (flags : List ClearFlag)
  /-- `wrlut v, x`. -/
  | wrlut (v x : Byte)
  /-- `mem8 addr, byte`. -/
  | mem8 (addr : Word) (byte : Byte)
  /-- `rdmem8 addr`. -/
  | rdmem8 (addr : Word)
  deriving DecidableEq, Repr

/-- The transaction a statement stands for (R308, R309). -/
def Stmt.event : Stmt → Event
  | .wr r value => .regWrite r.offset 4 (BitVec.ofInt 32 value)
  | .rd r => .regRead r.offset 4
  | .cmd i => .regWrite (Reg.offset .cmd) 4 (encode i)
  | .wait => .wait
  | .clr flags => .regWrite (Reg.offset .status) 4 (flags.foldl (fun m f => m ||| f.mask) 0#32)
  | .wrlut v x => .wrlut v x
  | .mem8 a b => .memWrite a b
  | .rdmem8 a => .memRead a

/-- The machine about to run a host program from a state. DESIGN CHOICE (log entry 22): R405, R1130 and 93 I10 leave free how many
engine steps pass between two statements. This list puts none there but in `wait`, so it is one schedule of the program; every
other one is the same list with `Event.engine` put between its events. -/
def State.withProgram (s : State) (program : List Stmt) : State := { s with inputs := program.map Stmt.event ++ s.inputs }

end Sys2Proof.Machine
end

