-- ==== Sys2Proof/Safety.lean ====
section
/-! DEFINITION. What counts as a safe state, and the terms claims are stated in: the invariants of the registers, the engine and
memory, the acceptance outcome the spec's tables give a command, and the quantities a command computes over a region. -/

namespace Sys2Proof.Machine

/-! ### Invariants -/

/-- R112 and R113: BUSY, DONE and ERR exclude each other, ERR_CODE is not 0 exactly when ERR = 1; R804: code 8 is never
recorded. -/
abbrev Regs.StatusOk (g : Regs) : Prop :=
  ¬ (g.busy = true ∧ g.done = true) ∧ ¬ (g.busy = true ∧ g.err = true) ∧ ¬ (g.done = true ∧ g.err = true) ∧
  (g.errCode ≠ .none ↔ g.err = true) ∧ g.errCode ≠ .contrastFail

/-- R114: the phase is one that the command in OP has, and for RUN a phase after MIX only if CL = 1 (R901). -/
def Regs.phaseFits (g : Regs) : Bool :=
  match g.op.toNat with
  | 0 => g.phase = .none
  | 1 => g.phase = .normalize
  | 2 => g.phase = .mix
  | 3 => g.phase = .sum
  | 4 => g.phase = .var
  | 5 => g.phase = .lutBuild
  | 6 => g.phase = .remap
  | 7 => decide (g.phase ≠ .none) && (g.cl || decide (g.phase = .normalize) || decide (g.phase = .mix))
  | _ => false

/-- While a command runs: its phase fits, PROGRESS is below the phase's unit count (R405), its regions are in range (R213) and,
for MIX and RUN, do not overlap, and the statistics are as its phase needs them (R115, R901). -/
abbrev Regs.EngineOk (g : Regs) : Prop :=
  g.busy = true →
    g.phaseFits = true ∧ g.progress.toNat < g.unitCount g.phase ∧
    g.src.toNat + g.srcLen ≤ 2 ^ 32 ∧ g.dst.toNat + g.dstLen ≤ 2 ^ 32 ∧
    (g.op = 2#4 ∨ g.op = 7#4 → regionsOverlap g.src.toNat (3 * g.pixels) g.dst.toNat g.pixels = false) ∧
    (g.phase = .normalize → g.rawSum ≠ 0) ∧
    (g.op = 7#4 → 0 < g.pixels) ∧
    (g.phase = .sum → g.stats = .none ∧ g.statN.toNat = g.pixels) ∧
    (g.phase = .var → g.stats = .mean) ∧
    (g.phase = .lutBuild → g.stats = .full) ∧
    (g.op = 7#4 ∧ (g.phase = .var ∨ g.phase = .lutBuild ∨ g.phase = .remap) → g.statN.toNat = g.pixels)

/-- The statistics registers are within the bounds of R704: complete statistics count at least one sample, S1 ≤ 255·STAT_N and
Q ≤ 65025·STAT_N^3 (so Q < 2^112, R126), and a pass in progress has seen PROGRESS samples. -/
abbrev Regs.StatsOk (g : Regs) : Prop :=
  (g.stats ≠ .none → 0 < g.statN.toNat) ∧ g.statN.toNat ≤ 65535 ^ 2 ∧
  g.s1.toNat ≤ 255 * g.statN.toNat ∧ g.q.toNat ≤ 65025 * g.statN.toNat ^ 3 ∧
  (g.busy = true ∧ g.phase = .sum → g.s1.toNat ≤ 255 * g.progress.toNat) ∧
  (g.busy = true ∧ g.phase = .var → g.q.toNat ≤ 65025 * g.statN.toNat ^ 2 * g.progress.toNat)

/-- Races last no longer than the command (R223), and a coherent platform has nothing to clean or invalidate (R228). -/
abbrev State.RacesOk (s : State) : Prop :=
  (s.reg.busy = false → s.plat.raced = []) ∧ (s.plat.coherent = true → s.plat.unclean = [] ∧ s.plat.stale = [])

/-- Everything above, and memory in its canonical form. -/
abbrev State.Ok (s : State) : Prop :=
  s.reg.StatusOk ∧ s.reg.EngineOk ∧ s.reg.StatsOk ∧ s.RacesOk ∧ s.plat.mem.wf

/-! ### What the spec's tables say of a command's arrival -/

/-- The opcode of a command (R302). -/
def opcodeFor (i : Instr) : BitVec 4 := opcodeOf (encode i)

/-- The code of the first check that fails, `none` if the command starts: the table of causes in R1000 read in the order of
R1001. -/
def firstFailure (i : Instr) (g : Regs) : ErrCode :=
  if (i = .var ∧ g.stats = .none) ∨ (i = .lutBuild ∧ g.stats ≠ .full) then .noStats
  else if i ∈ [.mix, .sum, .remap, .run] ∧ (g.width = 0#16 ∨ g.height = 0#16) then .badDim
  else if i ∈ [.normalize, .run] ∧ g.rawSum = 0 then .badWeights
  else if (i ∈ [.mix, .run] ∧ 2 ^ 32 < g.src.toNat + 3 * g.pixels) ∨
      (i ∈ [.mix, .sum, .remap, .run] ∧ 2 ^ 32 < g.dst.toNat + g.pixels) ∨
      (i = .var ∧ 2 ^ 32 < g.dst.toNat + g.statN.toNat) then .addrRange
  else if i ∈ [.mix, .run] ∧ g.src.toNat < g.dst.toNat + g.pixels ∧ g.dst.toNat < g.src.toNat + 3 * g.pixels then .overlap
  else .none

/-- The registers after an acceptance that fails with code `e` (R402, R403). -/
def Regs.rejected (opcode : BitVec 4) (e : ErrCode) (g : Regs) : Regs :=
  { g with done := false, err := true, errCode := e, progress := 0#32, faultAddr := 0#32, op := opcode, phase := .none }

/-- The first phase of a command (R404). -/
def firstPhaseOf : Instr → Phase
  | .nop => .none
  | .normalize => .normalize
  | .mix => .mix
  | .sum => .sum
  | .var => .var
  | .lutBuild => .lutBuild
  | .remap => .remap
  | .run => .normalize

/-- The registers after a command has started (R402, R404), with the start actions of SUM (R710), VAR (R720) and RUN (R900). -/
def Regs.started (i : Instr) (g : Regs) : Regs :=
  { g with
    busy := true, done := false, err := false, errCode := .none, progress := 0#32, faultAddr := 0#32
    op := opcodeFor i, phase := firstPhaseOf i
    cl := if i = .run then g.ctrlContrastEn else g.cl
    statN := if i = .sum then BitVec.ofNat 32 g.pixels else g.statN
    s1 := if i = .sum then 0#40 else g.s1
    q := if i = .sum ∨ i = .var then 0#128 else g.q
    stats := if i = .sum then .none else if i = .var then .mean else g.stats }

/-- The state after a command has started: only registers have changed (R404, R1002). -/
def State.started (i : Instr) (s : State) : State := { s with reg := s.reg.started i }

/-- A command is issued and the engine takes `n` turns with no host transaction between them. -/
def issue (i : Instr) (n : Nat) (s : State) : Host.Outcome State Fault Refusal :=
  match exec i s with
  | .next t => engineRun n t
  | .fault f => .fault f
  | .refused r => .refused r

/-- The engine steps of a successful command (R1130), read off the registers while it runs. -/
def Regs.commandSteps (g : Regs) : Nat :=
  match g.op.toNat with
  | 0 => 1
  | 1 => 1
  | 2 => g.pixels
  | 3 => g.pixels
  | 4 => g.statN.toNat
  | 5 => 256
  | 6 => g.pixels
  | 7 => if g.cl then 1 + 4 * g.pixels + 256 else 1 + g.pixels
  | _ => 0

/-- Every byte a host write has raced on is the engine's, and holds a value drawn so far (R223, log entries 4 and 6). -/
def State.RacedDrawn (s : State) : Prop :=
  ∀ a ∈ s.plat.raced, s.reg.owns a = true ∧ ∃ n, n < s.plat.draws ∧ s.plat.mem.read a = Config.freeByte n

/-! ### What the platform grants a region -/

/-- No access of one kind to the `len` bytes from `base` gets buserr (D45). -/
def Platform.serves (p : Platform) (kind : AccessKind) (base len : Nat) : Prop :=
  ∀ a : Word, inRegion base len a.toNat = true → p.busErr kind a = false

/-- No byte of the region is contested: no race (R223), and every host write has been performed (R221). -/
def Platform.uncontested (p : Platform) (base len : Nat) : Prop :=
  ∀ a : Word, inRegion base len a.toNat = true → p.anyValue a = false

/-- The engine's accesses of one kind to the `len` bytes from `base` meet neither buserr nor a race. -/
def Platform.grants (p : Platform) (kind : AccessKind) (base len : Nat) : Prop :=
  p.serves kind base len ∧ p.uncontested base len

/-! ### What a command computes over a region -/

/-- Byte `i` of the region at `base` (R204). -/
def Memory.regionByte (m : Memory) (base i : Nat) : Byte := m.read (BitVec.ofNat 32 (base + i))

/-- Σ v_i over the `n` bytes from `base` (R701). -/
def Memory.sampleSum (m : Memory) (base n : Nat) : Nat := ((List.range n).map fun i => (m.regionByte base i).toNat).sum

/-- (N_s·v - S1)^2 as a natural number (R701). -/
def squareOfDeviation (ns s1 v : Nat) : Nat := (((ns : Int) * v - s1) ^ 2).toNat

/-- Σ (N_s·v_i - S1)^2 over the `n` bytes from `base` (R701). -/
def Memory.deviationSum (m : Memory) (base n ns s1 : Nat) : Nat :=
  ((List.range n).map fun i => squareOfDeviation ns s1 (m.regionByte base i).toNat).sum

/-- The output byte of pixel `i` under the registers `g`, from the source region in `m` (R204, R603). -/
def Regs.mixOutput (g : Regs) (m : Memory) (i : Nat) : Byte :=
  g.mixPixel (m.regionByte g.src.toNat (3 * i)) (m.regionByte g.src.toNat (3 * i + 1))
    (m.regionByte g.src.toNat (3 * i + 2))

/-- The DMA accesses of pixel `i` in MIX, in order (R605). -/
def Regs.mixAccesses (g : Regs) (i : Nat) : List DmaAccess :=
  [⟨.read, BitVec.ofNat 32 (g.src.toNat + 3 * i), true⟩, ⟨.read, BitVec.ofNat 32 (g.src.toNat + 3 * i + 1), true⟩,
    ⟨.read, BitVec.ofNat 32 (g.src.toNat + 3 * i + 2), true⟩, ⟨.write, BitVec.ofNat 32 (g.dst.toNat + i), true⟩]

/-- The bits of an operand register or LUT word that a write stores; the others are RAZ/WI (R117 to R123, R129). -/
def Reg.fieldMask : Reg → Word
  | .rawR => 0x0000FFFF#32
  | .rawG => 0x0000FFFF#32
  | .rawB => 0x0000FFFF#32
  | .weightR => 0x000001FF#32
  | .weightG => 0x000001FF#32
  | .weightB => 0x000001FF#32
  | .brightness => 0x000001FF#32
  | .contrast => 0x000001FF#32
  | _ => 0xFFFFFFFF#32

end Sys2Proof.Machine
end

