-- ==== Sys2Proof/Certificates/Slice0/Obligations.lean ====
section
/-! DEFINITION. The statements for the provers. Each docstring names the rules of spec/ that the statement formalises. -/

open Sys2Proof Sys2Proof.Machine

/-! ### Encoding -/

/-- R302, R305 on samples: the eight command words decode to their commands; the words 8 and 15 are refused for their opcode, and the
words 0x12 and 0x80000007 for their reserved bits. -/
def Obligations.OpcodeMapWords : Prop :=
  decode 0x00000000#32 = .ok .nop ∧ decode 0x00000001#32 = .ok .normalize ∧ decode 0x00000002#32 = .ok .mix ∧
  decode 0x00000003#32 = .ok .sum ∧ decode 0x00000004#32 = .ok .var ∧ decode 0x00000005#32 = .ok .lutBuild ∧
  decode 0x00000006#32 = .ok .remap ∧ decode 0x00000007#32 = .ok .run ∧
  decode 0x00000008#32 = .error .reservedOpcode ∧ decode 0x0000000F#32 = .error .reservedOpcode ∧
  decode 0x00000012#32 = .error .reservedBits ∧ decode 0x80000007#32 = .error .reservedBits

/-- R302 and the decoding part of R301: decoding and encoding agree in both directions, over all commands and all 2^32 words; a word
decodes to a command exactly when it is legal; the word of a command is its opcode zero-extended, with the opcodes of the map. -/
def Obligations.DecodeIsInverseOfEncode : Prop :=
  (∀ (c : Word) (i : Instr), decode c = .ok i ↔ c = encode i) ∧
  (∀ c : Word, (∃ i, decode c = .ok i) ↔ wellFormedWord c = true) ∧
  (∀ (i : Instr), encode i = (opcodeFor i).setWidth 32 ∧ i.wellFormed = true) ∧
  (∀ c : Word, c.extractLsb' 4 28 = 0#28 → 8 ≤ (c.extractLsb' 0 4).toNat → decode c = .error .reservedOpcode) ∧
  opcodeFor .nop = 0x0#4 ∧ opcodeFor .normalize = 0x1#4 ∧ opcodeFor .mix = 0x2#4 ∧ opcodeFor .sum = 0x3#4 ∧
  opcodeFor .var = 0x4#4 ∧ opcodeFor .lutBuild = 0x5#4 ∧ opcodeFor .remap = 0x6#4 ∧ opcodeFor .run = 0x7#4

/-! ### The register port -/

/-- R103, R102, R409: every register stands at the offset of the map, aligned and its own; a served read replies with the register's
value and changes nothing else; and what each register but STATUS and the LUT window words reads, bits outside the fields reading
0 (R110, R111, R116 to R128), so that S1 is the two words of STAT_S1 and Q the four of STAT_Q (R705). -/
def Obligations.RegisterMapIsInjective : Prop :=
  (∀ r : Reg, Reg.ofOffset r.offset = some r ∧ portServes r.offset 4 = true) ∧
  (∀ (o : BitVec 12) (r : Reg), o.toNat % 4 = 0 → Reg.ofOffset o = some r → r.offset = o) ∧
  (Reg.id.offset = 0x000#12 ∧ Reg.ctrl.offset = 0x004#12 ∧ Reg.status.offset = 0x008#12 ∧ Reg.cmd.offset = 0x00C#12 ∧
    Reg.srcAddr.offset = 0x010#12 ∧ Reg.dstAddr.offset = 0x014#12 ∧ Reg.dim.offset = 0x018#12 ∧
    Reg.rawR.offset = 0x01C#12 ∧ Reg.rawG.offset = 0x020#12 ∧ Reg.rawB.offset = 0x024#12 ∧
    Reg.weightR.offset = 0x028#12 ∧ Reg.weightG.offset = 0x02C#12 ∧ Reg.weightB.offset = 0x030#12 ∧
    Reg.brightness.offset = 0x034#12 ∧ Reg.contrast.offset = 0x038#12 ∧ Reg.statN.offset = 0x03C#12 ∧
    Reg.statS1Lo.offset = 0x040#12 ∧ Reg.statS1Hi.offset = 0x044#12 ∧ Reg.statQ0.offset = 0x048#12 ∧
    Reg.statQ1.offset = 0x04C#12 ∧ Reg.statQ2.offset = 0x050#12 ∧ Reg.statQ3.offset = 0x054#12 ∧
    Reg.progress.offset = 0x058#12 ∧ Reg.faultAddr.offset = 0x05C#12 ∧
    ∀ j : BitVec 6, (Reg.lutw j).offset.toNat = 0x100 + 4 * j.toNat) ∧
  (∀ (s : State) (r : Reg), perform (.regRead r.offset 4) s = .next { s with reply := .data .ok (s.reg.readReg r) }) ∧
  (∀ g : Regs,
    g.readReg .id = 0x47590100#32 ∧ g.readReg .cmd = 0#32 ∧
    (g.readReg .ctrl).toNat = 2 * g.ctrlIrqEn.toNat + g.ctrlContrastEn.toNat ∧
    g.readReg .srcAddr = g.src ∧ g.readReg .dstAddr = g.dst ∧
    (g.readReg .dim).toNat = 2 ^ 16 * g.height.toNat + g.width.toNat ∧
    (g.readReg .rawR).toNat = g.rawR.toNat ∧ (g.readReg .rawG).toNat = g.rawG.toNat ∧
    (g.readReg .rawB).toNat = g.rawB.toNat ∧ (g.readReg .weightR).toNat = g.wR.toNat ∧
    (g.readReg .weightG).toNat = g.wG.toNat ∧ (g.readReg .weightB).toNat = g.wB.toNat ∧
    (g.readReg .brightness).toNat = g.brBits.toNat ∧ (g.readReg .contrast).toNat = g.cBits.toNat ∧
    g.readReg .statN = g.statN ∧ g.readReg .progress = g.progress ∧ g.readReg .faultAddr = g.faultAddr ∧
    g.s1.toNat = (g.readReg .statS1Lo).toNat + 2 ^ 32 * (g.readReg .statS1Hi).toNat ∧
    g.q.toNat = (g.readReg .statQ0).toNat + 2 ^ 32 * (g.readReg .statQ1).toNat + 2 ^ 64 * (g.readReg .statQ2).toNat +
      2 ^ 96 * (g.readReg .statQ3).toNat)

/-- R130: reserved offsets read 0 and ignore writes, with response OK and no other change. -/
def Obligations.ReservedOffsetsReadZeroIgnoreWrites : Prop :=
  ∀ (s : State) (o : BitVec 12) (d : Word), o.toNat % 4 = 0 →
    (0x060 ≤ o.toNat ∧ o.toNat ≤ 0x0FC ∨ 0x200 ≤ o.toNat) →
    perform (.regRead o 4) s = .next { s with reply := .data .ok 0#32 } ∧
    perform (.regWrite o 4 d) s = .next { s with reply := .written .ok }

/-- R206: a transaction of another size or at an offset that is no multiple of 4 gets ERROR and changes nothing else; a read of
that kind returns 0. -/
def Obligations.OtherAccessesGetError : Prop :=
  ∀ (s : State) (o : BitVec 12) (size : Nat) (d : Word), ¬ (size = 4 ∧ o.toNat % 4 = 0) →
    perform (.regRead o size) s = .next { s with reply := .data .error 0#32 } ∧
    perform (.regWrite o size d) s = .next { s with reply := .written .error }

/-- R110: ID reads its constant in every state, and a write of it changes nothing. -/
def Obligations.IdIsHardwired : Prop :=
  ∀ (s : State) (d : Word),
    perform (.regRead 0x000#12 4) s = .next { s with reply := .data .ok 0x47590100#32 } ∧
    perform (.regWrite 0x000#12 4 d) s = .next { s with reply := .written .ok }

/-- R117 to R123, R129: while BUSY = 0 a write of an operand register or LUT window word puts the named bits of the data into the
register's own field and changes nothing else of GRAYMIX, CL included; a read returns those bits and zeros elsewhere, and every
other register reads as before. -/
def Obligations.IdleOperandWriteReadsBack : Prop :=
  (∀ (s : State) (d : Word), s.reg.busy = false →
    perform (.regWrite 0x010#12 4 d) s = .next { s with reply := .written .ok, reg := { s.reg with src := d } } ∧
    perform (.regWrite 0x014#12 4 d) s = .next { s with reply := .written .ok, reg := { s.reg with dst := d } } ∧
    perform (.regWrite 0x018#12 4 d) s = .next { s with
      reply := .written .ok, reg := { s.reg with width := d.extractLsb' 0 16, height := d.extractLsb' 16 16 } } ∧
    perform (.regWrite 0x01C#12 4 d) s =
      .next { s with reply := .written .ok, reg := { s.reg with rawR := d.extractLsb' 0 16 } } ∧
    perform (.regWrite 0x020#12 4 d) s =
      .next { s with reply := .written .ok, reg := { s.reg with rawG := d.extractLsb' 0 16 } } ∧
    perform (.regWrite 0x024#12 4 d) s =
      .next { s with reply := .written .ok, reg := { s.reg with rawB := d.extractLsb' 0 16 } } ∧
    perform (.regWrite 0x028#12 4 d) s =
      .next { s with reply := .written .ok, reg := { s.reg with wR := d.extractLsb' 0 9 } } ∧
    perform (.regWrite 0x02C#12 4 d) s =
      .next { s with reply := .written .ok, reg := { s.reg with wG := d.extractLsb' 0 9 } } ∧
    perform (.regWrite 0x030#12 4 d) s =
      .next { s with reply := .written .ok, reg := { s.reg with wB := d.extractLsb' 0 9 } } ∧
    perform (.regWrite 0x034#12 4 d) s =
      .next { s with reply := .written .ok, reg := { s.reg with brBits := d.extractLsb' 0 9 } } ∧
    perform (.regWrite 0x038#12 4 d) s =
      .next { s with reply := .written .ok, reg := { s.reg with cBits := d.extractLsb' 0 9 } } ∧
    ∀ j : BitVec 6, ∃ l, perform (.regWrite (Reg.lutw j).offset 4 d) s =
        .next { s with reply := .written .ok, reg := { s.reg with lut := l } } ∧
      ∀ v : Byte, l.entry v =
        if v.toNat / 4 = j.toNat then d.extractLsb' (8 * (v.toNat % 4)) 8 else s.reg.lut.entry v) ∧
  (∀ (s : State) (r : Reg) (d : Word), s.reg.busy = false → r.isOperand = true →
    ∃ t, perform (.regWrite r.offset 4 d) s = .next t ∧ t.reg.readReg r = d &&& r.fieldMask ∧
      (∀ r', r' ≠ r → t.reg.readReg r' = s.reg.readReg r') ∧ t.reg.cl = s.reg.cl ∧
      t = { s with reg := t.reg, reply := .written .ok })

/-- R408: while BUSY = 1 a write of an operand register or LUT window word is ignored and sets WR_IGNORED; CTRL and STATUS writes
take effect; CMD writes are dropped; writes of read-only registers are ignored without setting WR_IGNORED. -/
def Obligations.WritesWhileBusy : Prop :=
  ∀ (s : State) (r : Reg) (d : Word), s.reg.busy = true →
    (r ∈ [.srcAddr, .dstAddr, .dim, .rawR, .rawG, .rawB, .weightR, .weightG, .weightB, .brightness, .contrast] ∨
        (∃ j, r = .lutw j) →
      perform (.regWrite r.offset 4 d) s =
        .next { s with reply := .written .ok, reg := { s.reg with wrIgnored := true } }) ∧
    (r = .ctrl → perform (.regWrite r.offset 4 d) s = .next { s with
      reply := .written .ok, reg := { s.reg with ctrlContrastEn := d.getLsbD 0, ctrlIrqEn := d.getLsbD 1 } }) ∧
    (r = .status → perform (.regWrite r.offset 4 d) s =
      .next { s with reply := .written .ok, reg := s.reg.clearFlags d }) ∧
    (r = .cmd → perform (.regWrite r.offset 4 d) s =
      .next { s with reply := .written .ok, reg := { s.reg with cmdDropped := true } }) ∧
    (r ∈ [.id, .statN, .statS1Lo, .statS1Hi, .statQ0, .statQ1, .statQ2, .statQ3, .progress, .faultAddr] →
      perform (.regWrite r.offset 4 d) s = .next { s with reply := .written .ok }) ∧
    (∀ o : BitVec 12, o.toNat % 4 = 0 → Reg.ofOffset o = none →
      perform (.regWrite o 4 d) s = .next { s with reply := .written .ok })

/-- R129: window word j, at offset 0x100 + 4j, packs entries 4j to 4j + 3, the lowest in bits 7 to 0; while BUSY = 0 a read returns
them and a write sets all four and no other entry; while BUSY = 1 the word reads 0 and a write is ignored and sets WR_IGNORED;
after reset the table is the identity. -/
def Obligations.LutWindowPacksFourEntries : Prop :=
  (∀ j : BitVec 6, (Reg.lutw j).offset.toNat = 0x100 + 4 * j.toNat) ∧
  (∀ (g : Regs) (j : BitVec 6) (k : Nat), k < 4 → g.busy = false →
    (g.readReg (.lutw j)).extractLsb' (8 * k) 8 = g.lut.entry (BitVec.ofNat 8 (4 * j.toNat + k))) ∧
  (∀ (s : State) (j : BitVec 6) (d : Word), perform (.regWrite (Reg.lutw j).offset 4 d) s = .next { s with
    reply := .written .ok
    reg := if s.reg.busy then { s.reg with wrIgnored := true } else { s.reg with lut := s.reg.lut.setWindow j d } }) ∧
  (∀ (l : Lut) (j : BitVec 6) (d : Word) (v : Byte),
    (l.setWindow j d).entry v =
      if v.toNat / 4 = j.toNat then d.extractLsb' (8 * (v.toNat % 4)) 8 else l.entry v) ∧
  (∀ (g : Regs) (j : BitVec 6), g.busy = true → g.readReg (.lutw j) = 0#32) ∧
  (∀ v : Byte, State.reset.reg.lut.entry v = v)

/-- R112: where each field of STATUS stands in the word a read returns; R1000, R114, R115: the codes its fields ERR_CODE, PHASE and
STATS hold. -/
def Obligations.StatusWordFields : Prop :=
  (∀ g : Regs,
    (g.readReg .status).getLsbD 0 = g.busy ∧ (g.readReg .status).getLsbD 1 = g.done ∧
    (g.readReg .status).getLsbD 2 = g.err ∧ (g.readReg .status).getLsbD 3 = g.cmdDropped ∧
    (g.readReg .status).getLsbD 4 = g.wrIgnored ∧ (g.readReg .status).extractLsb' 5 3 = 0#3 ∧
    (g.readReg .status).extractLsb' 8 4 = g.errCode.code ∧ (g.readReg .status).extractLsb' 12 4 = g.op ∧
    (g.readReg .status).extractLsb' 16 4 = g.phase.code ∧ (g.readReg .status).extractLsb' 20 2 = g.stats.code ∧
    (g.readReg .status).extractLsb' 22 10 = 0#10) ∧
  (ErrCode.none.code = 0x0#4 ∧ ErrCode.illegalCmd.code = 0x1#4 ∧ ErrCode.badDim.code = 0x2#4 ∧
    ErrCode.badWeights.code = 0x3#4 ∧ ErrCode.addrRange.code = 0x4#4 ∧ ErrCode.overlap.code = 0x5#4 ∧
    ErrCode.noStats.code = 0x6#4 ∧ ErrCode.busError.code = 0x7#4 ∧ ErrCode.contrastFail.code = 0x8#4) ∧
  (Phase.none.code = 0x0#4 ∧ Phase.normalize.code = 0x1#4 ∧ Phase.mix.code = 0x2#4 ∧ Phase.sum.code = 0x3#4 ∧
    Phase.var.code = 0x4#4 ∧ Phase.lutBuild.code = 0x5#4 ∧ Phase.remap.code = 0x6#4) ∧
  (Stats.none.code = 0#2 ∧ Stats.mean.code = 1#2 ∧ Stats.full.code = 2#2)

/-- R112: a STATUS write clears the flags whose bits are 1, ERR_CODE with ERR, and nothing else, while idle or busy. -/
def Obligations.StatusWriteClearsFlags : Prop :=
  ∀ (s : State) (d : Word), ∃ t, perform (.regWrite 0x008#12 4 d) s = .next t ∧
    (t.reg.done = true ↔ s.reg.done = true ∧ d.getLsbD 1 = false) ∧
    (t.reg.err = true ↔ s.reg.err = true ∧ d.getLsbD 2 = false) ∧
    (t.reg.cmdDropped = true ↔ s.reg.cmdDropped = true ∧ d.getLsbD 3 = false) ∧
    (t.reg.wrIgnored = true ↔ s.reg.wrIgnored = true ∧ d.getLsbD 4 = false) ∧
    (d.getLsbD 2 = true → t.reg.errCode = .none) ∧ (d.getLsbD 2 = false → t.reg.errCode = s.reg.errCode) ∧
    t = { s with
      reply := .written .ok
      reg := { s.reg with
        done := t.reg.done, err := t.reg.err, errCode := t.reg.errCode, cmdDropped := t.reg.cmdDropped,
        wrIgnored := t.reg.wrIgnored } }

/-- R111: a CTRL write sets CONTRAST_EN and IRQ_EN even while BUSY = 1, and changes nothing else, CL included; CTRL reads back bits
1 and 0. -/
def Obligations.CtrlWriteActsAlways : Prop :=
  ∀ (s : State) (d : Word), ∃ t, perform (.regWrite 0x004#12 4 d) s = .next t ∧
    t = { s with
      reply := .written .ok, reg := { s.reg with ctrlContrastEn := d.getLsbD 0, ctrlIrqEn := d.getLsbD 1 } } ∧
    t.reg.readReg .ctrl = d &&& 0x3#32

/-- R1010: IRQ is IRQ_EN and (DONE or ERR); an accepted start and a STATUS write of DONE and ERR drop it, an acceptance error and
a completion raise it if IRQ_EN = 1. -/
def Obligations.IrqFollowsDoneAndErr : Prop :=
  (∀ g : Regs, g.irq = true ↔ g.ctrlIrqEn = true ∧ (g.done = true ∨ g.err = true)) ∧
  (∀ (s t : State) (i : Instr), s.reg.busy = false → exec i s = .next t →
    t.reg.irq = (s.reg.ctrlIrqEn && decide (firstFailure i s.reg ≠ .none))) ∧
  (∀ (s t : State), perform (.regWrite 0x008#12 4 0x6#32) s = .next t → t.reg.irq = false) ∧
  (∀ (s t : State), s.reg.busy = true → engineStep s = .next t → t.reg.busy = false → t.reg.irq = s.reg.ctrlIrqEn)

/-! ### Arrival and acceptance -/

/-- R401: a command that arrives while BUSY = 1 is dropped: CMD_DROPPED is set and nothing else changes, whatever the word. -/
def Obligations.CommandDroppedWhileBusy : Prop :=
  ∀ s : State, s.reg.busy = true →
    (∀ i : Instr, exec i s = .next { s with reg := { s.reg with cmdDropped := true } }) ∧
    (∀ c : Word, command c s = .next { s with reg := { s.reg with cmdDropped := true } })

/-- R305: a word with an opcode of 8 or above or a reserved bit set that arrives while BUSY = 0 is recorded as ILLEGAL_CMD, does not
start the engine, and changes no state but STATUS, PROGRESS and FAULT_ADDR; no word but 0 acts as NOP. -/
def Obligations.ReservedWordIsIllegalCmd : Prop :=
  (∀ (s : State) (c : Word), s.reg.busy = false → (8 ≤ c.toNat % 16 ∨ 16 ≤ c.toNat) →
    command c s = .next { s with reg := s.reg.rejected (c.extractLsb' 0 4) .illegalCmd }) ∧
  (∀ c : Word, decode c = .ok .nop ↔ c = 0#32)

/-- R403, with the causes of R1000 and the order of R1001: a command that fails a check is ended with the code of the first check that
fails, in the order ILLEGAL_CMD, NO_STATS, BAD_DIM, BAD_WEIGHTS, ADDR_RANGE, OVERLAP; no other state changes than that of R402, and
the engine takes no step for it. -/
def Obligations.FirstFailingCheckIsReported : Prop :=
  ∀ s : State, s.reg.busy = false →
    (∀ i : Instr, firstFailure i s.reg ≠ .none →
      ∃ t, exec i s = .next t ∧ t = { s with reg := s.reg.rejected (opcodeFor i) (firstFailure i s.reg) } ∧
        engineStep t = .next t) ∧
    (∀ c : Word, wellFormedWord c = false →
      ∃ t, command c s = .next t ∧ t = { s with reg := s.reg.rejected (opcodeOf c) .illegalCmd } ∧ engineStep t = .next t)

/-- R402, R404: a command that passes its checks starts: BUSY is set, the old record is cleared, OP and PHASE are the command's, the
start actions of its first phase run, and nothing else changes; no memory is accessed. -/
def Obligations.PassingCommandStarts : Prop :=
  ∀ (s : State) (i : Instr), s.reg.busy = false → firstFailure i s.reg = .none → exec i s = .next (s.started i)

/-- R1002, R141, R140: the frame of a command's arrival, in every state: no memory, no operand register, no weight, no table entry
changes; S1 and STAT_N change only for SUM, Q and STATS only for SUM and VAR, CL only for RUN. -/
def Obligations.ArrivalFrame : Prop :=
  ∀ (s t : State) (i : Instr), exec i s = .next t →
    t.plat = s.plat ∧ t.inputs = s.inputs ∧ t.reply = s.reply ∧
    t.reg.src = s.reg.src ∧ t.reg.dst = s.reg.dst ∧ t.reg.width = s.reg.width ∧ t.reg.height = s.reg.height ∧
    t.reg.rawR = s.reg.rawR ∧ t.reg.rawG = s.reg.rawG ∧ t.reg.rawB = s.reg.rawB ∧
    t.reg.wR = s.reg.wR ∧ t.reg.wG = s.reg.wG ∧ t.reg.wB = s.reg.wB ∧
    t.reg.brBits = s.reg.brBits ∧ t.reg.cBits = s.reg.cBits ∧ t.reg.lut = s.reg.lut ∧
    t.reg.ctrlContrastEn = s.reg.ctrlContrastEn ∧ t.reg.ctrlIrqEn = s.reg.ctrlIrqEn ∧
    t.reg.wrIgnored = s.reg.wrIgnored ∧ (s.reg.busy = false → t.reg.cmdDropped = s.reg.cmdDropped) ∧
    (i ≠ .sum → t.reg.statN = s.reg.statN ∧ t.reg.s1 = s.reg.s1) ∧
    (i ≠ .sum ∧ i ≠ .var → t.reg.q = s.reg.q ∧ t.reg.stats = s.reg.stats) ∧
    (i ≠ .run → t.reg.cl = s.reg.cl)

/-! ### What each command does, from its arrival to its end -/

/-- R410: NOP starts, takes one engine step that does nothing, and completes with PROGRESS = 1. -/
def Obligations.NopCompletes : Prop :=
  ∀ s : State, s.reg.busy = false →
    exec .nop s = .next (s.started .nop) ∧
    engineRun 1 (s.started .nop) = .next { s with
      reg := { s.reg.started .nop with busy := false, done := true, progress := 1#32 }, plat := s.plat.settle }

/-- R510, R503: NORMALIZE starts if the raw weights do not sum to 0, takes one engine step, leaves the normalised weights in
WEIGHT_R, WEIGHT_G and WEIGHT_B, and completes. -/
def Obligations.NormalizeCompletes : Prop :=
  ∀ s : State, s.reg.busy = false → s.reg.rawSum ≠ 0 →
    exec .normalize s = .next (s.started .normalize) ∧
    ∃ u, engineRun 1 (s.started .normalize) = .next u ∧
      u = { s with
        plat := s.plat.settle
        reg := { s.reg.started .normalize with
          busy := false, done := true, progress := 1#32, wR := u.reg.wR, wG := u.reg.wG, wB := u.reg.wB } } ∧
      u.reg.wR.toNat = s.reg.weight .red ∧ u.reg.wG.toNat = s.reg.weight .green ∧ u.reg.wB.toNat = s.reg.weight .blue

/-- R603, R204: MIX starts if its checks pass; in N engine steps it writes to byte i of the destination region the clamped and
brightness-adjusted gray of pixel i, changes no other byte and no register beyond the lifecycle's, and completes. -/
def Obligations.MixCompletes : Prop :=
  ∀ s : State, s.reg.busy = false → firstFailure .mix s.reg = .none → s.plat.mem.wf →
    s.plat.grants .read s.reg.src.toNat (3 * s.reg.pixels) → s.plat.grants .write s.reg.dst.toNat s.reg.pixels →
    exec .mix s = .next (s.started .mix) ∧
    ∃ u, engineRun s.reg.pixels (s.started .mix) = .next u ∧
      u.reg = { s.reg.started .mix with busy := false, done := true, progress := BitVec.ofNat 32 s.reg.pixels } ∧
      (∀ i, i < s.reg.pixels → u.plat.mem.regionByte s.reg.dst.toNat i = s.reg.mixOutput s.plat.mem i) ∧
      (∀ a : Word, inRegion s.reg.dst.toNat s.reg.pixels a.toNat = false → u.plat.mem.read a = s.plat.mem.read a) ∧
      u.inputs = s.inputs ∧ u.reply = s.reply

/-- R710: SUM starts if its checks pass; in N engine steps it leaves S1 the sum of the destination bytes, STAT_N = N, Q = 0 and
STATS = 1, writes no memory, and completes. -/
def Obligations.SumCompletes : Prop :=
  ∀ s : State, s.reg.busy = false → firstFailure .sum s.reg = .none →
    s.plat.grants .read s.reg.dst.toNat s.reg.pixels →
    exec .sum s = .next (s.started .sum) ∧
    ∃ u, engineRun s.reg.pixels (s.started .sum) = .next u ∧
      u = { s with
        plat := u.plat
        reg := { s.reg.started .sum with
          busy := false, done := true, progress := BitVec.ofNat 32 s.reg.pixels, stats := .mean, s1 := u.reg.s1 } } ∧
      u.reg.s1.toNat = s.plat.mem.sampleSum s.reg.dst.toNat s.reg.pixels ∧
      u.reg.statN.toNat = s.reg.pixels ∧ u.reg.q = 0#128 ∧ u.plat.mem = s.plat.mem

/-- R720, R701: VAR starts if its checks pass; in STAT_N engine steps it leaves Q the sum of (STAT_N·v - S1)^2 over the first STAT_N
destination bytes and STATS = 2, writes no memory, changes neither STAT_N nor S1, and completes. -/
def Obligations.VarCompletes : Prop :=
  ∀ s : State, s.reg.busy = false → firstFailure .var s.reg = .none → s.reg.StatsOk →
    s.plat.grants .read s.reg.dst.toNat s.reg.statN.toNat →
    exec .var s = .next (s.started .var) ∧
    ∃ u, engineRun s.reg.statN.toNat (s.started .var) = .next u ∧
      u = { s with
        plat := u.plat
        reg := { s.reg.started .var with
          busy := false, done := true, progress := s.reg.statN, stats := .full, q := u.reg.q } } ∧
      u.reg.q.toNat =
        s.plat.mem.deviationSum s.reg.dst.toNat s.reg.statN.toNat s.reg.statN.toNat s.reg.s1.toNat ∧
      u.plat.mem = s.plat.mem

/-- R810: LUT_BUILD starts if STATS = 2; in 256 engine steps it sets every table entry v to L(v) of the statistics registers and
CONTRAST, changes no other register beyond the lifecycle's and nothing of the platform, and completes. -/
def Obligations.LutBuildCompletes : Prop :=
  ∀ s : State, s.reg.busy = false → s.reg.stats = .full →
    exec .lutBuild s = .next (s.started .lutBuild) ∧
    ∃ u, engineRun 256 (s.started .lutBuild) = .next u ∧
      u = { s with
        plat := s.plat.settle
        reg := { s.reg.started .lutBuild with busy := false, done := true, progress := 256#32, lut := u.reg.lut } } ∧
      ∀ v : Byte, u.reg.lut.entry v = BitVec.ofNat 8
        (contrastEntry s.reg.statN.toNat s.reg.s1.toNat s.reg.q.toNat s.reg.contrast v.toNat)

/-- R811: REMAP starts if its checks pass; in N engine steps it replaces each byte v of the destination region by LUT[v], changes no
other byte and no register beyond the lifecycle's, and completes. -/
def Obligations.RemapCompletes : Prop :=
  ∀ s : State, s.reg.busy = false → firstFailure .remap s.reg = .none → s.plat.mem.wf →
    s.plat.grants .read s.reg.dst.toNat s.reg.pixels → s.plat.grants .write s.reg.dst.toNat s.reg.pixels →
    exec .remap s = .next (s.started .remap) ∧
    ∃ u, engineRun s.reg.pixels (s.started .remap) = .next u ∧
      u.reg = { s.reg.started .remap with busy := false, done := true, progress := BitVec.ofNat 32 s.reg.pixels } ∧
      (∀ i, i < s.reg.pixels → u.plat.mem.regionByte s.reg.dst.toNat i =
        s.reg.lut.entry (s.plat.mem.regionByte s.reg.dst.toNat i)) ∧
      (∀ a : Word, inRegion s.reg.dst.toNat s.reg.pixels a.toNat = false → u.plat.mem.read a = s.plat.mem.read a) ∧
      u.inputs = s.inputs ∧ u.reply = s.reply

/-- R900, R901: RUN with contrast unset normalises the weights, writes the gray of every pixel under them, leaves the statistics,
STATS and the table as before, and completes in 1 + N engine steps. -/
def Obligations.RunWithContrastUnsetCompletes : Prop :=
  ∀ s : State, s.reg.busy = false → s.reg.ctrlContrastEn = false → firstFailure .run s.reg = .none → s.plat.mem.wf →
    s.plat.grants .read s.reg.src.toNat (3 * s.reg.pixels) → s.plat.grants .write s.reg.dst.toNat s.reg.pixels →
    exec .run s = .next (s.started .run) ∧
    ∃ u, engineRun (1 + s.reg.pixels) (s.started .run) = .next u ∧
      u.reg = { s.reg.normalized.started .run with
        busy := false, done := true, phase := .mix, progress := BitVec.ofNat 32 s.reg.pixels } ∧
      (∀ i, i < s.reg.pixels →
        u.plat.mem.regionByte s.reg.dst.toNat i = s.reg.normalized.mixOutput s.plat.mem i) ∧
      (∀ a : Word, inRegion s.reg.dst.toNat s.reg.pixels a.toNat = false → u.plat.mem.read a = s.plat.mem.read a) ∧
      u.inputs = s.inputs ∧ u.reply = s.reply

/-- R900, R901: RUN with contrast set completes in 1 + 4N + 256 engine steps. WEIGHT_* are the normalised weights, STAT_N, S1 and Q are
the statistics of the MIX output, the table is L of those statistics, and each destination byte is the table's entry of the MIX
output byte. -/
def Obligations.RunWithContrastSetCompletes : Prop :=
  ∀ s : State, s.reg.busy = false → s.reg.ctrlContrastEn = true → firstFailure .run s.reg = .none → s.plat.mem.wf →
    s.plat.grants .read s.reg.src.toNat (3 * s.reg.pixels) → s.plat.grants .read s.reg.dst.toNat s.reg.pixels →
    s.plat.grants .write s.reg.dst.toNat s.reg.pixels →
    exec .run s = .next (s.started .run) ∧
    ∃ u, engineRun (1 + 4 * s.reg.pixels + 256) (s.started .run) = .next u ∧
      u.reg = { s.reg.normalized.started .run with
        busy := false, done := true, phase := .remap, progress := BitVec.ofNat 32 s.reg.pixels, stats := .full
        statN := u.reg.statN, s1 := u.reg.s1, q := u.reg.q, lut := u.reg.lut } ∧
      u.reg.statN.toNat = s.reg.pixels ∧
      u.reg.s1.toNat = ((List.range s.reg.pixels).map fun i => (s.reg.normalized.mixOutput s.plat.mem i).toNat).sum ∧
      u.reg.q.toNat = ((List.range s.reg.pixels).map fun i =>
        squareOfDeviation s.reg.pixels u.reg.s1.toNat (s.reg.normalized.mixOutput s.plat.mem i).toNat).sum ∧
      (∀ v : Byte, u.reg.lut.entry v = BitVec.ofNat 8
        (contrastEntry s.reg.pixels u.reg.s1.toNat u.reg.q.toNat s.reg.contrast v.toNat)) ∧
      (∀ i, i < s.reg.pixels → u.plat.mem.regionByte s.reg.dst.toNat i =
        u.reg.lut.entry (s.reg.normalized.mixOutput s.plat.mem i)) ∧
      (∀ a : Word, inRegion s.reg.dst.toNat s.reg.pixels a.toNat = false → u.plat.mem.read a = s.plat.mem.read a) ∧
      u.inputs = s.inputs ∧ u.reply = s.reply

/-- R905: a successful RUN with CL = 1 leaves the same memory, weights, statistics, STATS and table as the six commands NORMALIZE,
MIX, SUM, VAR, LUT_BUILD and REMAP issued one after another, each waited for; with contrast unset, as NORMALIZE then MIX. -/
def Obligations.RunEqualsItsParts : Prop :=
  ∀ s u : State, s.reg.busy = false → firstFailure .run s.reg = .none → s.plat.mem.wf →
    s.plat.grants .read s.reg.src.toNat (3 * s.reg.pixels) → s.plat.grants .write s.reg.dst.toNat s.reg.pixels →
    (s.reg.ctrlContrastEn = true → s.plat.grants .read s.reg.dst.toNat s.reg.pixels) →
    (s.reg.ctrlContrastEn = true → issue .run (1 + 4 * s.reg.pixels + 256) s = .next u →
      ∃ s1 s2 s3 s4 s5 s6,
        issue .normalize 1 s = .next s1 ∧ issue .mix s.reg.pixels s1 = .next s2 ∧
        issue .sum s.reg.pixels s2 = .next s3 ∧ issue .var s.reg.pixels s3 = .next s4 ∧
        issue .lutBuild 256 s4 = .next s5 ∧ issue .remap s.reg.pixels s5 = .next s6 ∧
        s6.reg.busy = false ∧ s6.plat.mem = u.plat.mem ∧
        s6.reg = { u.reg with op := opcodeFor .remap, cl := s.reg.cl }) ∧
    (s.reg.ctrlContrastEn = false → issue .run (1 + s.reg.pixels) s = .next u →
      ∃ s1 s2,
        issue .normalize 1 s = .next s1 ∧ issue .mix s.reg.pixels s1 = .next s2 ∧
        s2.reg.busy = false ∧ s2.plat.mem = u.plat.mem ∧
        s2.reg = { u.reg with op := opcodeFor .mix, cl := s.reg.cl })

/-- R814: a RUN with contrast set, on an image whose grays after brightness all equal c, leaves S1 = N·c, Q = 0, every table entry c and
every destination byte c, the MIX output, whatever CONTRAST is, and ends without error. -/
def Obligations.UniformImageKeepsMixOutput : Prop :=
  ∀ (s : State) (c : Byte), s.reg.busy = false → s.reg.ctrlContrastEn = true → firstFailure .run s.reg = .none →
    s.plat.mem.wf →
    s.plat.grants .read s.reg.src.toNat (3 * s.reg.pixels) → s.plat.grants .read s.reg.dst.toNat s.reg.pixels →
    s.plat.grants .write s.reg.dst.toNat s.reg.pixels →
    (∀ i, i < s.reg.pixels → s.reg.normalized.mixOutput s.plat.mem i = c) →
    ∃ u, issue .run (1 + 4 * s.reg.pixels + 256) s = .next u ∧ u.reg.done = true ∧ u.reg.err = false ∧
      u.reg.s1.toNat = s.reg.pixels * c.toNat ∧ u.reg.q = 0#128 ∧ (∀ v, u.reg.lut.entry v = c) ∧
      ∀ i, i < s.reg.pixels → u.plat.mem.regionByte s.reg.dst.toNat i = c

/-! ### Bus errors -/

/-- R407, R1002: a read of a work unit that gets buserr ends the command at once: FAULT_ADDR is its address, ERR = 1, ERR_CODE = 7,
BUSY = 0; PROGRESS, PHASE and every other register stay, no memory byte changes. For each of the three reads of MIX and for the
read of SUM, VAR and REMAP. -/
def Obligations.ReadBusErrorIsPrecise : Prop :=
  ∀ (s : State) (a : Nat), s.reg.busy = true → a < 2 ^ 32 →
    (s.reg.phase = .mix ∧ s.reg.src.toNat + 3 * s.reg.progress.toNat ≤ a ∧
        a < s.reg.src.toNat + 3 * s.reg.progress.toNat + 3 ∧
        s.plat.serves .read (s.reg.src.toNat + 3 * s.reg.progress.toNat)
          (a - (s.reg.src.toNat + 3 * s.reg.progress.toNat)) ∨
      s.reg.phase ∈ [.sum, .var, .remap] ∧ a = s.reg.dst.toNat + s.reg.progress.toNat) →
    s.plat.busErr .read (BitVec.ofNat 32 a) = true →
    ∃ t, engineStep s = .next t ∧
      t.reg = { s.reg with faultAddr := BitVec.ofNat 32 a, err := true, errCode := .busError, busy := false } ∧
      t.plat.mem = s.plat.mem ∧ t.inputs = s.inputs ∧ t.reply = s.reply

/-- R407, R1002, R201: a write of a MIX or REMAP unit that gets buserr ends the command at once in the same way; only the byte of the
failed write can have changed (it is any value, log entry 8). -/
def Obligations.WriteBusErrorIsPrecise : Prop :=
  ∀ (s : State) (a : Nat), s.reg.busy = true → a < 2 ^ 32 → a = s.reg.dst.toNat + s.reg.progress.toNat →
    (s.reg.phase = .mix ∧ s.reg.src.toNat + 3 * s.reg.progress.toNat + 3 ≤ 2 ^ 32 ∧
        s.plat.serves .read (s.reg.src.toNat + 3 * s.reg.progress.toNat) 3 ∨
      s.reg.phase = .remap ∧ s.plat.busErr .read (BitVec.ofNat 32 a) = false) →
    s.plat.busErr .write (BitVec.ofNat 32 a) = true →
    ∃ t, engineStep s = .next t ∧
      t.reg = { s.reg with faultAddr := BitVec.ofNat 32 a, err := true, errCode := .busError, busy := false } ∧
      (∀ b : Word, b ≠ BitVec.ofNat 32 a → t.plat.mem.read b = s.plat.mem.read b) ∧
      t.inputs = s.inputs ∧ t.reply = s.reply

/-- R603, R407: a MIX whose unit i meets its first bus error on a source byte of pixel i has written pixels 0 to i - 1 and no other
byte, and ends with PROGRESS = i and FAULT_ADDR that byte's address. -/
def Obligations.MixBusErrorKeepsEarlierPixels : Prop :=
  ∀ (s : State) (i k : Nat), s.reg.busy = false → firstFailure .mix s.reg = .none → s.plat.mem.wf →
    i < s.reg.pixels → k < 3 →
    s.plat.serves .read s.reg.src.toNat (3 * i + k) → s.plat.uncontested s.reg.src.toNat (3 * s.reg.pixels) →
    s.plat.serves .write s.reg.dst.toNat i → s.plat.uncontested s.reg.dst.toNat s.reg.pixels →
    s.plat.busErr .read (BitVec.ofNat 32 (s.reg.src.toNat + 3 * i + k)) = true →
    ∃ u, issue .mix (i + 1) s = .next u ∧
      u.reg = { s.reg.started .mix with
        busy := false, err := true, errCode := .busError, progress := BitVec.ofNat 32 i
        faultAddr := BitVec.ofNat 32 (s.reg.src.toNat + 3 * i + k) } ∧
      (∀ j, j < i → u.plat.mem.regionByte s.reg.dst.toNat j = s.reg.mixOutput s.plat.mem j) ∧
      (∀ a : Word, inRegion s.reg.dst.toNat i a.toNat = false → u.plat.mem.read a = s.plat.mem.read a)

/-- R710, R407: a SUM whose unit i gets buserr keeps STAT_N = N, S1 the sum of the first i bytes, Q = 0 and STATS = 0. -/
def Obligations.SumBusErrorKeepsPartialSum : Prop :=
  ∀ (s : State) (i : Nat), s.reg.busy = false → firstFailure .sum s.reg = .none → i < s.reg.pixels →
    s.plat.serves .read s.reg.dst.toNat i → s.plat.uncontested s.reg.dst.toNat s.reg.pixels →
    s.plat.busErr .read (BitVec.ofNat 32 (s.reg.dst.toNat + i)) = true →
    ∃ u, issue .sum (i + 1) s = .next u ∧
      u.reg = { s.reg.started .sum with
        busy := false, err := true, errCode := .busError, progress := BitVec.ofNat 32 i
        faultAddr := BitVec.ofNat 32 (s.reg.dst.toNat + i), s1 := u.reg.s1 } ∧
      u.reg.s1.toNat = s.plat.mem.sampleSum s.reg.dst.toNat i ∧ u.plat.mem = s.plat.mem

/-! ### Invariants that every step keeps -/

/-- R1101: what reset leaves, register by register, as the host reads it. -/
def Obligations.ResetRegisterValues : Prop :=
  State.reset.reg.readReg .id = 0x47590100#32 ∧
  (∀ r : Reg, r ≠ .id → (∀ j, r ≠ .lutw j) → State.reset.reg.readReg r = 0#32) ∧
  (∀ v : Byte, State.reset.reg.lut.entry v = v) ∧
  State.reset.reg.readReg (.lutw 0#6) = 0x03020100#32 ∧ State.reset.reg.readReg (.lutw 63#6) = 0xFFFEFDFC#32 ∧
  State.reset.reg.cl = false ∧ State.reset.reg.irq = false

/-- The state after reset meets every invariant of this file. For the registers that is R1101 with R112 and R113; that memory is
canonical, that no race or cache line is open and that no byte is raced is the model's choice of the platform a run starts with
and its own bookkeeping, not the spec's (DESIGN CHOICE, log entries 3, 5 and 7; DEDUCED, log entries 4 and 6). -/
def Obligations.ResetMeetsInvariants : Prop := State.reset.Ok ∧ State.reset.RacedDrawn

/-- R113, with R112's invariant and R804: in the state after reset and after every step from a state that has it, BUSY, DONE and ERR
exclude each other, ERR_CODE is not 0 exactly when ERR = 1, and code 8 is never recorded. -/
def Obligations.StatusFlagsStayExclusive : Prop :=
  State.reset.reg.StatusOk ∧ ∀ s t : State, s.reg.StatusOk → step s = .next t → t.reg.StatusOk

/-- R405, R213, R704: every step keeps the engine's invariant and the bounds of the statistics: while a command runs, PROGRESS is
below the unit count, its regions are in range, and S1 and Q stay within 255 and 65025·STAT_N^2 per sample. -/
def Obligations.EngineAndStatisticsStayInBounds : Prop :=
  ∀ s t : State, s.reg.EngineOk → s.reg.StatsOk → step s = .next t → t.reg.EngineOk ∧ t.reg.StatsOk

/-- R126: within those bounds Q < 2^112 and S1 < 2^40 - 2^32, so no accumulator overflows and STAT_Q3 bits 31 to 16 read 0. -/
def Obligations.AccumulatorsNeverOverflow : Prop :=
  ∀ g : Regs, g.StatsOk → g.q.toNat < 2 ^ 112 ∧ g.s1.toNat ≤ 1095183237375 ∧ (g.readReg .statQ3).toNat < 2 ^ 16

/-- The model's own form of memory and its bookkeeping of races (log entries 5, 6 and 7): every step keeps memory canonical, and races
no longer than the command. -/
def Obligations.MemoryStaysCanonical : Prop :=
  ∀ s t : State, s.plat.mem.wf → s.RacesOk → step s = .next t → t.plat.mem.wf ∧ t.RacesOk

/-- From a state with the engine's and the statistics' invariants no step faults or refuses: every event and every unit has a next state. -/
def Obligations.EveryStepHasNextState : Prop :=
  ∀ s : State, s.reg.EngineOk → s.reg.StatsOk → ∃ t, step s = .next t

/-- R1130, R1131, R411: every running command ends: from a state with the engine's and the statistics' invariants the engine reaches
BUSY = 0 within the step count of the command in OP, with DONE or ERR set; a command that starts and ends with DONE takes exactly
that many steps; and the counts are those of R1130. The turns are the engine's own; that it gets them is weak fairness (log entry
16). -/
def Obligations.EveryCommandEnds : Prop :=
  (∀ s : State, s.reg.busy = true → s.reg.StatusOk → s.reg.EngineOk → s.reg.StatsOk →
    ∃ t, engineRun s.reg.commandSteps s = .next t ∧ t.reg.busy = false ∧ (t.reg.done = true ∨ t.reg.err = true)) ∧
  (∀ (s : State) (i : Instr), s.reg.busy = false → firstFailure i s.reg = .none → s.reg.StatsOk →
    ∃ t, engineRun (s.started i).reg.commandSteps (s.started i) = .next t ∧ t.reg.busy = false ∧
      (t.reg.done = true ∨ t.reg.err = true) ∧
      (t.reg.done = true → ∀ m, m < (s.started i).reg.commandSteps →
        ∃ u, engineRun m (s.started i) = .next u ∧ u.reg.busy = true)) ∧
  (∀ s : State,
    (s.started .nop).reg.commandSteps = 1 ∧ (s.started .normalize).reg.commandSteps = 1 ∧
    (s.started .mix).reg.commandSteps = s.reg.pixels ∧ (s.started .sum).reg.commandSteps = s.reg.pixels ∧
    (s.started .var).reg.commandSteps = s.reg.statN.toNat ∧ (s.started .lutBuild).reg.commandSteps = 256 ∧
    (s.started .remap).reg.commandSteps = s.reg.pixels ∧
    (s.started .run).reg.commandSteps =
      if s.reg.ctrlContrastEn then 1 + 4 * s.reg.pixels + 256 else 1 + s.reg.pixels)

/-! ### Frames of the engine's turns and of the host's events -/

/-- R227, R408: while a command runs, no step but a reset event changes an operand register, OP or CL. -/
def Obligations.OperandsStableWhileBusy : Prop :=
  ∀ s t : State, s.reg.busy = true → s.inputs.head? ≠ some .reset → step s = .next t →
    t.reg.src = s.reg.src ∧ t.reg.dst = s.reg.dst ∧ t.reg.width = s.reg.width ∧ t.reg.height = s.reg.height ∧
    t.reg.rawR = s.reg.rawR ∧ t.reg.rawG = s.reg.rawG ∧ t.reg.rawB = s.reg.rawB ∧
    t.reg.brBits = s.reg.brBits ∧ t.reg.cBits = s.reg.cBits ∧ t.reg.op = s.reg.op ∧ t.reg.cl = s.reg.cl ∧
    (s.reg.phase ≠ .normalize → t.reg.wR = s.reg.wR ∧ t.reg.wG = s.reg.wG ∧ t.reg.wB = s.reg.wB) ∧
    (s.reg.phase ≠ .lutBuild → t.reg.lut = s.reg.lut)

/-- R141, R140, R121, R203, R406, R407: the frame of one turn of the engine. An idle turn changes nothing. Weights change only in
NORMALIZE, the table only in LUT_BUILD, STAT_N only where SUM begins and then to N, S1 only in SUM or where it begins, Q and STATS
only in SUM and VAR or where they begin; PHASE only for RUN; DONE and BUSY only where the command ends; FAULT_ADDR, ERR and
ERR_CODE only in a turn that ends in BUS_ERROR, which changes no other register but BUSY; memory only in MIX and REMAP, and there
only the byte at DST_ADDR + PROGRESS; of the platform's answers nothing, and races end only with the command. -/
def Obligations.EngineTurnFrame : Prop :=
  ∀ s t : State, engineStep s = .next t →
    (s.reg.busy = false → t = s) ∧ t.inputs = s.inputs ∧ t.reply = s.reply ∧
    t.reg.ctrlContrastEn = s.reg.ctrlContrastEn ∧ t.reg.ctrlIrqEn = s.reg.ctrlIrqEn ∧
    t.reg.cmdDropped = s.reg.cmdDropped ∧ t.reg.wrIgnored = s.reg.wrIgnored ∧ t.reg.op = s.reg.op ∧
    t.reg.src = s.reg.src ∧ t.reg.dst = s.reg.dst ∧ t.reg.width = s.reg.width ∧ t.reg.height = s.reg.height ∧
    t.reg.rawR = s.reg.rawR ∧ t.reg.rawG = s.reg.rawG ∧ t.reg.rawB = s.reg.rawB ∧
    t.reg.brBits = s.reg.brBits ∧ t.reg.cBits = s.reg.cBits ∧ t.reg.cl = s.reg.cl ∧
    (s.reg.phase ≠ .normalize → t.reg.wR = s.reg.wR ∧ t.reg.wG = s.reg.wG ∧ t.reg.wB = s.reg.wB) ∧
    (s.reg.phase ≠ .lutBuild → t.reg.lut = s.reg.lut) ∧
    (s.reg.phase = .sum ∨ t.reg.phase ≠ .sum → t.reg.statN = s.reg.statN) ∧
    (s.reg.phase ≠ .sum ∧ t.reg.phase = .sum → t.reg.statN.toNat = s.reg.pixels ∧ t.reg.s1 = 0#40) ∧
    (s.reg.phase ≠ .sum ∧ t.reg.phase ≠ .sum → t.reg.s1 = s.reg.s1) ∧
    (s.reg.phase ≠ .sum ∧ s.reg.phase ≠ .var ∧ t.reg.phase ≠ .sum ∧ t.reg.phase ≠ .var →
      t.reg.q = s.reg.q ∧ t.reg.stats = s.reg.stats) ∧
    (t.reg.phase ≠ s.reg.phase → s.reg.op = 7#4) ∧
    (t.reg.done = s.reg.done ∨ s.reg.busy = true ∧ t.reg.busy = false ∧ t.reg.done = true) ∧
    (t.reg.busy = s.reg.busy ∨ t.reg.busy = false ∧ (t.reg.done = true ∨ t.reg.err = true)) ∧
    (t.reg.faultAddr = s.reg.faultAddr ∧ t.reg.err = s.reg.err ∧ t.reg.errCode = s.reg.errCode ∨
      t.reg = { s.reg with faultAddr := t.reg.faultAddr, err := true, errCode := .busError, busy := false }) ∧
    (s.reg.phase ≠ .mix ∧ s.reg.phase ≠ .remap → t.plat.mem = s.plat.mem) ∧
    (∀ b : Word, b ≠ BitVec.ofNat 32 (s.reg.dst.toNat + s.reg.progress.toNat) →
      t.plat.mem.read b = s.plat.mem.read b) ∧
    t.plat.busErrs = s.plat.busErrs ∧ t.plat.coherent = s.plat.coherent ∧ t.plat.unclean = s.plat.unclean ∧
    (t.plat.raced = s.plat.raced ∨ t.reg.busy = false ∧ t.plat.raced = [])

/-- R202, R1140: the frame of the host's events: a register transaction changes nothing of the platform; a host memory access changes
no register, and a write at most its own byte; a read changes no byte. -/
def Obligations.HostEventFrame : Prop :=
  (∀ (s t : State) (o : BitVec 12) (size : Nat) (d : Word), perform (.regWrite o size d) s = .next t → t.plat = s.plat) ∧
  (∀ (s t : State) (o : BitVec 12) (size : Nat), perform (.regRead o size) s = .next t →
    t.plat = s.plat ∧ t.reg = s.reg) ∧
  (∀ (s t : State) (a b : Word) (v : Byte), perform (.memWrite a v) s = .next t →
    t.reg = s.reg ∧ (b ≠ a → t.plat.mem.read b = s.plat.mem.read b)) ∧
  (∀ (s t : State) (a : Word), perform (.memRead a) s = .next t → t.reg = s.reg ∧ t.plat.mem = s.plat.mem)

/-- R1100 to R1102: the reset event puts every register into its reset value and changes no byte of memory, but that each byte of the
destination region of a command that was running is any value (a free value for each, the model's rendering: log entries 4
and 9). -/
def Obligations.ResetEventEffect : Prop :=
  ∀ s : State, ∃ t, perform .reset s = .next t ∧ t.reg = Regs.reset ∧
    (s.reg.busy = false → t.plat.mem = s.plat.mem) ∧
    (∀ a : Word, inRegion s.reg.dst.toNat s.reg.dstLen a.toNat = false →
      s.reg.dst.toNat + s.reg.dstLen ≤ 2 ^ 32 → t.plat.mem.read a = s.plat.mem.read a) ∧
    (s.plat.mem.wf → s.reg.busy = true → s.reg.dst.toNat + s.reg.dstLen ≤ 2 ^ 32 →
      ∀ i, i < s.reg.dstLen →
        t.plat.mem.regionByte s.reg.dst.toNat i = Config.freeByte (s.plat.draws + i))

/-! ### DMA, races, coherence -/

/-- R605: an uninterrupted MIX makes exactly four accesses a pixel, in the order red, green, blue, write, pixels ascending, and no
other; the output byte of a pixel is a function of its three source bytes and the operand registers. -/
def Obligations.MixAccessOrder : Prop :=
  ∀ s u : State, s.reg.busy = false → firstFailure .mix s.reg = .none → s.plat.mem.wf →
    s.plat.grants .read s.reg.src.toNat (3 * s.reg.pixels) → s.plat.grants .write s.reg.dst.toNat s.reg.pixels →
    issue .mix s.reg.pixels s = .next u →
    u.plat.dmaLog = ((List.range s.reg.pixels).flatMap s.reg.mixAccesses).reverse ++ s.plat.dmaLog ∧
    ∀ i, i < s.reg.pixels → u.plat.mem.regionByte s.reg.dst.toNat i =
      s.reg.mixPixel (s.plat.mem.regionByte s.reg.src.toNat (3 * i)) (s.plat.mem.regionByte s.reg.src.toNat (3 * i + 1))
        (s.plat.mem.regionByte s.reg.src.toNat (3 * i + 2))

/-- R220: the engine reads back what it wrote last, and a write leaves what it reads elsewhere. -/
def Obligations.EngineReadsItsLatestWrite : Prop :=
  ∀ (p q : Platform) (a : Nat) (v : Byte), p.mem.wf → dmaWrite a v p = .ok () q →
    p.anyValue (BitVec.ofNat 32 a) = false → p.busErr .read (BitVec.ofNat 32 a) = false →
    (∃ r, dmaRead a q = .ok v r) ∧
    ∀ b : Nat, b ≠ a → b < 2 ^ 32 → p.anyValue (BitVec.ofNat 32 b) = false → p.busErr .read (BitVec.ofNat 32 b) = false →
      ∃ r, dmaRead b q = .ok (p.mem.read (BitVec.ofNat 32 b)) r

/-- R221, R222, as the model's platform renders them (log entries 5 and 7; no access while BUSY = 0 is a race, log entry 6, and a host
access reaches memory whatever busErr says, log entry 19): on a coherent platform, while no command runs, a byte the host writes is
what the engine reads next, and what the host reads is the byte in memory. -/
def Obligations.HandshakeOrdersMemory : Prop :=
  ∀ (s : State) (a : Word) (v : Byte), s.reg.busy = false → s.plat.coherent = true → s.RacesOk → s.plat.mem.wf →
    (∃ t, perform (.memWrite a v) s = .next t ∧
      (s.plat.busErr .read a = false → ∃ r, dmaRead a.toNat t.plat = .ok v r) ∧
      perform (.memRead a) t = .next { t with reply := .memory v }) ∧
    perform (.memRead a) s = .next { s with reply := .memory (s.plat.mem.read a) }

/-- R223 (any value as a free value, the model's rendering: log entries 4 and 6). While a command runs, a host read of a byte of its
regions returns a free value, and a host write of one makes the byte a free value and marks it raced. A raced byte stays raced
through every step until the command ends; whenever the engine accesses it in that time, a read that gets data gets a free value
of its own, and a write leaves one there. And every step keeps each raced byte the engine's and at a drawn value, so that the
step in which the command ends leaves a drawn value there. -/
def Obligations.RacesGiveAnyValue : Prop :=
  (∀ (s : State) (a : Word) (v : Byte), s.reg.busy = true →
    (inRegion s.reg.src.toNat s.reg.srcLen a.toNat = true ∨ inRegion s.reg.dst.toNat s.reg.dstLen a.toNat = true) →
    (∃ t, perform (.memRead a) s = .next t ∧ t.reply = .memory (Config.freeByte s.plat.draws) ∧
      t.plat.draws = s.plat.draws + 1) ∧
    (∃ t, perform (.memWrite a v) s = .next t ∧ a ∈ t.plat.raced ∧ t.plat.draws = s.plat.draws + 1 ∧
      (s.plat.mem.wf → t.plat.mem.read a = Config.freeByte s.plat.draws))) ∧
  (∀ (s t : State) (a : Word), a ∈ s.plat.raced → step s = .next t → t.reg.busy = true → a ∈ t.plat.raced) ∧
  (∀ (p : Platform) (a : Word), a ∈ p.raced →
    (p.busErr .read a = false →
      ∃ q, dmaRead a.toNat p = .ok (Config.freeByte p.draws) q ∧ q.draws = p.draws + 1 ∧ q.raced = p.raced) ∧
    ∀ v : Byte,
      (p.busErr .write a = false →
        ∃ q, dmaWrite a.toNat v p = .ok () q ∧ q.draws = p.draws + 1 ∧ q.raced = p.raced ∧
          (p.mem.wf → q.mem.read a = Config.freeByte p.draws)) ∧
      (p.busErr .write a = true →
        ∃ q, dmaWrite a.toNat v p = .buserr a q ∧ q.draws = p.draws + 1 ∧
          (p.mem.wf → q.mem.read a = Config.freeByte p.draws))) ∧
  (∀ s t : State, s.plat.mem.wf → s.RacedDrawn → step s = .next t →
    t.RacedDrawn ∧ ∀ a ∈ s.plat.raced, ∃ n, n < t.plat.draws ∧ t.plat.mem.read a = Config.freeByte n)

/-! ### Steps -/

/-- R400, R309: when the host's next transaction is a CMD write of a word that decodes to a command, a step is that command's exec, with
the transaction taken off the list and answered OK; any other word is handled as R305 says; this is the step that
`withFetchWord` prepares. The list of transactions is the model's rendering of the host (log entry 1). -/
def Obligations.StepExecutesCommandWord : Prop :=
  (∀ (s : State) (c : Word) (rest : List Event), s.inputs = .regWrite 0x00C#12 4 c :: rest →
    (∀ i, decode c = .ok i → step s = exec i { s with inputs := rest, reply := .written .ok }) ∧
    (wellFormedWord c = false → step s = illegalCommand c { s with inputs := rest, reply := .written .ok })) ∧
  (∀ (s : State) (i : Instr), step (s.withFetchWord 32 (encode i).toNat) = exec i { s with reply := .written .ok })

/-- R405, R1025: with no event left, or when it is the engine's turn, a step is one turn of the engine; a turn while BUSY = 0 changes
nothing. That the turns stand in a list of events, and that an empty list leaves every turn to the engine, is the model's
rendering (log entries 1 and 16). -/
def Obligations.StepTakesEngineTurn : Prop :=
  (∀ s : State, s.inputs = [] → step s = engineStep s) ∧
  (∀ (s : State) (rest : List Event), s.inputs = .engine :: rest → step s = engineStep { s with inputs := rest }) ∧
  (∀ s : State, s.reg.busy = false → engineStep s = .next s)

/-! ### The arithmetic -/

/-- R502: the shortfall D is the exact quotient of the deficits' sum, and is 0, 1 or 2. -/
def Obligations.ShortfallIsAtMostTwo : Prop :=
  ∀ g : Regs, g.rawSum ≠ 0 →
    g.shortfall * g.rawSum = g.deficit .red + g.deficit .green + g.deficit .blue ∧ g.shortfall ≤ 2 ∧
    g.flooredWeight .red + g.flooredWeight .green + g.flooredWeight .blue + g.shortfall = 256

/-- R505: the normalised weights sum to 256, each is within 1 of its ideal 256·x / S_w and at most 256, and a zero raw weight gives
0. -/
def Obligations.NormalizedWeightsInvariant : Prop :=
  ∀ g : Regs, g.rawSum ≠ 0 →
    g.weight .red + g.weight .green + g.weight .blue = 256 ∧
    ∀ x : Channel, |(g.weight x : ℚ) - 256 * (g.raw x : ℚ) / (g.rawSum : ℚ)| < 1 ∧ g.weight x ≤ 256 ∧
      (g.raw x = 0 → g.weight x = 0)

/-- R503: each weight is its floor or one more, D of them one more, and the nudges go to the largest deficits, ties in the order R, B,
G: a channel that is nudged has a larger deficit than one that is not, or an equal one and an earlier place. -/
def Obligations.NudgesFollowDeficits : Prop :=
  ∀ g : Regs, g.rawSum ≠ 0 →
    (∀ x : Channel, g.weight x = g.flooredWeight x ∨ g.weight x = g.flooredWeight x + 1) ∧
    g.weight .red + g.weight .green + g.weight .blue =
      g.flooredWeight .red + g.flooredWeight .green + g.flooredWeight .blue + g.shortfall ∧
    ∀ x y : Channel, g.weight x = g.flooredWeight x + 1 → g.weight y = g.flooredWeight y →
      g.deficit y < g.deficit x ∨
        (g.deficit y = g.deficit x ∧ (x = .red ∨ (x = .blue ∧ y = .green)))

/-- R600, R601, R602: the mixer's sum is at most 390915, its gray is the sum divided by 256 and clamped to 255, and the clamp never acts
on weights that sum to at most 256, as the weights of NORMALIZE do; the brightness stage adds BR and clamps to 0..255, and is the
identity when BR = 0. -/
def Obligations.PixelArithmeticSaturates : Prop :=
  (∀ (g : Regs) (r gr b : Byte),
    g.mixSum r gr b = g.wR.toNat * r.toNat + g.wG.toNat * gr.toNat + g.wB.toNat * b.toNat ∧ g.mixSum r gr b ≤ 390915 ∧
    g.gray r gr b = min 255 (g.mixSum r gr b / 256) ∧
    (g.wR.toNat + g.wG.toNat + g.wB.toNat ≤ 256 → g.gray r gr b = g.mixSum r gr b / 256) ∧
    (g.rawSum ≠ 0 → g.normalized.gray r gr b = g.normalized.mixSum r gr b / 256)) ∧
  (∀ (g : Regs) (v : Nat), ((g.bright v).toNat : Int) = min 255 (max 0 ((v : Int) + g.brBits.toInt))) ∧
  (∀ (g : Regs) (v : Byte), g.brBits = 0#9 → g.bright v.toNat = v)

/-- R604: under the weights of NORMALIZE the gray differs from the floor of the exact weighted mean by at most 1. -/
def Obligations.GrayWithinOneOfExactMean : Prop :=
  ∀ (g : Regs) (r gr b : Byte), g.rawSum ≠ 0 →
    let x := (g.rawR.toNat * r.toNat + g.rawG.toNat * gr.toNat + g.rawB.toNat * b.toNat) / g.rawSum
    g.normalized.gray r gr b ≤ x + 1 ∧ x ≤ g.normalized.gray r gr b + 1

/-- R703, with R701's variance: Q / N_s^3 is the population variance of the samples about the mean S1 / N_s, it is 0 exactly when Q = 0,
and that is exactly when all samples are equal; then S1 is N_s times a sample and the mean is that sample. -/
def Obligations.DeviationSumIsPopulationVariance : Prop :=
  ∀ (m : Memory) (base n : Nat), 0 < n →
    let s1 := m.sampleSum base n
    let q := m.deviationSum base n n s1
    (q : ℚ) / (n : ℚ) ^ 3 =
      ((List.range n).map fun i => (((m.regionByte base i).toNat : ℚ) - (s1 : ℚ) / n) ^ 2).sum / n ∧
    ((q : ℚ) / (n : ℚ) ^ 3 = 0 ↔ q = 0) ∧
    (q = 0 ↔ ∀ i j, i < n → j < n → m.regionByte base i = m.regionByte base j) ∧
    (q = 0 → s1 = n * (m.regionByte base 0).toNat ∧ (s1 : ℚ) / n = (m.regionByte base 0).toNat)

/-- R800, R802: the integer procedure computes the floor of the exact real contrast law mean + k·(v - mean), k = c / sigma (0 when the
variance is 0), clamped to 0..255. -/
def Obligations.ContrastTableIsExactRealLaw : Prop :=
  ∀ (n s1 q : Nat) (c : Int) (v : Nat), 0 < n →
    let mean : ℝ := (s1 : ℝ) / n
    let sigma : ℝ := Real.sqrt ((q : ℝ) / (n : ℝ) ^ 3)
    let k : ℝ := if q = 0 then 0 else (c : ℝ) / sigma
    (contrastEntry n s1 q c v : Int) = min 255 (max 0 ⌊k * (v : ℝ) + (1 - k) * mean⌋)

/-- R805, R803: the table's shape: in range, monotone by the sign of c, constant when c = 0 or Q = 0, fixed at an integer mean, the
identity when c / sigma = 1 and the mean is an integer. -/
def Obligations.ContrastTableShape : Prop :=
  ∀ (n s1 q : Nat) (c : Int), 0 < n →
    (∀ v, contrastEntry n s1 q c v ≤ 255) ∧
    (∀ v w, v ≤ w → 0 ≤ c → contrastEntry n s1 q c v ≤ contrastEntry n s1 q c w) ∧
    (∀ v w, v ≤ w → c < 0 → contrastEntry n s1 q c w ≤ contrastEntry n s1 q c v) ∧
    (∀ v, c = 0 ∨ q = 0 → contrastEntry n s1 q c v = min 255 (s1 / n)) ∧
    (∀ m, s1 = m * n → m ≤ 255 → contrastEntry n s1 q c m = m) ∧
    (∀ m v, s1 = m * n → 0 < q → 0 < c → c ^ 2 * (n : Int) ^ 3 = q → v ≤ 255 → contrastEntry n s1 q c v = v)

/-! ### Host programs -/

/-- R308: while BUSY = 0, `wrlut v, x` takes two transactions and sets entry v to x and no other. That the two are consecutive steps,
the write put back at the head of the list of events, is the model's rendering (log entry 18). -/
def Obligations.WrlutSetsOneEntry : Prop :=
  ∀ (s : State) (v x : Byte) (rest : List Event), s.reg.busy = false → s.inputs = .wrlut v x :: rest →
    ∃ t u, step s = .next t ∧ step t = .next u ∧
      u = { s with inputs := rest, reply := .written .ok, reg := { s.reg with lut := u.reg.lut } } ∧
      ∀ w : Byte, u.reg.lut.entry w = if w = v then x else s.reg.lut.entry w
end

