-- ==== Sys2Proof/Laws/Memory.lean ====
section
/-! SUPPORT. Physical memory: a read after a write, and the canonical form. -/

namespace Sys2Proof.Machine

/-- Keys of a memory lie above `k`. -/
abbrev Memory.above (m : Memory) (k : Nat) : Prop := ∀ c ∈ m, k < c.1

theorem Memory.lookup_above {m : Memory} {k : Nat} (h : m.above k) : m.lookup k = Memory.unlisted := by
  induction m with
  | nil => rfl
  | cons c rest ih =>
    have hc := h c (by simp)
    have hne : c.1 ≠ k := by omega
    obtain ⟨j, w⟩ := c
    simp only at hne
    simp only [Memory.lookup, if_neg hne]
    exact ih fun x hx => h x (by simp [hx])

theorem Memory.lookup_insert_same {m : Memory} (hm : m.wf) (k : Nat) (v : Byte) : (m.insert k v).lookup k = v := by
  induction m with
  | nil =>
    unfold Memory.insert
    split
    · rename_i h; simp [Memory.lookup, h]
    · simp [Memory.lookup]
  | cons c rest ih =>
    obtain ⟨j, w⟩ := c
    have hrest : Memory.wf rest := ⟨(List.pairwise_cons.mp hm.1).2, fun x hx => hm.2 x (by simp [hx])⟩
    have habove : Memory.above rest j := fun x hx => (List.pairwise_cons.mp hm.1).1 x hx
    unfold Memory.insert
    split
    · rename_i h
      have hne : j ≠ k := by omega
      simp only [Memory.lookup, if_neg hne]
      exact ih hrest
    · split
      · rename_i h1 h2
        subst h2
        split
        · rename_i hv
          rw [hv]
          exact Memory.lookup_above habove
        · simp [Memory.lookup]
      · split
        · rename_i h1 h2 hv
          have hne : j ≠ k := h2
          rw [hv]
          apply Memory.lookup_above
          intro x hx
          rcases List.mem_cons.mp hx with rfl | hx
          · show k < j; omega
          · have := habove x hx; omega
        · simp [Memory.lookup]

theorem Memory.lookup_insert_other (m : Memory) {k k' : Nat} (v : Byte) (h : k' ≠ k) :
    (m.insert k v).lookup k' = m.lookup k' := by
  induction m with
  | nil =>
    unfold Memory.insert
    split
    · rfl
    · simp [Memory.lookup, Ne.symm h]
  | cons c rest ih =>
    obtain ⟨j, w⟩ := c
    unfold Memory.insert
    split
    · simp only [Memory.lookup, ih]
    · split
      · rename_i h1 h2
        subst h2
        split <;> simp [Memory.lookup, Ne.symm h]
      · split
        · rfl
        · simp [Memory.lookup, Ne.symm h]

theorem Memory.mem_insert {m : Memory} {k : Nat} {v : Byte} {c : Host.Cell} (h : c ∈ m.insert k v) :
    c ∈ m ∨ (c = (k, v) ∧ v ≠ Memory.unlisted) := by
  induction m with
  | nil =>
    unfold Memory.insert at h
    split at h
    · simp at h
    · rename_i hv
      exact .inr ⟨by simpa using h, hv⟩
  | cons d rest ih =>
    obtain ⟨j, w⟩ := d
    unfold Memory.insert at h
    split at h
    · rcases List.mem_cons.mp h with rfl | h
      · exact .inl (by simp)
      · rcases ih h with h | h
        · exact .inl (by simp [h])
        · exact .inr h
    · split at h
      · split at h
        · exact .inl (by simp [h])
        · rename_i hv
          rcases List.mem_cons.mp h with rfl | h
          · exact .inr ⟨rfl, hv⟩
          · exact .inl (by simp [h])
      · split at h
        · exact .inl h
        · rename_i hv
          rcases List.mem_cons.mp h with rfl | h
          · exact .inr ⟨rfl, hv⟩
          · exact .inl h

theorem Memory.insert_pairwise {m : Memory} (k : Nat) (v : Byte) (hm : m.Pairwise (fun x y => x.1 < y.1)) :
    (m.insert k v).Pairwise (fun x y => x.1 < y.1) := by
  induction m with
  | nil =>
    unfold Memory.insert
    split <;> simp
  | cons d rest ih =>
    obtain ⟨j, w⟩ := d
    have ⟨hhead, htail⟩ := List.pairwise_cons.mp hm
    unfold Memory.insert
    split
    · rename_i hjk
      refine List.pairwise_cons.mpr ⟨?_, ih htail⟩
      intro x hx
      rcases Memory.mem_insert hx with hx | ⟨rfl, -⟩
      · exact hhead x hx
      · exact hjk
    · split
      · rename_i h1 h2
        subst h2
        split
        · exact htail
        · exact List.pairwise_cons.mpr ⟨hhead, htail⟩
      · rename_i h1 h2
        split
        · exact hm
        · refine List.pairwise_cons.mpr ⟨?_, hm⟩
          intro x hx
          rcases List.mem_cons.mp hx with rfl | hx
          · show k < j
            omega
          · have := hhead x hx
            simp only at this ⊢
            omega

/-- Writing keeps the canonical form. -/
theorem Memory.write_wf {m : Memory} (hm : m.wf) (a : Word) (v : Byte) : (m.write a v).wf := by
  refine ⟨Memory.insert_pairwise _ _ hm.1, fun c hc => ?_⟩
  rcases Memory.mem_insert hc with hc | ⟨rfl, hv⟩
  · exact hm.2 c hc
  · exact ⟨a.isLt, hv⟩

/-- A read of the byte just written gives the byte written. -/
theorem Memory.read_write_same {m : Memory} (hm : m.wf) (a : Word) (v : Byte) : (m.write a v).read a = v :=
  Memory.lookup_insert_same hm _ _

/-- A write leaves every other byte alone. -/
theorem Memory.read_write_other (m : Memory) {a b : Word} (v : Byte) (h : b ≠ a) : (m.write a v).read b = m.read b :=
  Memory.lookup_insert_other m v fun e => h (BitVec.eq_of_toNat_eq e)

theorem Memory.initial_wf : Memory.wf Platform.initial.mem := by decide

end Sys2Proof.Machine
end

