-- ==== Sys2Proof/Laws/State.lean ====
section
/-! SUPPORT. What each named update does to each field of the state, one lemma per field, so that no proof unfolds a record
update. -/

namespace Sys2Proof.Machine

/-! `dropCommand` -/

@[simp] theorem Regs.dropCommand_ctrlContrastEn (g : Regs) : (g.dropCommand).ctrlContrastEn = g.ctrlContrastEn := rfl
@[simp] theorem Regs.dropCommand_ctrlIrqEn (g : Regs) : (g.dropCommand).ctrlIrqEn = g.ctrlIrqEn := rfl
@[simp] theorem Regs.dropCommand_busy (g : Regs) : (g.dropCommand).busy = g.busy := rfl
@[simp] theorem Regs.dropCommand_done (g : Regs) : (g.dropCommand).done = g.done := rfl
@[simp] theorem Regs.dropCommand_err (g : Regs) : (g.dropCommand).err = g.err := rfl
@[simp] theorem Regs.dropCommand_cmdDropped (g : Regs) : (g.dropCommand).cmdDropped = true := rfl
@[simp] theorem Regs.dropCommand_wrIgnored (g : Regs) : (g.dropCommand).wrIgnored = g.wrIgnored := rfl
@[simp] theorem Regs.dropCommand_errCode (g : Regs) : (g.dropCommand).errCode = g.errCode := rfl
@[simp] theorem Regs.dropCommand_op (g : Regs) : (g.dropCommand).op = g.op := rfl
@[simp] theorem Regs.dropCommand_phase (g : Regs) : (g.dropCommand).phase = g.phase := rfl
@[simp] theorem Regs.dropCommand_stats (g : Regs) : (g.dropCommand).stats = g.stats := rfl
@[simp] theorem Regs.dropCommand_src (g : Regs) : (g.dropCommand).src = g.src := rfl
@[simp] theorem Regs.dropCommand_dst (g : Regs) : (g.dropCommand).dst = g.dst := rfl
@[simp] theorem Regs.dropCommand_width (g : Regs) : (g.dropCommand).width = g.width := rfl
@[simp] theorem Regs.dropCommand_height (g : Regs) : (g.dropCommand).height = g.height := rfl
@[simp] theorem Regs.dropCommand_rawR (g : Regs) : (g.dropCommand).rawR = g.rawR := rfl
@[simp] theorem Regs.dropCommand_rawG (g : Regs) : (g.dropCommand).rawG = g.rawG := rfl
@[simp] theorem Regs.dropCommand_rawB (g : Regs) : (g.dropCommand).rawB = g.rawB := rfl
@[simp] theorem Regs.dropCommand_wR (g : Regs) : (g.dropCommand).wR = g.wR := rfl
@[simp] theorem Regs.dropCommand_wG (g : Regs) : (g.dropCommand).wG = g.wG := rfl
@[simp] theorem Regs.dropCommand_wB (g : Regs) : (g.dropCommand).wB = g.wB := rfl
@[simp] theorem Regs.dropCommand_brBits (g : Regs) : (g.dropCommand).brBits = g.brBits := rfl
@[simp] theorem Regs.dropCommand_cBits (g : Regs) : (g.dropCommand).cBits = g.cBits := rfl
@[simp] theorem Regs.dropCommand_statN (g : Regs) : (g.dropCommand).statN = g.statN := rfl
@[simp] theorem Regs.dropCommand_s1 (g : Regs) : (g.dropCommand).s1 = g.s1 := rfl
@[simp] theorem Regs.dropCommand_q (g : Regs) : (g.dropCommand).q = g.q := rfl
@[simp] theorem Regs.dropCommand_progress (g : Regs) : (g.dropCommand).progress = g.progress := rfl
@[simp] theorem Regs.dropCommand_faultAddr (g : Regs) : (g.dropCommand).faultAddr = g.faultAddr := rfl
@[simp] theorem Regs.dropCommand_lut (g : Regs) : (g.dropCommand).lut = g.lut := rfl
@[simp] theorem Regs.dropCommand_cl (g : Regs) : (g.dropCommand).cl = g.cl := rfl

/-! `acceptBase` -/

@[simp] theorem Regs.acceptBase_ctrlContrastEn (opcode : BitVec 4) (g : Regs) : (g.acceptBase opcode).ctrlContrastEn = g.ctrlContrastEn := rfl
@[simp] theorem Regs.acceptBase_ctrlIrqEn (opcode : BitVec 4) (g : Regs) : (g.acceptBase opcode).ctrlIrqEn = g.ctrlIrqEn := rfl
@[simp] theorem Regs.acceptBase_busy (opcode : BitVec 4) (g : Regs) : (g.acceptBase opcode).busy = g.busy := rfl
@[simp] theorem Regs.acceptBase_done (opcode : BitVec 4) (g : Regs) : (g.acceptBase opcode).done = false := rfl
@[simp] theorem Regs.acceptBase_err (opcode : BitVec 4) (g : Regs) : (g.acceptBase opcode).err = false := rfl
@[simp] theorem Regs.acceptBase_cmdDropped (opcode : BitVec 4) (g : Regs) : (g.acceptBase opcode).cmdDropped = g.cmdDropped := rfl
@[simp] theorem Regs.acceptBase_wrIgnored (opcode : BitVec 4) (g : Regs) : (g.acceptBase opcode).wrIgnored = g.wrIgnored := rfl
@[simp] theorem Regs.acceptBase_errCode (opcode : BitVec 4) (g : Regs) : (g.acceptBase opcode).errCode = .none := rfl
@[simp] theorem Regs.acceptBase_op (opcode : BitVec 4) (g : Regs) : (g.acceptBase opcode).op = opcode := rfl
@[simp] theorem Regs.acceptBase_phase (opcode : BitVec 4) (g : Regs) : (g.acceptBase opcode).phase = .none := rfl
@[simp] theorem Regs.acceptBase_stats (opcode : BitVec 4) (g : Regs) : (g.acceptBase opcode).stats = g.stats := rfl
@[simp] theorem Regs.acceptBase_src (opcode : BitVec 4) (g : Regs) : (g.acceptBase opcode).src = g.src := rfl
@[simp] theorem Regs.acceptBase_dst (opcode : BitVec 4) (g : Regs) : (g.acceptBase opcode).dst = g.dst := rfl
@[simp] theorem Regs.acceptBase_width (opcode : BitVec 4) (g : Regs) : (g.acceptBase opcode).width = g.width := rfl
@[simp] theorem Regs.acceptBase_height (opcode : BitVec 4) (g : Regs) : (g.acceptBase opcode).height = g.height := rfl
@[simp] theorem Regs.acceptBase_rawR (opcode : BitVec 4) (g : Regs) : (g.acceptBase opcode).rawR = g.rawR := rfl
@[simp] theorem Regs.acceptBase_rawG (opcode : BitVec 4) (g : Regs) : (g.acceptBase opcode).rawG = g.rawG := rfl
@[simp] theorem Regs.acceptBase_rawB (opcode : BitVec 4) (g : Regs) : (g.acceptBase opcode).rawB = g.rawB := rfl
@[simp] theorem Regs.acceptBase_wR (opcode : BitVec 4) (g : Regs) : (g.acceptBase opcode).wR = g.wR := rfl
@[simp] theorem Regs.acceptBase_wG (opcode : BitVec 4) (g : Regs) : (g.acceptBase opcode).wG = g.wG := rfl
@[simp] theorem Regs.acceptBase_wB (opcode : BitVec 4) (g : Regs) : (g.acceptBase opcode).wB = g.wB := rfl
@[simp] theorem Regs.acceptBase_brBits (opcode : BitVec 4) (g : Regs) : (g.acceptBase opcode).brBits = g.brBits := rfl
@[simp] theorem Regs.acceptBase_cBits (opcode : BitVec 4) (g : Regs) : (g.acceptBase opcode).cBits = g.cBits := rfl
@[simp] theorem Regs.acceptBase_statN (opcode : BitVec 4) (g : Regs) : (g.acceptBase opcode).statN = g.statN := rfl
@[simp] theorem Regs.acceptBase_s1 (opcode : BitVec 4) (g : Regs) : (g.acceptBase opcode).s1 = g.s1 := rfl
@[simp] theorem Regs.acceptBase_q (opcode : BitVec 4) (g : Regs) : (g.acceptBase opcode).q = g.q := rfl
@[simp] theorem Regs.acceptBase_progress (opcode : BitVec 4) (g : Regs) : (g.acceptBase opcode).progress = 0#32 := rfl
@[simp] theorem Regs.acceptBase_faultAddr (opcode : BitVec 4) (g : Regs) : (g.acceptBase opcode).faultAddr = 0#32 := rfl
@[simp] theorem Regs.acceptBase_lut (opcode : BitVec 4) (g : Regs) : (g.acceptBase opcode).lut = g.lut := rfl
@[simp] theorem Regs.acceptBase_cl (opcode : BitVec 4) (g : Regs) : (g.acceptBase opcode).cl = g.cl := rfl

/-! `raiseError` -/

@[simp] theorem Regs.raiseError_ctrlContrastEn (e : ErrCode) (g : Regs) : (g.raiseError e).ctrlContrastEn = g.ctrlContrastEn := rfl
@[simp] theorem Regs.raiseError_ctrlIrqEn (e : ErrCode) (g : Regs) : (g.raiseError e).ctrlIrqEn = g.ctrlIrqEn := rfl
@[simp] theorem Regs.raiseError_busy (e : ErrCode) (g : Regs) : (g.raiseError e).busy = g.busy := rfl
@[simp] theorem Regs.raiseError_done (e : ErrCode) (g : Regs) : (g.raiseError e).done = g.done := rfl
@[simp] theorem Regs.raiseError_err (e : ErrCode) (g : Regs) : (g.raiseError e).err = true := rfl
@[simp] theorem Regs.raiseError_cmdDropped (e : ErrCode) (g : Regs) : (g.raiseError e).cmdDropped = g.cmdDropped := rfl
@[simp] theorem Regs.raiseError_wrIgnored (e : ErrCode) (g : Regs) : (g.raiseError e).wrIgnored = g.wrIgnored := rfl
@[simp] theorem Regs.raiseError_errCode (e : ErrCode) (g : Regs) : (g.raiseError e).errCode = e := rfl
@[simp] theorem Regs.raiseError_op (e : ErrCode) (g : Regs) : (g.raiseError e).op = g.op := rfl
@[simp] theorem Regs.raiseError_phase (e : ErrCode) (g : Regs) : (g.raiseError e).phase = g.phase := rfl
@[simp] theorem Regs.raiseError_stats (e : ErrCode) (g : Regs) : (g.raiseError e).stats = g.stats := rfl
@[simp] theorem Regs.raiseError_src (e : ErrCode) (g : Regs) : (g.raiseError e).src = g.src := rfl
@[simp] theorem Regs.raiseError_dst (e : ErrCode) (g : Regs) : (g.raiseError e).dst = g.dst := rfl
@[simp] theorem Regs.raiseError_width (e : ErrCode) (g : Regs) : (g.raiseError e).width = g.width := rfl
@[simp] theorem Regs.raiseError_height (e : ErrCode) (g : Regs) : (g.raiseError e).height = g.height := rfl
@[simp] theorem Regs.raiseError_rawR (e : ErrCode) (g : Regs) : (g.raiseError e).rawR = g.rawR := rfl
@[simp] theorem Regs.raiseError_rawG (e : ErrCode) (g : Regs) : (g.raiseError e).rawG = g.rawG := rfl
@[simp] theorem Regs.raiseError_rawB (e : ErrCode) (g : Regs) : (g.raiseError e).rawB = g.rawB := rfl
@[simp] theorem Regs.raiseError_wR (e : ErrCode) (g : Regs) : (g.raiseError e).wR = g.wR := rfl
@[simp] theorem Regs.raiseError_wG (e : ErrCode) (g : Regs) : (g.raiseError e).wG = g.wG := rfl
@[simp] theorem Regs.raiseError_wB (e : ErrCode) (g : Regs) : (g.raiseError e).wB = g.wB := rfl
@[simp] theorem Regs.raiseError_brBits (e : ErrCode) (g : Regs) : (g.raiseError e).brBits = g.brBits := rfl
@[simp] theorem Regs.raiseError_cBits (e : ErrCode) (g : Regs) : (g.raiseError e).cBits = g.cBits := rfl
@[simp] theorem Regs.raiseError_statN (e : ErrCode) (g : Regs) : (g.raiseError e).statN = g.statN := rfl
@[simp] theorem Regs.raiseError_s1 (e : ErrCode) (g : Regs) : (g.raiseError e).s1 = g.s1 := rfl
@[simp] theorem Regs.raiseError_q (e : ErrCode) (g : Regs) : (g.raiseError e).q = g.q := rfl
@[simp] theorem Regs.raiseError_progress (e : ErrCode) (g : Regs) : (g.raiseError e).progress = g.progress := rfl
@[simp] theorem Regs.raiseError_faultAddr (e : ErrCode) (g : Regs) : (g.raiseError e).faultAddr = g.faultAddr := rfl
@[simp] theorem Regs.raiseError_lut (e : ErrCode) (g : Regs) : (g.raiseError e).lut = g.lut := rfl
@[simp] theorem Regs.raiseError_cl (e : ErrCode) (g : Regs) : (g.raiseError e).cl = g.cl := rfl

/-! `setBusy` -/

@[simp] theorem Regs.setBusy_ctrlContrastEn (g : Regs) : (g.setBusy).ctrlContrastEn = g.ctrlContrastEn := rfl
@[simp] theorem Regs.setBusy_ctrlIrqEn (g : Regs) : (g.setBusy).ctrlIrqEn = g.ctrlIrqEn := rfl
@[simp] theorem Regs.setBusy_busy (g : Regs) : (g.setBusy).busy = true := rfl
@[simp] theorem Regs.setBusy_done (g : Regs) : (g.setBusy).done = g.done := rfl
@[simp] theorem Regs.setBusy_err (g : Regs) : (g.setBusy).err = g.err := rfl
@[simp] theorem Regs.setBusy_cmdDropped (g : Regs) : (g.setBusy).cmdDropped = g.cmdDropped := rfl
@[simp] theorem Regs.setBusy_wrIgnored (g : Regs) : (g.setBusy).wrIgnored = g.wrIgnored := rfl
@[simp] theorem Regs.setBusy_errCode (g : Regs) : (g.setBusy).errCode = g.errCode := rfl
@[simp] theorem Regs.setBusy_op (g : Regs) : (g.setBusy).op = g.op := rfl
@[simp] theorem Regs.setBusy_phase (g : Regs) : (g.setBusy).phase = g.phase := rfl
@[simp] theorem Regs.setBusy_stats (g : Regs) : (g.setBusy).stats = g.stats := rfl
@[simp] theorem Regs.setBusy_src (g : Regs) : (g.setBusy).src = g.src := rfl
@[simp] theorem Regs.setBusy_dst (g : Regs) : (g.setBusy).dst = g.dst := rfl
@[simp] theorem Regs.setBusy_width (g : Regs) : (g.setBusy).width = g.width := rfl
@[simp] theorem Regs.setBusy_height (g : Regs) : (g.setBusy).height = g.height := rfl
@[simp] theorem Regs.setBusy_rawR (g : Regs) : (g.setBusy).rawR = g.rawR := rfl
@[simp] theorem Regs.setBusy_rawG (g : Regs) : (g.setBusy).rawG = g.rawG := rfl
@[simp] theorem Regs.setBusy_rawB (g : Regs) : (g.setBusy).rawB = g.rawB := rfl
@[simp] theorem Regs.setBusy_wR (g : Regs) : (g.setBusy).wR = g.wR := rfl
@[simp] theorem Regs.setBusy_wG (g : Regs) : (g.setBusy).wG = g.wG := rfl
@[simp] theorem Regs.setBusy_wB (g : Regs) : (g.setBusy).wB = g.wB := rfl
@[simp] theorem Regs.setBusy_brBits (g : Regs) : (g.setBusy).brBits = g.brBits := rfl
@[simp] theorem Regs.setBusy_cBits (g : Regs) : (g.setBusy).cBits = g.cBits := rfl
@[simp] theorem Regs.setBusy_statN (g : Regs) : (g.setBusy).statN = g.statN := rfl
@[simp] theorem Regs.setBusy_s1 (g : Regs) : (g.setBusy).s1 = g.s1 := rfl
@[simp] theorem Regs.setBusy_q (g : Regs) : (g.setBusy).q = g.q := rfl
@[simp] theorem Regs.setBusy_progress (g : Regs) : (g.setBusy).progress = g.progress := rfl
@[simp] theorem Regs.setBusy_faultAddr (g : Regs) : (g.setBusy).faultAddr = g.faultAddr := rfl
@[simp] theorem Regs.setBusy_lut (g : Regs) : (g.setBusy).lut = g.lut := rfl
@[simp] theorem Regs.setBusy_cl (g : Regs) : (g.setBusy).cl = g.cl := rfl

/-! `complete` -/

@[simp] theorem Regs.complete_ctrlContrastEn (g : Regs) : (g.complete).ctrlContrastEn = g.ctrlContrastEn := rfl
@[simp] theorem Regs.complete_ctrlIrqEn (g : Regs) : (g.complete).ctrlIrqEn = g.ctrlIrqEn := rfl
@[simp] theorem Regs.complete_busy (g : Regs) : (g.complete).busy = false := rfl
@[simp] theorem Regs.complete_done (g : Regs) : (g.complete).done = true := rfl
@[simp] theorem Regs.complete_err (g : Regs) : (g.complete).err = g.err := rfl
@[simp] theorem Regs.complete_cmdDropped (g : Regs) : (g.complete).cmdDropped = g.cmdDropped := rfl
@[simp] theorem Regs.complete_wrIgnored (g : Regs) : (g.complete).wrIgnored = g.wrIgnored := rfl
@[simp] theorem Regs.complete_errCode (g : Regs) : (g.complete).errCode = g.errCode := rfl
@[simp] theorem Regs.complete_op (g : Regs) : (g.complete).op = g.op := rfl
@[simp] theorem Regs.complete_phase (g : Regs) : (g.complete).phase = g.phase := rfl
@[simp] theorem Regs.complete_stats (g : Regs) : (g.complete).stats = g.stats := rfl
@[simp] theorem Regs.complete_src (g : Regs) : (g.complete).src = g.src := rfl
@[simp] theorem Regs.complete_dst (g : Regs) : (g.complete).dst = g.dst := rfl
@[simp] theorem Regs.complete_width (g : Regs) : (g.complete).width = g.width := rfl
@[simp] theorem Regs.complete_height (g : Regs) : (g.complete).height = g.height := rfl
@[simp] theorem Regs.complete_rawR (g : Regs) : (g.complete).rawR = g.rawR := rfl
@[simp] theorem Regs.complete_rawG (g : Regs) : (g.complete).rawG = g.rawG := rfl
@[simp] theorem Regs.complete_rawB (g : Regs) : (g.complete).rawB = g.rawB := rfl
@[simp] theorem Regs.complete_wR (g : Regs) : (g.complete).wR = g.wR := rfl
@[simp] theorem Regs.complete_wG (g : Regs) : (g.complete).wG = g.wG := rfl
@[simp] theorem Regs.complete_wB (g : Regs) : (g.complete).wB = g.wB := rfl
@[simp] theorem Regs.complete_brBits (g : Regs) : (g.complete).brBits = g.brBits := rfl
@[simp] theorem Regs.complete_cBits (g : Regs) : (g.complete).cBits = g.cBits := rfl
@[simp] theorem Regs.complete_statN (g : Regs) : (g.complete).statN = g.statN := rfl
@[simp] theorem Regs.complete_s1 (g : Regs) : (g.complete).s1 = g.s1 := rfl
@[simp] theorem Regs.complete_q (g : Regs) : (g.complete).q = g.q := rfl
@[simp] theorem Regs.complete_progress (g : Regs) : (g.complete).progress = g.progress := rfl
@[simp] theorem Regs.complete_faultAddr (g : Regs) : (g.complete).faultAddr = g.faultAddr := rfl
@[simp] theorem Regs.complete_lut (g : Regs) : (g.complete).lut = g.lut := rfl
@[simp] theorem Regs.complete_cl (g : Regs) : (g.complete).cl = g.cl := rfl

/-! `busFault` -/

@[simp] theorem Regs.busFault_ctrlContrastEn (a : Word) (g : Regs) : (g.busFault a).ctrlContrastEn = g.ctrlContrastEn := rfl
@[simp] theorem Regs.busFault_ctrlIrqEn (a : Word) (g : Regs) : (g.busFault a).ctrlIrqEn = g.ctrlIrqEn := rfl
@[simp] theorem Regs.busFault_busy (a : Word) (g : Regs) : (g.busFault a).busy = false := rfl
@[simp] theorem Regs.busFault_done (a : Word) (g : Regs) : (g.busFault a).done = g.done := rfl
@[simp] theorem Regs.busFault_err (a : Word) (g : Regs) : (g.busFault a).err = true := rfl
@[simp] theorem Regs.busFault_cmdDropped (a : Word) (g : Regs) : (g.busFault a).cmdDropped = g.cmdDropped := rfl
@[simp] theorem Regs.busFault_wrIgnored (a : Word) (g : Regs) : (g.busFault a).wrIgnored = g.wrIgnored := rfl
@[simp] theorem Regs.busFault_errCode (a : Word) (g : Regs) : (g.busFault a).errCode = .busError := rfl
@[simp] theorem Regs.busFault_op (a : Word) (g : Regs) : (g.busFault a).op = g.op := rfl
@[simp] theorem Regs.busFault_phase (a : Word) (g : Regs) : (g.busFault a).phase = g.phase := rfl
@[simp] theorem Regs.busFault_stats (a : Word) (g : Regs) : (g.busFault a).stats = g.stats := rfl
@[simp] theorem Regs.busFault_src (a : Word) (g : Regs) : (g.busFault a).src = g.src := rfl
@[simp] theorem Regs.busFault_dst (a : Word) (g : Regs) : (g.busFault a).dst = g.dst := rfl
@[simp] theorem Regs.busFault_width (a : Word) (g : Regs) : (g.busFault a).width = g.width := rfl
@[simp] theorem Regs.busFault_height (a : Word) (g : Regs) : (g.busFault a).height = g.height := rfl
@[simp] theorem Regs.busFault_rawR (a : Word) (g : Regs) : (g.busFault a).rawR = g.rawR := rfl
@[simp] theorem Regs.busFault_rawG (a : Word) (g : Regs) : (g.busFault a).rawG = g.rawG := rfl
@[simp] theorem Regs.busFault_rawB (a : Word) (g : Regs) : (g.busFault a).rawB = g.rawB := rfl
@[simp] theorem Regs.busFault_wR (a : Word) (g : Regs) : (g.busFault a).wR = g.wR := rfl
@[simp] theorem Regs.busFault_wG (a : Word) (g : Regs) : (g.busFault a).wG = g.wG := rfl
@[simp] theorem Regs.busFault_wB (a : Word) (g : Regs) : (g.busFault a).wB = g.wB := rfl
@[simp] theorem Regs.busFault_brBits (a : Word) (g : Regs) : (g.busFault a).brBits = g.brBits := rfl
@[simp] theorem Regs.busFault_cBits (a : Word) (g : Regs) : (g.busFault a).cBits = g.cBits := rfl
@[simp] theorem Regs.busFault_statN (a : Word) (g : Regs) : (g.busFault a).statN = g.statN := rfl
@[simp] theorem Regs.busFault_s1 (a : Word) (g : Regs) : (g.busFault a).s1 = g.s1 := rfl
@[simp] theorem Regs.busFault_q (a : Word) (g : Regs) : (g.busFault a).q = g.q := rfl
@[simp] theorem Regs.busFault_progress (a : Word) (g : Regs) : (g.busFault a).progress = g.progress := rfl
@[simp] theorem Regs.busFault_faultAddr (a : Word) (g : Regs) : (g.busFault a).faultAddr = a := rfl
@[simp] theorem Regs.busFault_lut (a : Word) (g : Regs) : (g.busFault a).lut = g.lut := rfl
@[simp] theorem Regs.busFault_cl (a : Word) (g : Regs) : (g.busFault a).cl = g.cl := rfl

/-! `countUnit` -/

@[simp] theorem Regs.countUnit_ctrlContrastEn (g : Regs) : (g.countUnit).ctrlContrastEn = g.ctrlContrastEn := rfl
@[simp] theorem Regs.countUnit_ctrlIrqEn (g : Regs) : (g.countUnit).ctrlIrqEn = g.ctrlIrqEn := rfl
@[simp] theorem Regs.countUnit_busy (g : Regs) : (g.countUnit).busy = g.busy := rfl
@[simp] theorem Regs.countUnit_done (g : Regs) : (g.countUnit).done = g.done := rfl
@[simp] theorem Regs.countUnit_err (g : Regs) : (g.countUnit).err = g.err := rfl
@[simp] theorem Regs.countUnit_cmdDropped (g : Regs) : (g.countUnit).cmdDropped = g.cmdDropped := rfl
@[simp] theorem Regs.countUnit_wrIgnored (g : Regs) : (g.countUnit).wrIgnored = g.wrIgnored := rfl
@[simp] theorem Regs.countUnit_errCode (g : Regs) : (g.countUnit).errCode = g.errCode := rfl
@[simp] theorem Regs.countUnit_op (g : Regs) : (g.countUnit).op = g.op := rfl
@[simp] theorem Regs.countUnit_phase (g : Regs) : (g.countUnit).phase = g.phase := rfl
@[simp] theorem Regs.countUnit_stats (g : Regs) : (g.countUnit).stats = g.stats := rfl
@[simp] theorem Regs.countUnit_src (g : Regs) : (g.countUnit).src = g.src := rfl
@[simp] theorem Regs.countUnit_dst (g : Regs) : (g.countUnit).dst = g.dst := rfl
@[simp] theorem Regs.countUnit_width (g : Regs) : (g.countUnit).width = g.width := rfl
@[simp] theorem Regs.countUnit_height (g : Regs) : (g.countUnit).height = g.height := rfl
@[simp] theorem Regs.countUnit_rawR (g : Regs) : (g.countUnit).rawR = g.rawR := rfl
@[simp] theorem Regs.countUnit_rawG (g : Regs) : (g.countUnit).rawG = g.rawG := rfl
@[simp] theorem Regs.countUnit_rawB (g : Regs) : (g.countUnit).rawB = g.rawB := rfl
@[simp] theorem Regs.countUnit_wR (g : Regs) : (g.countUnit).wR = g.wR := rfl
@[simp] theorem Regs.countUnit_wG (g : Regs) : (g.countUnit).wG = g.wG := rfl
@[simp] theorem Regs.countUnit_wB (g : Regs) : (g.countUnit).wB = g.wB := rfl
@[simp] theorem Regs.countUnit_brBits (g : Regs) : (g.countUnit).brBits = g.brBits := rfl
@[simp] theorem Regs.countUnit_cBits (g : Regs) : (g.countUnit).cBits = g.cBits := rfl
@[simp] theorem Regs.countUnit_statN (g : Regs) : (g.countUnit).statN = g.statN := rfl
@[simp] theorem Regs.countUnit_s1 (g : Regs) : (g.countUnit).s1 = g.s1 := rfl
@[simp] theorem Regs.countUnit_q (g : Regs) : (g.countUnit).q = g.q := rfl
@[simp] theorem Regs.countUnit_progress (g : Regs) : (g.countUnit).progress = BitVec.ofNat 32 (g.progress.toNat + 1) := rfl
@[simp] theorem Regs.countUnit_faultAddr (g : Regs) : (g.countUnit).faultAddr = g.faultAddr := rfl
@[simp] theorem Regs.countUnit_lut (g : Regs) : (g.countUnit).lut = g.lut := rfl
@[simp] theorem Regs.countUnit_cl (g : Regs) : (g.countUnit).cl = g.cl := rfl

/-! `latchContrast` -/

@[simp] theorem Regs.latchContrast_ctrlContrastEn (g : Regs) : (g.latchContrast).ctrlContrastEn = g.ctrlContrastEn := rfl
@[simp] theorem Regs.latchContrast_ctrlIrqEn (g : Regs) : (g.latchContrast).ctrlIrqEn = g.ctrlIrqEn := rfl
@[simp] theorem Regs.latchContrast_busy (g : Regs) : (g.latchContrast).busy = g.busy := rfl
@[simp] theorem Regs.latchContrast_done (g : Regs) : (g.latchContrast).done = g.done := rfl
@[simp] theorem Regs.latchContrast_err (g : Regs) : (g.latchContrast).err = g.err := rfl
@[simp] theorem Regs.latchContrast_cmdDropped (g : Regs) : (g.latchContrast).cmdDropped = g.cmdDropped := rfl
@[simp] theorem Regs.latchContrast_wrIgnored (g : Regs) : (g.latchContrast).wrIgnored = g.wrIgnored := rfl
@[simp] theorem Regs.latchContrast_errCode (g : Regs) : (g.latchContrast).errCode = g.errCode := rfl
@[simp] theorem Regs.latchContrast_op (g : Regs) : (g.latchContrast).op = g.op := rfl
@[simp] theorem Regs.latchContrast_phase (g : Regs) : (g.latchContrast).phase = g.phase := rfl
@[simp] theorem Regs.latchContrast_stats (g : Regs) : (g.latchContrast).stats = g.stats := rfl
@[simp] theorem Regs.latchContrast_src (g : Regs) : (g.latchContrast).src = g.src := rfl
@[simp] theorem Regs.latchContrast_dst (g : Regs) : (g.latchContrast).dst = g.dst := rfl
@[simp] theorem Regs.latchContrast_width (g : Regs) : (g.latchContrast).width = g.width := rfl
@[simp] theorem Regs.latchContrast_height (g : Regs) : (g.latchContrast).height = g.height := rfl
@[simp] theorem Regs.latchContrast_rawR (g : Regs) : (g.latchContrast).rawR = g.rawR := rfl
@[simp] theorem Regs.latchContrast_rawG (g : Regs) : (g.latchContrast).rawG = g.rawG := rfl
@[simp] theorem Regs.latchContrast_rawB (g : Regs) : (g.latchContrast).rawB = g.rawB := rfl
@[simp] theorem Regs.latchContrast_wR (g : Regs) : (g.latchContrast).wR = g.wR := rfl
@[simp] theorem Regs.latchContrast_wG (g : Regs) : (g.latchContrast).wG = g.wG := rfl
@[simp] theorem Regs.latchContrast_wB (g : Regs) : (g.latchContrast).wB = g.wB := rfl
@[simp] theorem Regs.latchContrast_brBits (g : Regs) : (g.latchContrast).brBits = g.brBits := rfl
@[simp] theorem Regs.latchContrast_cBits (g : Regs) : (g.latchContrast).cBits = g.cBits := rfl
@[simp] theorem Regs.latchContrast_statN (g : Regs) : (g.latchContrast).statN = g.statN := rfl
@[simp] theorem Regs.latchContrast_s1 (g : Regs) : (g.latchContrast).s1 = g.s1 := rfl
@[simp] theorem Regs.latchContrast_q (g : Regs) : (g.latchContrast).q = g.q := rfl
@[simp] theorem Regs.latchContrast_progress (g : Regs) : (g.latchContrast).progress = g.progress := rfl
@[simp] theorem Regs.latchContrast_faultAddr (g : Regs) : (g.latchContrast).faultAddr = g.faultAddr := rfl
@[simp] theorem Regs.latchContrast_lut (g : Regs) : (g.latchContrast).lut = g.lut := rfl
@[simp] theorem Regs.latchContrast_cl (g : Regs) : (g.latchContrast).cl = g.ctrlContrastEn := rfl

/-! `setCtrl` -/

@[simp] theorem Regs.setCtrl_ctrlContrastEn (d : Word) (g : Regs) : (g.setCtrl d).ctrlContrastEn = d.getLsbD 0 := rfl
@[simp] theorem Regs.setCtrl_ctrlIrqEn (d : Word) (g : Regs) : (g.setCtrl d).ctrlIrqEn = d.getLsbD 1 := rfl
@[simp] theorem Regs.setCtrl_busy (d : Word) (g : Regs) : (g.setCtrl d).busy = g.busy := rfl
@[simp] theorem Regs.setCtrl_done (d : Word) (g : Regs) : (g.setCtrl d).done = g.done := rfl
@[simp] theorem Regs.setCtrl_err (d : Word) (g : Regs) : (g.setCtrl d).err = g.err := rfl
@[simp] theorem Regs.setCtrl_cmdDropped (d : Word) (g : Regs) : (g.setCtrl d).cmdDropped = g.cmdDropped := rfl
@[simp] theorem Regs.setCtrl_wrIgnored (d : Word) (g : Regs) : (g.setCtrl d).wrIgnored = g.wrIgnored := rfl
@[simp] theorem Regs.setCtrl_errCode (d : Word) (g : Regs) : (g.setCtrl d).errCode = g.errCode := rfl
@[simp] theorem Regs.setCtrl_op (d : Word) (g : Regs) : (g.setCtrl d).op = g.op := rfl
@[simp] theorem Regs.setCtrl_phase (d : Word) (g : Regs) : (g.setCtrl d).phase = g.phase := rfl
@[simp] theorem Regs.setCtrl_stats (d : Word) (g : Regs) : (g.setCtrl d).stats = g.stats := rfl
@[simp] theorem Regs.setCtrl_src (d : Word) (g : Regs) : (g.setCtrl d).src = g.src := rfl
@[simp] theorem Regs.setCtrl_dst (d : Word) (g : Regs) : (g.setCtrl d).dst = g.dst := rfl
@[simp] theorem Regs.setCtrl_width (d : Word) (g : Regs) : (g.setCtrl d).width = g.width := rfl
@[simp] theorem Regs.setCtrl_height (d : Word) (g : Regs) : (g.setCtrl d).height = g.height := rfl
@[simp] theorem Regs.setCtrl_rawR (d : Word) (g : Regs) : (g.setCtrl d).rawR = g.rawR := rfl
@[simp] theorem Regs.setCtrl_rawG (d : Word) (g : Regs) : (g.setCtrl d).rawG = g.rawG := rfl
@[simp] theorem Regs.setCtrl_rawB (d : Word) (g : Regs) : (g.setCtrl d).rawB = g.rawB := rfl
@[simp] theorem Regs.setCtrl_wR (d : Word) (g : Regs) : (g.setCtrl d).wR = g.wR := rfl
@[simp] theorem Regs.setCtrl_wG (d : Word) (g : Regs) : (g.setCtrl d).wG = g.wG := rfl
@[simp] theorem Regs.setCtrl_wB (d : Word) (g : Regs) : (g.setCtrl d).wB = g.wB := rfl
@[simp] theorem Regs.setCtrl_brBits (d : Word) (g : Regs) : (g.setCtrl d).brBits = g.brBits := rfl
@[simp] theorem Regs.setCtrl_cBits (d : Word) (g : Regs) : (g.setCtrl d).cBits = g.cBits := rfl
@[simp] theorem Regs.setCtrl_statN (d : Word) (g : Regs) : (g.setCtrl d).statN = g.statN := rfl
@[simp] theorem Regs.setCtrl_s1 (d : Word) (g : Regs) : (g.setCtrl d).s1 = g.s1 := rfl
@[simp] theorem Regs.setCtrl_q (d : Word) (g : Regs) : (g.setCtrl d).q = g.q := rfl
@[simp] theorem Regs.setCtrl_progress (d : Word) (g : Regs) : (g.setCtrl d).progress = g.progress := rfl
@[simp] theorem Regs.setCtrl_faultAddr (d : Word) (g : Regs) : (g.setCtrl d).faultAddr = g.faultAddr := rfl
@[simp] theorem Regs.setCtrl_lut (d : Word) (g : Regs) : (g.setCtrl d).lut = g.lut := rfl
@[simp] theorem Regs.setCtrl_cl (d : Word) (g : Regs) : (g.setCtrl d).cl = g.cl := rfl

/-! `clearFlags` -/

@[simp] theorem Regs.clearFlags_ctrlContrastEn (d : Word) (g : Regs) : (g.clearFlags d).ctrlContrastEn = g.ctrlContrastEn := rfl
@[simp] theorem Regs.clearFlags_ctrlIrqEn (d : Word) (g : Regs) : (g.clearFlags d).ctrlIrqEn = g.ctrlIrqEn := rfl
@[simp] theorem Regs.clearFlags_busy (d : Word) (g : Regs) : (g.clearFlags d).busy = g.busy := rfl
@[simp] theorem Regs.clearFlags_done (d : Word) (g : Regs) : (g.clearFlags d).done = (g.done && !d.getLsbD 1) := rfl
@[simp] theorem Regs.clearFlags_err (d : Word) (g : Regs) : (g.clearFlags d).err = (g.err && !d.getLsbD 2) := rfl
@[simp] theorem Regs.clearFlags_cmdDropped (d : Word) (g : Regs) : (g.clearFlags d).cmdDropped = (g.cmdDropped && !d.getLsbD 3) := rfl
@[simp] theorem Regs.clearFlags_wrIgnored (d : Word) (g : Regs) : (g.clearFlags d).wrIgnored = (g.wrIgnored && !d.getLsbD 4) := rfl
@[simp] theorem Regs.clearFlags_errCode (d : Word) (g : Regs) : (g.clearFlags d).errCode = (if d.getLsbD 2 then .none else g.errCode) := rfl
@[simp] theorem Regs.clearFlags_op (d : Word) (g : Regs) : (g.clearFlags d).op = g.op := rfl
@[simp] theorem Regs.clearFlags_phase (d : Word) (g : Regs) : (g.clearFlags d).phase = g.phase := rfl
@[simp] theorem Regs.clearFlags_stats (d : Word) (g : Regs) : (g.clearFlags d).stats = g.stats := rfl
@[simp] theorem Regs.clearFlags_src (d : Word) (g : Regs) : (g.clearFlags d).src = g.src := rfl
@[simp] theorem Regs.clearFlags_dst (d : Word) (g : Regs) : (g.clearFlags d).dst = g.dst := rfl
@[simp] theorem Regs.clearFlags_width (d : Word) (g : Regs) : (g.clearFlags d).width = g.width := rfl
@[simp] theorem Regs.clearFlags_height (d : Word) (g : Regs) : (g.clearFlags d).height = g.height := rfl
@[simp] theorem Regs.clearFlags_rawR (d : Word) (g : Regs) : (g.clearFlags d).rawR = g.rawR := rfl
@[simp] theorem Regs.clearFlags_rawG (d : Word) (g : Regs) : (g.clearFlags d).rawG = g.rawG := rfl
@[simp] theorem Regs.clearFlags_rawB (d : Word) (g : Regs) : (g.clearFlags d).rawB = g.rawB := rfl
@[simp] theorem Regs.clearFlags_wR (d : Word) (g : Regs) : (g.clearFlags d).wR = g.wR := rfl
@[simp] theorem Regs.clearFlags_wG (d : Word) (g : Regs) : (g.clearFlags d).wG = g.wG := rfl
@[simp] theorem Regs.clearFlags_wB (d : Word) (g : Regs) : (g.clearFlags d).wB = g.wB := rfl
@[simp] theorem Regs.clearFlags_brBits (d : Word) (g : Regs) : (g.clearFlags d).brBits = g.brBits := rfl
@[simp] theorem Regs.clearFlags_cBits (d : Word) (g : Regs) : (g.clearFlags d).cBits = g.cBits := rfl
@[simp] theorem Regs.clearFlags_statN (d : Word) (g : Regs) : (g.clearFlags d).statN = g.statN := rfl
@[simp] theorem Regs.clearFlags_s1 (d : Word) (g : Regs) : (g.clearFlags d).s1 = g.s1 := rfl
@[simp] theorem Regs.clearFlags_q (d : Word) (g : Regs) : (g.clearFlags d).q = g.q := rfl
@[simp] theorem Regs.clearFlags_progress (d : Word) (g : Regs) : (g.clearFlags d).progress = g.progress := rfl
@[simp] theorem Regs.clearFlags_faultAddr (d : Word) (g : Regs) : (g.clearFlags d).faultAddr = g.faultAddr := rfl
@[simp] theorem Regs.clearFlags_lut (d : Word) (g : Regs) : (g.clearFlags d).lut = g.lut := rfl
@[simp] theorem Regs.clearFlags_cl (d : Word) (g : Regs) : (g.clearFlags d).cl = g.cl := rfl

/-! `normalized` -/

@[simp] theorem Regs.normalized_ctrlContrastEn (g : Regs) : (g.normalized).ctrlContrastEn = g.ctrlContrastEn := rfl
@[simp] theorem Regs.normalized_ctrlIrqEn (g : Regs) : (g.normalized).ctrlIrqEn = g.ctrlIrqEn := rfl
@[simp] theorem Regs.normalized_busy (g : Regs) : (g.normalized).busy = g.busy := rfl
@[simp] theorem Regs.normalized_done (g : Regs) : (g.normalized).done = g.done := rfl
@[simp] theorem Regs.normalized_err (g : Regs) : (g.normalized).err = g.err := rfl
@[simp] theorem Regs.normalized_cmdDropped (g : Regs) : (g.normalized).cmdDropped = g.cmdDropped := rfl
@[simp] theorem Regs.normalized_wrIgnored (g : Regs) : (g.normalized).wrIgnored = g.wrIgnored := rfl
@[simp] theorem Regs.normalized_errCode (g : Regs) : (g.normalized).errCode = g.errCode := rfl
@[simp] theorem Regs.normalized_op (g : Regs) : (g.normalized).op = g.op := rfl
@[simp] theorem Regs.normalized_phase (g : Regs) : (g.normalized).phase = g.phase := rfl
@[simp] theorem Regs.normalized_stats (g : Regs) : (g.normalized).stats = g.stats := rfl
@[simp] theorem Regs.normalized_src (g : Regs) : (g.normalized).src = g.src := rfl
@[simp] theorem Regs.normalized_dst (g : Regs) : (g.normalized).dst = g.dst := rfl
@[simp] theorem Regs.normalized_width (g : Regs) : (g.normalized).width = g.width := rfl
@[simp] theorem Regs.normalized_height (g : Regs) : (g.normalized).height = g.height := rfl
@[simp] theorem Regs.normalized_rawR (g : Regs) : (g.normalized).rawR = g.rawR := rfl
@[simp] theorem Regs.normalized_rawG (g : Regs) : (g.normalized).rawG = g.rawG := rfl
@[simp] theorem Regs.normalized_rawB (g : Regs) : (g.normalized).rawB = g.rawB := rfl
@[simp] theorem Regs.normalized_wR (g : Regs) : (g.normalized).wR = BitVec.ofNat 9 (g.weight .red) := rfl
@[simp] theorem Regs.normalized_wG (g : Regs) : (g.normalized).wG = BitVec.ofNat 9 (g.weight .green) := rfl
@[simp] theorem Regs.normalized_wB (g : Regs) : (g.normalized).wB = BitVec.ofNat 9 (g.weight .blue) := rfl
@[simp] theorem Regs.normalized_brBits (g : Regs) : (g.normalized).brBits = g.brBits := rfl
@[simp] theorem Regs.normalized_cBits (g : Regs) : (g.normalized).cBits = g.cBits := rfl
@[simp] theorem Regs.normalized_statN (g : Regs) : (g.normalized).statN = g.statN := rfl
@[simp] theorem Regs.normalized_s1 (g : Regs) : (g.normalized).s1 = g.s1 := rfl
@[simp] theorem Regs.normalized_q (g : Regs) : (g.normalized).q = g.q := rfl
@[simp] theorem Regs.normalized_progress (g : Regs) : (g.normalized).progress = g.progress := rfl
@[simp] theorem Regs.normalized_faultAddr (g : Regs) : (g.normalized).faultAddr = g.faultAddr := rfl
@[simp] theorem Regs.normalized_lut (g : Regs) : (g.normalized).lut = g.lut := rfl
@[simp] theorem Regs.normalized_cl (g : Regs) : (g.normalized).cl = g.cl := rfl

/-! `addSample` -/

@[simp] theorem Regs.addSample_ctrlContrastEn (v : Byte) (g : Regs) : (g.addSample v).ctrlContrastEn = g.ctrlContrastEn := rfl
@[simp] theorem Regs.addSample_ctrlIrqEn (v : Byte) (g : Regs) : (g.addSample v).ctrlIrqEn = g.ctrlIrqEn := rfl
@[simp] theorem Regs.addSample_busy (v : Byte) (g : Regs) : (g.addSample v).busy = g.busy := rfl
@[simp] theorem Regs.addSample_done (v : Byte) (g : Regs) : (g.addSample v).done = g.done := rfl
@[simp] theorem Regs.addSample_err (v : Byte) (g : Regs) : (g.addSample v).err = g.err := rfl
@[simp] theorem Regs.addSample_cmdDropped (v : Byte) (g : Regs) : (g.addSample v).cmdDropped = g.cmdDropped := rfl
@[simp] theorem Regs.addSample_wrIgnored (v : Byte) (g : Regs) : (g.addSample v).wrIgnored = g.wrIgnored := rfl
@[simp] theorem Regs.addSample_errCode (v : Byte) (g : Regs) : (g.addSample v).errCode = g.errCode := rfl
@[simp] theorem Regs.addSample_op (v : Byte) (g : Regs) : (g.addSample v).op = g.op := rfl
@[simp] theorem Regs.addSample_phase (v : Byte) (g : Regs) : (g.addSample v).phase = g.phase := rfl
@[simp] theorem Regs.addSample_stats (v : Byte) (g : Regs) : (g.addSample v).stats = g.stats := rfl
@[simp] theorem Regs.addSample_src (v : Byte) (g : Regs) : (g.addSample v).src = g.src := rfl
@[simp] theorem Regs.addSample_dst (v : Byte) (g : Regs) : (g.addSample v).dst = g.dst := rfl
@[simp] theorem Regs.addSample_width (v : Byte) (g : Regs) : (g.addSample v).width = g.width := rfl
@[simp] theorem Regs.addSample_height (v : Byte) (g : Regs) : (g.addSample v).height = g.height := rfl
@[simp] theorem Regs.addSample_rawR (v : Byte) (g : Regs) : (g.addSample v).rawR = g.rawR := rfl
@[simp] theorem Regs.addSample_rawG (v : Byte) (g : Regs) : (g.addSample v).rawG = g.rawG := rfl
@[simp] theorem Regs.addSample_rawB (v : Byte) (g : Regs) : (g.addSample v).rawB = g.rawB := rfl
@[simp] theorem Regs.addSample_wR (v : Byte) (g : Regs) : (g.addSample v).wR = g.wR := rfl
@[simp] theorem Regs.addSample_wG (v : Byte) (g : Regs) : (g.addSample v).wG = g.wG := rfl
@[simp] theorem Regs.addSample_wB (v : Byte) (g : Regs) : (g.addSample v).wB = g.wB := rfl
@[simp] theorem Regs.addSample_brBits (v : Byte) (g : Regs) : (g.addSample v).brBits = g.brBits := rfl
@[simp] theorem Regs.addSample_cBits (v : Byte) (g : Regs) : (g.addSample v).cBits = g.cBits := rfl
@[simp] theorem Regs.addSample_statN (v : Byte) (g : Regs) : (g.addSample v).statN = g.statN := rfl
@[simp] theorem Regs.addSample_s1 (v : Byte) (g : Regs) : (g.addSample v).s1 = BitVec.ofNat 40 (g.s1.toNat + v.toNat) := rfl
@[simp] theorem Regs.addSample_q (v : Byte) (g : Regs) : (g.addSample v).q = g.q := rfl
@[simp] theorem Regs.addSample_progress (v : Byte) (g : Regs) : (g.addSample v).progress = g.progress := rfl
@[simp] theorem Regs.addSample_faultAddr (v : Byte) (g : Regs) : (g.addSample v).faultAddr = g.faultAddr := rfl
@[simp] theorem Regs.addSample_lut (v : Byte) (g : Regs) : (g.addSample v).lut = g.lut := rfl
@[simp] theorem Regs.addSample_cl (v : Byte) (g : Regs) : (g.addSample v).cl = g.cl := rfl

/-! `addDeviation` -/

@[simp] theorem Regs.addDeviation_ctrlContrastEn (v : Byte) (g : Regs) : (g.addDeviation v).ctrlContrastEn = g.ctrlContrastEn := rfl
@[simp] theorem Regs.addDeviation_ctrlIrqEn (v : Byte) (g : Regs) : (g.addDeviation v).ctrlIrqEn = g.ctrlIrqEn := rfl
@[simp] theorem Regs.addDeviation_busy (v : Byte) (g : Regs) : (g.addDeviation v).busy = g.busy := rfl
@[simp] theorem Regs.addDeviation_done (v : Byte) (g : Regs) : (g.addDeviation v).done = g.done := rfl
@[simp] theorem Regs.addDeviation_err (v : Byte) (g : Regs) : (g.addDeviation v).err = g.err := rfl
@[simp] theorem Regs.addDeviation_cmdDropped (v : Byte) (g : Regs) : (g.addDeviation v).cmdDropped = g.cmdDropped := rfl
@[simp] theorem Regs.addDeviation_wrIgnored (v : Byte) (g : Regs) : (g.addDeviation v).wrIgnored = g.wrIgnored := rfl
@[simp] theorem Regs.addDeviation_errCode (v : Byte) (g : Regs) : (g.addDeviation v).errCode = g.errCode := rfl
@[simp] theorem Regs.addDeviation_op (v : Byte) (g : Regs) : (g.addDeviation v).op = g.op := rfl
@[simp] theorem Regs.addDeviation_phase (v : Byte) (g : Regs) : (g.addDeviation v).phase = g.phase := rfl
@[simp] theorem Regs.addDeviation_stats (v : Byte) (g : Regs) : (g.addDeviation v).stats = g.stats := rfl
@[simp] theorem Regs.addDeviation_src (v : Byte) (g : Regs) : (g.addDeviation v).src = g.src := rfl
@[simp] theorem Regs.addDeviation_dst (v : Byte) (g : Regs) : (g.addDeviation v).dst = g.dst := rfl
@[simp] theorem Regs.addDeviation_width (v : Byte) (g : Regs) : (g.addDeviation v).width = g.width := rfl
@[simp] theorem Regs.addDeviation_height (v : Byte) (g : Regs) : (g.addDeviation v).height = g.height := rfl
@[simp] theorem Regs.addDeviation_rawR (v : Byte) (g : Regs) : (g.addDeviation v).rawR = g.rawR := rfl
@[simp] theorem Regs.addDeviation_rawG (v : Byte) (g : Regs) : (g.addDeviation v).rawG = g.rawG := rfl
@[simp] theorem Regs.addDeviation_rawB (v : Byte) (g : Regs) : (g.addDeviation v).rawB = g.rawB := rfl
@[simp] theorem Regs.addDeviation_wR (v : Byte) (g : Regs) : (g.addDeviation v).wR = g.wR := rfl
@[simp] theorem Regs.addDeviation_wG (v : Byte) (g : Regs) : (g.addDeviation v).wG = g.wG := rfl
@[simp] theorem Regs.addDeviation_wB (v : Byte) (g : Regs) : (g.addDeviation v).wB = g.wB := rfl
@[simp] theorem Regs.addDeviation_brBits (v : Byte) (g : Regs) : (g.addDeviation v).brBits = g.brBits := rfl
@[simp] theorem Regs.addDeviation_cBits (v : Byte) (g : Regs) : (g.addDeviation v).cBits = g.cBits := rfl
@[simp] theorem Regs.addDeviation_statN (v : Byte) (g : Regs) : (g.addDeviation v).statN = g.statN := rfl
@[simp] theorem Regs.addDeviation_s1 (v : Byte) (g : Regs) : (g.addDeviation v).s1 = g.s1 := rfl
@[simp] theorem Regs.addDeviation_q (v : Byte) (g : Regs) : (g.addDeviation v).q = BitVec.ofNat 128 (g.q.toNat + g.squaredDeviation v) := rfl
@[simp] theorem Regs.addDeviation_progress (v : Byte) (g : Regs) : (g.addDeviation v).progress = g.progress := rfl
@[simp] theorem Regs.addDeviation_faultAddr (v : Byte) (g : Regs) : (g.addDeviation v).faultAddr = g.faultAddr := rfl
@[simp] theorem Regs.addDeviation_lut (v : Byte) (g : Regs) : (g.addDeviation v).lut = g.lut := rfl
@[simp] theorem Regs.addDeviation_cl (v : Byte) (g : Regs) : (g.addDeviation v).cl = g.cl := rfl

/-! `buildEntry` -/

@[simp] theorem Regs.buildEntry_ctrlContrastEn (g : Regs) : (g.buildEntry).ctrlContrastEn = g.ctrlContrastEn := rfl
@[simp] theorem Regs.buildEntry_ctrlIrqEn (g : Regs) : (g.buildEntry).ctrlIrqEn = g.ctrlIrqEn := rfl
@[simp] theorem Regs.buildEntry_busy (g : Regs) : (g.buildEntry).busy = g.busy := rfl
@[simp] theorem Regs.buildEntry_done (g : Regs) : (g.buildEntry).done = g.done := rfl
@[simp] theorem Regs.buildEntry_err (g : Regs) : (g.buildEntry).err = g.err := rfl
@[simp] theorem Regs.buildEntry_cmdDropped (g : Regs) : (g.buildEntry).cmdDropped = g.cmdDropped := rfl
@[simp] theorem Regs.buildEntry_wrIgnored (g : Regs) : (g.buildEntry).wrIgnored = g.wrIgnored := rfl
@[simp] theorem Regs.buildEntry_errCode (g : Regs) : (g.buildEntry).errCode = g.errCode := rfl
@[simp] theorem Regs.buildEntry_op (g : Regs) : (g.buildEntry).op = g.op := rfl
@[simp] theorem Regs.buildEntry_phase (g : Regs) : (g.buildEntry).phase = g.phase := rfl
@[simp] theorem Regs.buildEntry_stats (g : Regs) : (g.buildEntry).stats = g.stats := rfl
@[simp] theorem Regs.buildEntry_src (g : Regs) : (g.buildEntry).src = g.src := rfl
@[simp] theorem Regs.buildEntry_dst (g : Regs) : (g.buildEntry).dst = g.dst := rfl
@[simp] theorem Regs.buildEntry_width (g : Regs) : (g.buildEntry).width = g.width := rfl
@[simp] theorem Regs.buildEntry_height (g : Regs) : (g.buildEntry).height = g.height := rfl
@[simp] theorem Regs.buildEntry_rawR (g : Regs) : (g.buildEntry).rawR = g.rawR := rfl
@[simp] theorem Regs.buildEntry_rawG (g : Regs) : (g.buildEntry).rawG = g.rawG := rfl
@[simp] theorem Regs.buildEntry_rawB (g : Regs) : (g.buildEntry).rawB = g.rawB := rfl
@[simp] theorem Regs.buildEntry_wR (g : Regs) : (g.buildEntry).wR = g.wR := rfl
@[simp] theorem Regs.buildEntry_wG (g : Regs) : (g.buildEntry).wG = g.wG := rfl
@[simp] theorem Regs.buildEntry_wB (g : Regs) : (g.buildEntry).wB = g.wB := rfl
@[simp] theorem Regs.buildEntry_brBits (g : Regs) : (g.buildEntry).brBits = g.brBits := rfl
@[simp] theorem Regs.buildEntry_cBits (g : Regs) : (g.buildEntry).cBits = g.cBits := rfl
@[simp] theorem Regs.buildEntry_statN (g : Regs) : (g.buildEntry).statN = g.statN := rfl
@[simp] theorem Regs.buildEntry_s1 (g : Regs) : (g.buildEntry).s1 = g.s1 := rfl
@[simp] theorem Regs.buildEntry_q (g : Regs) : (g.buildEntry).q = g.q := rfl
@[simp] theorem Regs.buildEntry_progress (g : Regs) : (g.buildEntry).progress = g.progress := rfl
@[simp] theorem Regs.buildEntry_faultAddr (g : Regs) : (g.buildEntry).faultAddr = g.faultAddr := rfl
@[simp] theorem Regs.buildEntry_lut (g : Regs) : (g.buildEntry).lut = g.lut.put (BitVec.ofNat 8 g.progress.toNat) (g.tableEntry g.progress.toNat) := rfl
@[simp] theorem Regs.buildEntry_cl (g : Regs) : (g.buildEntry).cl = g.cl := rfl

/-! `note` -/

@[simp] theorem Platform.note_mem (kind : AccessKind) (a : Word) (ok : Bool) (p : Platform) : (p.note kind a ok).mem = p.mem := rfl
@[simp] theorem Platform.note_busErrs (kind : AccessKind) (a : Word) (ok : Bool) (p : Platform) : (p.note kind a ok).busErrs = p.busErrs := rfl
@[simp] theorem Platform.note_coherent (kind : AccessKind) (a : Word) (ok : Bool) (p : Platform) : (p.note kind a ok).coherent = p.coherent := rfl
@[simp] theorem Platform.note_raced (kind : AccessKind) (a : Word) (ok : Bool) (p : Platform) : (p.note kind a ok).raced = p.raced := rfl
@[simp] theorem Platform.note_unclean (kind : AccessKind) (a : Word) (ok : Bool) (p : Platform) : (p.note kind a ok).unclean = p.unclean := rfl
@[simp] theorem Platform.note_stale (kind : AccessKind) (a : Word) (ok : Bool) (p : Platform) : (p.note kind a ok).stale = p.stale := rfl
@[simp] theorem Platform.note_draws (kind : AccessKind) (a : Word) (ok : Bool) (p : Platform) : (p.note kind a ok).draws = p.draws := rfl
@[simp] theorem Platform.note_dmaLog (kind : AccessKind) (a : Word) (ok : Bool) (p : Platform) : (p.note kind a ok).dmaLog = ⟨kind, a, ok⟩ :: p.dmaLog := rfl

/-! `drew` -/

@[simp] theorem Platform.drew_mem (p : Platform) : (p.drew).mem = p.mem := rfl
@[simp] theorem Platform.drew_busErrs (p : Platform) : (p.drew).busErrs = p.busErrs := rfl
@[simp] theorem Platform.drew_coherent (p : Platform) : (p.drew).coherent = p.coherent := rfl
@[simp] theorem Platform.drew_raced (p : Platform) : (p.drew).raced = p.raced := rfl
@[simp] theorem Platform.drew_unclean (p : Platform) : (p.drew).unclean = p.unclean := rfl
@[simp] theorem Platform.drew_stale (p : Platform) : (p.drew).stale = p.stale := rfl
@[simp] theorem Platform.drew_draws (p : Platform) : (p.drew).draws = p.draws + 1 := rfl
@[simp] theorem Platform.drew_dmaLog (p : Platform) : (p.drew).dmaLog = p.dmaLog := rfl

/-! `drawAt` -/

@[simp] theorem Platform.drawAt_mem (a : Word) (p : Platform) : (p.drawAt a).mem = p.mem.write a p.fresh := rfl
@[simp] theorem Platform.drawAt_busErrs (a : Word) (p : Platform) : (p.drawAt a).busErrs = p.busErrs := rfl
@[simp] theorem Platform.drawAt_coherent (a : Word) (p : Platform) : (p.drawAt a).coherent = p.coherent := rfl
@[simp] theorem Platform.drawAt_raced (a : Word) (p : Platform) : (p.drawAt a).raced = p.raced := rfl
@[simp] theorem Platform.drawAt_unclean (a : Word) (p : Platform) : (p.drawAt a).unclean = p.unclean := rfl
@[simp] theorem Platform.drawAt_stale (a : Word) (p : Platform) : (p.drawAt a).stale = p.stale := rfl
@[simp] theorem Platform.drawAt_draws (a : Word) (p : Platform) : (p.drawAt a).draws = p.draws + 1 := rfl
@[simp] theorem Platform.drawAt_dmaLog (a : Word) (p : Platform) : (p.drawAt a).dmaLog = p.dmaLog := rfl

/-! `wroteStale` -/

@[simp] theorem Platform.wroteStale_mem (a : Word) (p : Platform) : (p.wroteStale a).mem = p.mem := rfl
@[simp] theorem Platform.wroteStale_busErrs (a : Word) (p : Platform) : (p.wroteStale a).busErrs = p.busErrs := rfl
@[simp] theorem Platform.wroteStale_coherent (a : Word) (p : Platform) : (p.wroteStale a).coherent = p.coherent := rfl
@[simp] theorem Platform.wroteStale_raced (a : Word) (p : Platform) : (p.wroteStale a).raced = p.raced := rfl
@[simp] theorem Platform.wroteStale_unclean (a : Word) (p : Platform) : (p.wroteStale a).unclean = p.unclean := rfl
@[simp] theorem Platform.wroteStale_stale (a : Word) (p : Platform) : (p.wroteStale a).stale = if p.coherent || p.stale.contains a then p.stale else a :: p.stale := rfl
@[simp] theorem Platform.wroteStale_draws (a : Word) (p : Platform) : (p.wroteStale a).draws = p.draws := rfl
@[simp] theorem Platform.wroteStale_dmaLog (a : Word) (p : Platform) : (p.wroteStale a).dmaLog = p.dmaLog := rfl

/-! `settle` -/

@[simp] theorem Platform.settle_mem (p : Platform) : (p.settle).mem = p.mem := rfl
@[simp] theorem Platform.settle_busErrs (p : Platform) : (p.settle).busErrs = p.busErrs := rfl
@[simp] theorem Platform.settle_coherent (p : Platform) : (p.settle).coherent = p.coherent := rfl
@[simp] theorem Platform.settle_raced (p : Platform) : (p.settle).raced = [] := rfl
@[simp] theorem Platform.settle_unclean (p : Platform) : (p.settle).unclean = p.unclean := rfl
@[simp] theorem Platform.settle_stale (p : Platform) : (p.settle).stale = p.stale := rfl
@[simp] theorem Platform.settle_draws (p : Platform) : (p.settle).draws = p.draws := rfl
@[simp] theorem Platform.settle_dmaLog (p : Platform) : (p.settle).dmaLog = p.dmaLog := rfl

/-! `enterPhase` and `leavePhase`: the fields no phase touches, then the ones every phase sets alike -/

@[simp] theorem Regs.enterPhase_ctrlContrastEn (ph : Phase) (g : Regs) : (g.enterPhase ph).ctrlContrastEn = g.ctrlContrastEn := by
  cases ph <;> rfl
@[simp] theorem Regs.enterPhase_ctrlIrqEn (ph : Phase) (g : Regs) : (g.enterPhase ph).ctrlIrqEn = g.ctrlIrqEn := by
  cases ph <;> rfl
@[simp] theorem Regs.enterPhase_busy (ph : Phase) (g : Regs) : (g.enterPhase ph).busy = g.busy := by
  cases ph <;> rfl
@[simp] theorem Regs.enterPhase_done (ph : Phase) (g : Regs) : (g.enterPhase ph).done = g.done := by
  cases ph <;> rfl
@[simp] theorem Regs.enterPhase_err (ph : Phase) (g : Regs) : (g.enterPhase ph).err = g.err := by
  cases ph <;> rfl
@[simp] theorem Regs.enterPhase_cmdDropped (ph : Phase) (g : Regs) : (g.enterPhase ph).cmdDropped = g.cmdDropped := by
  cases ph <;> rfl
@[simp] theorem Regs.enterPhase_wrIgnored (ph : Phase) (g : Regs) : (g.enterPhase ph).wrIgnored = g.wrIgnored := by
  cases ph <;> rfl
@[simp] theorem Regs.enterPhase_errCode (ph : Phase) (g : Regs) : (g.enterPhase ph).errCode = g.errCode := by
  cases ph <;> rfl
@[simp] theorem Regs.enterPhase_op (ph : Phase) (g : Regs) : (g.enterPhase ph).op = g.op := by
  cases ph <;> rfl
@[simp] theorem Regs.enterPhase_src (ph : Phase) (g : Regs) : (g.enterPhase ph).src = g.src := by
  cases ph <;> rfl
@[simp] theorem Regs.enterPhase_dst (ph : Phase) (g : Regs) : (g.enterPhase ph).dst = g.dst := by
  cases ph <;> rfl
@[simp] theorem Regs.enterPhase_width (ph : Phase) (g : Regs) : (g.enterPhase ph).width = g.width := by
  cases ph <;> rfl
@[simp] theorem Regs.enterPhase_height (ph : Phase) (g : Regs) : (g.enterPhase ph).height = g.height := by
  cases ph <;> rfl
@[simp] theorem Regs.enterPhase_rawR (ph : Phase) (g : Regs) : (g.enterPhase ph).rawR = g.rawR := by
  cases ph <;> rfl
@[simp] theorem Regs.enterPhase_rawG (ph : Phase) (g : Regs) : (g.enterPhase ph).rawG = g.rawG := by
  cases ph <;> rfl
@[simp] theorem Regs.enterPhase_rawB (ph : Phase) (g : Regs) : (g.enterPhase ph).rawB = g.rawB := by
  cases ph <;> rfl
@[simp] theorem Regs.enterPhase_wR (ph : Phase) (g : Regs) : (g.enterPhase ph).wR = g.wR := by
  cases ph <;> rfl
@[simp] theorem Regs.enterPhase_wG (ph : Phase) (g : Regs) : (g.enterPhase ph).wG = g.wG := by
  cases ph <;> rfl
@[simp] theorem Regs.enterPhase_wB (ph : Phase) (g : Regs) : (g.enterPhase ph).wB = g.wB := by
  cases ph <;> rfl
@[simp] theorem Regs.enterPhase_brBits (ph : Phase) (g : Regs) : (g.enterPhase ph).brBits = g.brBits := by
  cases ph <;> rfl
@[simp] theorem Regs.enterPhase_cBits (ph : Phase) (g : Regs) : (g.enterPhase ph).cBits = g.cBits := by
  cases ph <;> rfl
@[simp] theorem Regs.enterPhase_faultAddr (ph : Phase) (g : Regs) : (g.enterPhase ph).faultAddr = g.faultAddr := by
  cases ph <;> rfl
@[simp] theorem Regs.enterPhase_lut (ph : Phase) (g : Regs) : (g.enterPhase ph).lut = g.lut := by
  cases ph <;> rfl
@[simp] theorem Regs.enterPhase_cl (ph : Phase) (g : Regs) : (g.enterPhase ph).cl = g.cl := by
  cases ph <;> rfl
@[simp] theorem Regs.enterPhase_phase (ph : Phase) (g : Regs) : (g.enterPhase ph).phase = ph := by
  cases ph <;> rfl
@[simp] theorem Regs.enterPhase_progress (ph : Phase) (g : Regs) : (g.enterPhase ph).progress = 0#32 := by
  cases ph <;> rfl
@[simp] theorem Regs.leavePhase_ctrlContrastEn (ph : Phase) (g : Regs) : (g.leavePhase ph).ctrlContrastEn = g.ctrlContrastEn := by
  cases ph <;> rfl
@[simp] theorem Regs.leavePhase_ctrlIrqEn (ph : Phase) (g : Regs) : (g.leavePhase ph).ctrlIrqEn = g.ctrlIrqEn := by
  cases ph <;> rfl
@[simp] theorem Regs.leavePhase_busy (ph : Phase) (g : Regs) : (g.leavePhase ph).busy = g.busy := by
  cases ph <;> rfl
@[simp] theorem Regs.leavePhase_done (ph : Phase) (g : Regs) : (g.leavePhase ph).done = g.done := by
  cases ph <;> rfl
@[simp] theorem Regs.leavePhase_err (ph : Phase) (g : Regs) : (g.leavePhase ph).err = g.err := by
  cases ph <;> rfl
@[simp] theorem Regs.leavePhase_cmdDropped (ph : Phase) (g : Regs) : (g.leavePhase ph).cmdDropped = g.cmdDropped := by
  cases ph <;> rfl
@[simp] theorem Regs.leavePhase_wrIgnored (ph : Phase) (g : Regs) : (g.leavePhase ph).wrIgnored = g.wrIgnored := by
  cases ph <;> rfl
@[simp] theorem Regs.leavePhase_errCode (ph : Phase) (g : Regs) : (g.leavePhase ph).errCode = g.errCode := by
  cases ph <;> rfl
@[simp] theorem Regs.leavePhase_op (ph : Phase) (g : Regs) : (g.leavePhase ph).op = g.op := by
  cases ph <;> rfl
@[simp] theorem Regs.leavePhase_phase (ph : Phase) (g : Regs) : (g.leavePhase ph).phase = g.phase := by
  cases ph <;> rfl
@[simp] theorem Regs.leavePhase_src (ph : Phase) (g : Regs) : (g.leavePhase ph).src = g.src := by
  cases ph <;> rfl
@[simp] theorem Regs.leavePhase_dst (ph : Phase) (g : Regs) : (g.leavePhase ph).dst = g.dst := by
  cases ph <;> rfl
@[simp] theorem Regs.leavePhase_width (ph : Phase) (g : Regs) : (g.leavePhase ph).width = g.width := by
  cases ph <;> rfl
@[simp] theorem Regs.leavePhase_height (ph : Phase) (g : Regs) : (g.leavePhase ph).height = g.height := by
  cases ph <;> rfl
@[simp] theorem Regs.leavePhase_rawR (ph : Phase) (g : Regs) : (g.leavePhase ph).rawR = g.rawR := by
  cases ph <;> rfl
@[simp] theorem Regs.leavePhase_rawG (ph : Phase) (g : Regs) : (g.leavePhase ph).rawG = g.rawG := by
  cases ph <;> rfl
@[simp] theorem Regs.leavePhase_rawB (ph : Phase) (g : Regs) : (g.leavePhase ph).rawB = g.rawB := by
  cases ph <;> rfl
@[simp] theorem Regs.leavePhase_wR (ph : Phase) (g : Regs) : (g.leavePhase ph).wR = g.wR := by
  cases ph <;> rfl
@[simp] theorem Regs.leavePhase_wG (ph : Phase) (g : Regs) : (g.leavePhase ph).wG = g.wG := by
  cases ph <;> rfl
@[simp] theorem Regs.leavePhase_wB (ph : Phase) (g : Regs) : (g.leavePhase ph).wB = g.wB := by
  cases ph <;> rfl
@[simp] theorem Regs.leavePhase_brBits (ph : Phase) (g : Regs) : (g.leavePhase ph).brBits = g.brBits := by
  cases ph <;> rfl
@[simp] theorem Regs.leavePhase_cBits (ph : Phase) (g : Regs) : (g.leavePhase ph).cBits = g.cBits := by
  cases ph <;> rfl
@[simp] theorem Regs.leavePhase_statN (ph : Phase) (g : Regs) : (g.leavePhase ph).statN = g.statN := by
  cases ph <;> rfl
@[simp] theorem Regs.leavePhase_s1 (ph : Phase) (g : Regs) : (g.leavePhase ph).s1 = g.s1 := by
  cases ph <;> rfl
@[simp] theorem Regs.leavePhase_q (ph : Phase) (g : Regs) : (g.leavePhase ph).q = g.q := by
  cases ph <;> rfl
@[simp] theorem Regs.leavePhase_progress (ph : Phase) (g : Regs) : (g.leavePhase ph).progress = g.progress := by
  cases ph <;> rfl
@[simp] theorem Regs.leavePhase_faultAddr (ph : Phase) (g : Regs) : (g.leavePhase ph).faultAddr = g.faultAddr := by
  cases ph <;> rfl
@[simp] theorem Regs.leavePhase_lut (ph : Phase) (g : Regs) : (g.leavePhase ph).lut = g.lut := by
  cases ph <;> rfl
@[simp] theorem Regs.leavePhase_cl (ph : Phase) (g : Regs) : (g.leavePhase ph).cl = g.cl := by
  cases ph <;> rfl

/-! Operand quantities read only operand registers, so no update of the lifecycle changes them. -/

theorem Regs.pixels_congr {g h : Regs} (hw : h.width = g.width) (hh : h.height = g.height) : h.pixels = g.pixels := by
  simp [Regs.pixels, hw, hh]

theorem Regs.rawSum_congr {g h : Regs} (hr : h.rawR = g.rawR) (hg : h.rawG = g.rawG) (hb : h.rawB = g.rawB) :
    h.rawSum = g.rawSum := by
  simp [Regs.rawSum, hr, hg, hb]

@[simp] theorem Regs.acceptBase_pixels (opcode : BitVec 4) (g : Regs) : (g.acceptBase opcode).pixels = g.pixels := rfl
@[simp] theorem Regs.acceptBase_rawSum (opcode : BitVec 4) (g : Regs) : (g.acceptBase opcode).rawSum = g.rawSum := rfl
@[simp] theorem Regs.setBusy_pixels (g : Regs) : g.setBusy.pixels = g.pixels := rfl
@[simp] theorem Regs.countUnit_pixels (g : Regs) : g.countUnit.pixels = g.pixels := rfl
@[simp] theorem Regs.complete_pixels (g : Regs) : g.complete.pixels = g.pixels := rfl
@[simp] theorem Regs.latchContrast_pixels (g : Regs) : g.latchContrast.pixels = g.pixels := rfl
@[simp] theorem Regs.enterPhase_pixels (ph : Phase) (g : Regs) : (g.enterPhase ph).pixels = g.pixels := by
  cases ph <;> rfl
@[simp] theorem Regs.leavePhase_pixels (ph : Phase) (g : Regs) : (g.leavePhase ph).pixels = g.pixels := by
  cases ph <;> rfl

/-- N fits its 32-bit registers (R304). -/
theorem Regs.pixels_lt (g : Regs) : g.pixels < 2 ^ 32 := by
  have hw := g.width.isLt
  have hh := g.height.isLt
  have : g.pixels ≤ (2 ^ 16 - 1) * (2 ^ 16 - 1) := Nat.mul_le_mul (by omega) (by omega)
  omega

end Sys2Proof.Machine
end

