-- ==== Sys2Proof/Laws/Dma.lean ====
section
/-! SUPPORT. The DMA port: what an access can answer, what it leaves unchanged, and how accesses chain. -/

namespace Sys2Proof.Machine

/-! ### Chaining -/

@[simp] theorem Dma.bind_ok {α β : Type} (v : α) (p : Platform) (f : α → Platform → Dma β) :
    (Dma.ok v p).bind f = f v p := rfl
@[simp] theorem Dma.bind_buserr {α β : Type} (a : Word) (p : Platform) (f : α → Platform → Dma β) :
    (Dma.buserr a p : Dma α).bind f = .buserr a p := rfl
@[simp] theorem Dma.bind_outside {α β : Type} (f : α → Platform → Dma β) :
    (Dma.outside : Dma α).bind f = .outside := rfl

/-- A chain is answered ok exactly when each of its parts is. -/
theorem Dma.bind_eq_ok {α β : Type} {x : Dma α} {f : α → Platform → Dma β} {v : β} {p : Platform} :
    x.bind f = .ok v p ↔ ∃ u q, x = .ok u q ∧ f u q = .ok v p := by
  cases x <;> simp [Dma.bind]

/-- A chain ends in buserr at its first part that does. -/
theorem Dma.bind_eq_buserr {α β : Type} {x : Dma α} {f : α → Platform → Dma β} {a : Word} {p : Platform} :
    x.bind f = .buserr a p ↔ x = .buserr a p ∨ ∃ u q, x = .ok u q ∧ f u q = .buserr a p := by
  cases x <;> simp [Dma.bind]

/-- A chain leaves the address space at its first part that does. -/
theorem Dma.bind_eq_outside {α β : Type} {x : Dma α} {f : α → Platform → Dma β} :
    x.bind f = .outside ↔ x = .outside ∨ ∃ u q, x = .ok u q ∧ f u q = .outside := by
  cases x <;> simp [Dma.bind]

/-! ### The platform's answers depend on no bookkeeping -/

@[simp] theorem Platform.note_busErr (kind k : AccessKind) (a b : Word) (ok : Bool) (p : Platform) :
    (p.note k b ok).busErr kind a = p.busErr kind a := rfl
@[simp] theorem Platform.drew_busErr (kind : AccessKind) (a : Word) (p : Platform) :
    p.drew.busErr kind a = p.busErr kind a := rfl
@[simp] theorem Platform.drawAt_busErr (kind : AccessKind) (a b : Word) (p : Platform) :
    (p.drawAt b).busErr kind a = p.busErr kind a := rfl
@[simp] theorem Platform.wroteStale_busErr (kind : AccessKind) (a b : Word) (p : Platform) :
    (p.wroteStale b).busErr kind a = p.busErr kind a := rfl
@[simp] theorem Platform.note_anyValue (k : AccessKind) (a b : Word) (ok : Bool) (p : Platform) :
    (p.note k b ok).anyValue a = p.anyValue a := rfl
@[simp] theorem Platform.drew_anyValue (a : Word) (p : Platform) : p.drew.anyValue a = p.anyValue a := rfl
@[simp] theorem Platform.drawAt_anyValue (a b : Word) (p : Platform) : (p.drawAt b).anyValue a = p.anyValue a := rfl
@[simp] theorem Platform.wroteStale_anyValue (a b : Word) (p : Platform) :
    (p.wroteStale b).anyValue a = p.anyValue a := rfl

/-! ### One read -/

theorem dmaRead_outside {a : Nat} (h : ¬ a < 2 ^ 32) (p : Platform) : dmaRead a p = .outside := by
  rw [dmaRead, if_neg h]

theorem dmaRead_buserr {a : Nat} {p : Platform} (h : a < 2 ^ 32) (hb : p.busErr .read (BitVec.ofNat 32 a) = true) :
    dmaRead a p = .buserr (BitVec.ofNat 32 a) (p.note .read (BitVec.ofNat 32 a) false) := by
  simp only [dmaRead, if_pos h, hb, if_true]

theorem dmaRead_any {a : Nat} {p : Platform} (h : a < 2 ^ 32) (hb : p.busErr .read (BitVec.ofNat 32 a) = false)
    (hc : p.anyValue (BitVec.ofNat 32 a) = true) :
    dmaRead a p = .ok p.fresh (p.drew.note .read (BitVec.ofNat 32 a) true) := by
  simp only [dmaRead, if_pos h, hb, hc, if_true, Bool.false_eq_true, if_false]

theorem dmaRead_plain {a : Nat} {p : Platform} (h : a < 2 ^ 32) (hb : p.busErr .read (BitVec.ofNat 32 a) = false)
    (hc : p.anyValue (BitVec.ofNat 32 a) = false) :
    dmaRead a p = .ok (p.mem.read (BitVec.ofNat 32 a)) (p.note .read (BitVec.ofNat 32 a) true) := by
  simp only [dmaRead, if_pos h, hb, hc, Bool.false_eq_true, if_false]

/-- The four answers of a read, and when each is given. -/
theorem dmaRead_cases (a : Nat) (p : Platform) :
    (¬ a < 2 ^ 32 ∧ dmaRead a p = .outside) ∨
    (a < 2 ^ 32 ∧ p.busErr .read (BitVec.ofNat 32 a) = true ∧
      dmaRead a p = .buserr (BitVec.ofNat 32 a) (p.note .read (BitVec.ofNat 32 a) false)) ∨
    (a < 2 ^ 32 ∧ p.busErr .read (BitVec.ofNat 32 a) = false ∧ p.anyValue (BitVec.ofNat 32 a) = true ∧
      dmaRead a p = .ok p.fresh (p.drew.note .read (BitVec.ofNat 32 a) true)) ∨
    (a < 2 ^ 32 ∧ p.busErr .read (BitVec.ofNat 32 a) = false ∧ p.anyValue (BitVec.ofNat 32 a) = false ∧
      dmaRead a p = .ok (p.mem.read (BitVec.ofNat 32 a)) (p.note .read (BitVec.ofNat 32 a) true)) := by
  by_cases h : a < 2 ^ 32
  · cases hb : p.busErr .read (BitVec.ofNat 32 a)
    · cases hc : p.anyValue (BitVec.ofNat 32 a)
      · exact .inr (.inr (.inr ⟨h, rfl, rfl, dmaRead_plain h hb hc⟩))
      · exact .inr (.inr (.inl ⟨h, rfl, rfl, dmaRead_any h hb hc⟩))
    · exact .inr (.inl ⟨h, rfl, dmaRead_buserr h hb⟩)
  · exact .inl ⟨h, dmaRead_outside h p⟩

/-- What a read never changes: everything of the platform but the draws and the log. -/
structure Platform.SameMemory (p q : Platform) : Prop where
  mem : q.mem = p.mem
  busErrs : q.busErrs = p.busErrs
  coherent : q.coherent = p.coherent
  raced : q.raced = p.raced
  unclean : q.unclean = p.unclean
  stale : q.stale = p.stale

theorem dmaRead_ok_frame {a : Nat} {p p' : Platform} {v : Byte} (h : dmaRead a p = .ok v p') :
    a < 2 ^ 32 ∧ p.busErr .read (BitVec.ofNat 32 a) = false ∧ p.SameMemory p' := by
  rcases dmaRead_cases a p with ⟨_, e⟩ | ⟨_, _, e⟩ | ⟨ha, hb, _, e⟩ | ⟨ha, hb, _, e⟩ <;> rw [e] at h
  · cases h
  · cases h
  · cases h; exact ⟨ha, hb, ⟨rfl, rfl, rfl, rfl, rfl, rfl⟩⟩
  · cases h; exact ⟨ha, hb, ⟨rfl, rfl, rfl, rfl, rfl, rfl⟩⟩

theorem dmaRead_buserr_frame {a : Nat} {w : Word} {p p' : Platform} (h : dmaRead a p = .buserr w p') :
    a < 2 ^ 32 ∧ w = BitVec.ofNat 32 a ∧ p.busErr .read w = true ∧ p' = p.note .read w false := by
  rcases dmaRead_cases a p with ⟨_, e⟩ | ⟨ha, hb, e⟩ | ⟨_, _, _, e⟩ | ⟨_, _, _, e⟩ <;> rw [e] at h
  · cases h
  · cases h; exact ⟨ha, rfl, hb, rfl⟩
  · cases h
  · cases h

theorem dmaRead_not_outside {a : Nat} (h : a < 2 ^ 32) (p : Platform) : dmaRead a p ≠ .outside := by
  rcases dmaRead_cases a p with ⟨h', _⟩ | ⟨_, _, e⟩ | ⟨_, _, _, e⟩ | ⟨_, _, _, e⟩
  · exact absurd h h'
  all_goals rw [e]; simp

/-! ### One write -/

theorem dmaWrite_outside {a : Nat} (h : ¬ a < 2 ^ 32) (v : Byte) (p : Platform) : dmaWrite a v p = .outside := by
  rw [dmaWrite, if_neg h]

theorem dmaWrite_buserr {a : Nat} {p : Platform} (v : Byte) (h : a < 2 ^ 32)
    (hb : p.busErr .write (BitVec.ofNat 32 a) = true) :
    dmaWrite a v p = .buserr (BitVec.ofNat 32 a)
      (((p.drawAt (BitVec.ofNat 32 a)).wroteStale (BitVec.ofNat 32 a)).note .write (BitVec.ofNat 32 a) false) := by
  simp only [dmaWrite, if_pos h, hb, if_true]

theorem dmaWrite_any {a : Nat} {p : Platform} (v : Byte) (h : a < 2 ^ 32)
    (hb : p.busErr .write (BitVec.ofNat 32 a) = false) (hc : p.anyValue (BitVec.ofNat 32 a) = true) :
    dmaWrite a v p = .ok ()
      (((p.drawAt (BitVec.ofNat 32 a)).wroteStale (BitVec.ofNat 32 a)).note .write (BitVec.ofNat 32 a) true) := by
  simp only [dmaWrite, if_pos h, hb, hc, if_true, Bool.false_eq_true, if_false]

theorem dmaWrite_plain {a : Nat} {p : Platform} (v : Byte) (h : a < 2 ^ 32)
    (hb : p.busErr .write (BitVec.ofNat 32 a) = false) (hc : p.anyValue (BitVec.ofNat 32 a) = false) :
    dmaWrite a v p = .ok ()
      ((({ p with mem := p.mem.write (BitVec.ofNat 32 a) v } : Platform).wroteStale (BitVec.ofNat 32 a)).note .write
        (BitVec.ofNat 32 a) true) := by
  simp only [dmaWrite, if_pos h, hb, hc, Bool.false_eq_true, if_false]

/-- The four answers of a write, and when each is given. -/
theorem dmaWrite_cases (a : Nat) (v : Byte) (p : Platform) :
    (¬ a < 2 ^ 32 ∧ dmaWrite a v p = .outside) ∨
    (a < 2 ^ 32 ∧ p.busErr .write (BitVec.ofNat 32 a) = true ∧
      dmaWrite a v p = .buserr (BitVec.ofNat 32 a)
        (((p.drawAt (BitVec.ofNat 32 a)).wroteStale (BitVec.ofNat 32 a)).note .write (BitVec.ofNat 32 a) false)) ∨
    (a < 2 ^ 32 ∧ p.busErr .write (BitVec.ofNat 32 a) = false ∧ p.anyValue (BitVec.ofNat 32 a) = true ∧
      dmaWrite a v p = .ok ()
        (((p.drawAt (BitVec.ofNat 32 a)).wroteStale (BitVec.ofNat 32 a)).note .write (BitVec.ofNat 32 a) true)) ∨
    (a < 2 ^ 32 ∧ p.busErr .write (BitVec.ofNat 32 a) = false ∧ p.anyValue (BitVec.ofNat 32 a) = false ∧
      dmaWrite a v p = .ok ()
        ((({ p with mem := p.mem.write (BitVec.ofNat 32 a) v } : Platform).wroteStale (BitVec.ofNat 32 a)).note .write
          (BitVec.ofNat 32 a) true)) := by
  by_cases h : a < 2 ^ 32
  · cases hb : p.busErr .write (BitVec.ofNat 32 a)
    · cases hc : p.anyValue (BitVec.ofNat 32 a)
      · exact .inr (.inr (.inr ⟨h, rfl, rfl, dmaWrite_plain v h hb hc⟩))
      · exact .inr (.inr (.inl ⟨h, rfl, rfl, dmaWrite_any v h hb hc⟩))
    · exact .inr (.inl ⟨h, rfl, dmaWrite_buserr v h hb⟩)
  · exact .inl ⟨h, dmaWrite_outside h v p⟩

/-- What a write at `a`, answered or not, never changes: every other byte, the platform's answers and the races. -/
structure Platform.SameBut (a : Word) (p q : Platform) : Prop where
  read : ∀ b, b ≠ a → q.mem.read b = p.mem.read b
  wf : p.mem.wf → q.mem.wf
  busErrs : q.busErrs = p.busErrs
  coherent : q.coherent = p.coherent
  raced : q.raced = p.raced
  unclean : q.unclean = p.unclean
  stale : p.coherent = true → q.stale = p.stale

theorem Platform.drawAt_same (a : Word) (p : Platform) : p.SameBut a (p.drawAt a) :=
  ⟨fun _ h => Memory.read_write_other _ _ h, fun h => Memory.write_wf h _ _, rfl, rfl, rfl, rfl, fun _ => rfl⟩

theorem Platform.written_same (a : Word) (v : Byte) (p : Platform) : p.SameBut a { p with mem := p.mem.write a v } :=
  ⟨fun _ h => Memory.read_write_other _ _ h, fun h => Memory.write_wf h _ _, rfl, rfl, rfl, rfl, fun _ => rfl⟩

theorem Platform.SameBut.logged {a : Word} {p q : Platform} (h : p.SameBut a q) (k : AccessKind) (b : Word) (ok : Bool) :
    p.SameBut a ((q.wroteStale a).note k b ok) :=
  ⟨h.read, h.wf, h.busErrs, h.coherent, h.raced, h.unclean, fun hc => by simp [h.coherent, hc, h.stale hc]⟩

theorem dmaWrite_ok_frame {a : Nat} {v : Byte} {p p' : Platform} (h : dmaWrite a v p = .ok () p') :
    a < 2 ^ 32 ∧ p.busErr .write (BitVec.ofNat 32 a) = false ∧ p.SameBut (BitVec.ofNat 32 a) p' := by
  rcases dmaWrite_cases a v p with ⟨_, e⟩ | ⟨_, _, e⟩ | ⟨ha, hb, _, e⟩ | ⟨ha, hb, _, e⟩ <;> rw [e] at h
  · cases h
  · cases h
  · cases h; exact ⟨ha, hb, (Platform.drawAt_same _ p).logged _ _ _⟩
  · cases h; exact ⟨ha, hb, (Platform.written_same _ v p).logged _ _ _⟩

theorem dmaWrite_buserr_frame {a : Nat} {w : Word} {v : Byte} {p p' : Platform} (h : dmaWrite a v p = .buserr w p') :
    a < 2 ^ 32 ∧ w = BitVec.ofNat 32 a ∧ p.busErr .write w = true ∧ p.SameBut w p' := by
  rcases dmaWrite_cases a v p with ⟨_, e⟩ | ⟨ha, hb, e⟩ | ⟨_, _, _, e⟩ | ⟨_, _, _, e⟩ <;> rw [e] at h
  · cases h
  · cases h; exact ⟨ha, rfl, hb, (Platform.drawAt_same _ p).logged _ _ _⟩
  · cases h
  · cases h

theorem dmaWrite_not_outside {a : Nat} (h : a < 2 ^ 32) (v : Byte) (p : Platform) : dmaWrite a v p ≠ .outside := by
  rcases dmaWrite_cases a v p with ⟨h', _⟩ | ⟨_, _, e⟩ | ⟨_, _, _, e⟩ | ⟨_, _, _, e⟩
  · exact absurd h h'
  all_goals rw [e]; simp

/-! ### Draws over a list and over a range -/

/-- Drawing each of a list of bytes changes no other byte. -/
theorem Platform.drawEach_read_other {l : List Word} {b : Word} (h : b ∉ l) (p : Platform) :
    (p.drawEach l).mem.read b = p.mem.read b := by
  induction l with
  | nil => rfl
  | cons a rest ih =>
    rw [List.mem_cons, not_or] at h
    exact (Memory.read_write_other _ _ h.1).trans (ih h.2)

theorem Platform.drawEach_wf (l : List Word) {p : Platform} (h : p.mem.wf) : (p.drawEach l).mem.wf := by
  induction l with
  | nil => exact h
  | cons a rest ih => exact Memory.write_wf ih _ _

/-- Drawing each of a list of bytes changes nothing of the platform but memory and the counter. -/
theorem Platform.drawEach_frame (l : List Word) (p : Platform) :
    (p.drawEach l).busErrs = p.busErrs ∧ (p.drawEach l).coherent = p.coherent ∧ (p.drawEach l).raced = p.raced ∧
    (p.drawEach l).unclean = p.unclean ∧ (p.drawEach l).stale = p.stale ∧ (p.drawEach l).dmaLog = p.dmaLog := by
  induction l with
  | nil => exact ⟨rfl, rfl, rfl, rfl, rfl, rfl⟩
  | cons a rest ih => exact ih

/-- Each byte drawn holds a value drawn so far. -/
theorem Platform.drawEach_read_mem {l : List Word} {b : Word} (h : b ∈ l) {p : Platform} (hw : p.mem.wf) :
    ∃ n, n < (p.drawEach l).draws ∧ (p.drawEach l).mem.read b = Config.freeByte n := by
  induction l with
  | nil => cases h
  | cons a rest ih =>
    by_cases e : b = a
    · subst e
      exact ⟨_, Nat.lt_succ_self _, Memory.read_write_same (Platform.drawEach_wf rest hw) _ _⟩
    · have ⟨n, hn, hr⟩ := ih ((List.mem_cons.mp h).resolve_left e)
      exact ⟨n, Nat.lt_succ_of_lt hn, (Memory.read_write_other _ _ e).trans hr⟩

/-- Drawing a range changes no byte outside it. -/
theorem Platform.drawRange_read_other (base n : Nat) (p : Platform) (b : Word)
    (h : ∀ i, i < n → b ≠ BitVec.ofNat 32 (base + i)) : (p.drawRange base n).mem.read b = p.mem.read b := by
  induction n with
  | zero => rfl
  | succ n ih =>
    have hn := h n (by omega)
    simp only [Platform.drawRange, Platform.drawAt_mem]
    rw [Memory.read_write_other _ _ hn]
    exact ih fun i hi => h i (by omega)

theorem Platform.drawRange_wf (base n : Nat) {p : Platform} (h : p.mem.wf) : (p.drawRange base n).mem.wf := by
  induction n with
  | zero => exact h
  | succ n ih => exact Memory.write_wf ih _ _

/-- Drawing a range changes nothing of the platform but memory and the counter. -/
theorem Platform.drawRange_frame (base n : Nat) (p : Platform) :
    (p.drawRange base n).busErrs = p.busErrs ∧ (p.drawRange base n).coherent = p.coherent ∧
    (p.drawRange base n).raced = p.raced ∧ (p.drawRange base n).unclean = p.unclean ∧
    (p.drawRange base n).stale = p.stale ∧ (p.drawRange base n).dmaLog = p.dmaLog := by
  induction n with
  | zero => exact ⟨rfl, rfl, rfl, rfl, rfl, rfl⟩
  | succ n ih => exact ih

end Sys2Proof.Machine
end

