-- ==== Sys2Proof/Laws/Units.lean ====
section
/-! SUPPORT. What one work unit can do to the registers and to the platform, phase by phase. -/

namespace Sys2Proof.Machine

theorem Platform.SameMemory.sameBut {p q : Platform} (h : p.SameMemory q) (a : Word) : p.SameBut a q :=
  ⟨fun b _ => by rw [h.mem], fun w => by rw [h.mem]; exact w, h.busErrs, h.coherent, h.raced, h.unclean, fun _ => h.stale⟩

theorem Platform.SameMemory.refl (p : Platform) : p.SameMemory p := ⟨rfl, rfl, rfl, rfl, rfl, rfl⟩

theorem Platform.SameMemory.trans {p q r : Platform} (h : p.SameMemory q) (k : q.SameMemory r) : p.SameMemory r :=
  ⟨k.mem.trans h.mem, k.busErrs.trans h.busErrs, k.coherent.trans h.coherent, k.raced.trans h.raced,
    k.unclean.trans h.unclean, k.stale.trans h.stale⟩

theorem Platform.note_sameMemory (k : AccessKind) (a : Word) (ok : Bool) (p : Platform) : p.SameMemory (p.note k a ok) :=
  ⟨rfl, rfl, rfl, rfl, rfl, rfl⟩

/-- Reads before a write leave what the write changes. -/
theorem Platform.SameMemory.then {p q r : Platform} {a : Word} (h : p.SameMemory q) (k : q.SameBut a r) : p.SameBut a r :=
  ⟨fun b hb => by rw [k.read b hb, h.mem], fun w => k.wf (by rw [h.mem]; exact w), k.busErrs.trans h.busErrs,
    k.coherent.trans h.coherent, k.raced.trans h.raced, k.unclean.trans h.unclean,
    fun hc => (k.stale (h.coherent.trans hc)).trans h.stale⟩

theorem Platform.SameMemory.busErr {p q : Platform} (h : p.SameMemory q) (k : AccessKind) (a : Word) :
    q.busErr k a = p.busErr k a := by
  simp [Platform.busErr, h.busErrs]

theorem Platform.SameMemory.anyValue {p q : Platform} (h : p.SameMemory q) (a : Word) : q.anyValue a = p.anyValue a := by
  simp [Platform.anyValue, h.raced, h.unclean]

theorem Platform.SameBut.busErr {p q : Platform} {w : Word} (h : p.SameBut w q) (k : AccessKind) (a : Word) :
    q.busErr k a = p.busErr k a := by
  simp [Platform.busErr, h.busErrs]

theorem Platform.SameBut.anyValue {p q : Platform} {w : Word} (h : p.SameBut w q) (a : Word) :
    q.anyValue a = p.anyValue a := by
  simp [Platform.anyValue, h.raced, h.unclean]

/-- The address MIX and REMAP write in the current unit, and SUM, VAR and REMAP read (R603, R710, R720, R811). -/
abbrev Regs.unitDst (g : Regs) : Word := BitVec.ofNat 32 (g.dst.toNat + g.progress.toNat)

/-- A MIX unit that is answered ok writes at most its destination byte and no register (R603). -/
theorem unitMix_ok {g g' : Regs} {p p' : Platform} (h : unitMix g p = .ok g' p') :
    g' = g ∧ p.SameBut g.unitDst p' := by
  obtain ⟨_, _, h1, h⟩ := Dma.bind_eq_ok.mp h
  obtain ⟨_, _, h2, h⟩ := Dma.bind_eq_ok.mp h
  obtain ⟨_, _, h3, h⟩ := Dma.bind_eq_ok.mp h
  obtain ⟨_, _, h4, h⟩ := Dma.bind_eq_ok.mp h
  cases h
  have f1 := (dmaRead_ok_frame h1).2.2
  have f2 := (dmaRead_ok_frame h2).2.2
  have f3 := (dmaRead_ok_frame h3).2.2
  exact ⟨rfl, ((f1.trans f2).trans f3).then (dmaWrite_ok_frame h4).2.2⟩

/-- A SUM unit that is answered ok writes S1 and no memory (R710). -/
theorem unitSum_ok {g g' : Regs} {p p' : Platform} (h : unitSum g p = .ok g' p') :
    (∃ v, dmaRead (g.dst.toNat + g.progress.toNat) p = .ok v p' ∧ g' = g.addSample v) ∧ p.SameMemory p' := by
  obtain ⟨v, _, h1, h⟩ := Dma.bind_eq_ok.mp h
  cases h
  exact ⟨⟨v, h1, rfl⟩, (dmaRead_ok_frame h1).2.2⟩

/-- A VAR unit that is answered ok writes Q and no memory (R720). -/
theorem unitVar_ok {g g' : Regs} {p p' : Platform} (h : unitVar g p = .ok g' p') :
    (∃ v, dmaRead (g.dst.toNat + g.progress.toNat) p = .ok v p' ∧ g' = g.addDeviation v) ∧ p.SameMemory p' := by
  obtain ⟨v, _, h1, h⟩ := Dma.bind_eq_ok.mp h
  cases h
  exact ⟨⟨v, h1, rfl⟩, (dmaRead_ok_frame h1).2.2⟩

/-- A REMAP unit that is answered ok writes at most its destination byte and no register (R811). -/
theorem unitRemap_ok {g g' : Regs} {p p' : Platform} (h : unitRemap g p = .ok g' p') :
    g' = g ∧ p.SameBut g.unitDst p' := by
  obtain ⟨_, _, h1, h⟩ := Dma.bind_eq_ok.mp h
  obtain ⟨_, _, h2, h⟩ := Dma.bind_eq_ok.mp h
  cases h
  exact ⟨rfl, (dmaRead_ok_frame h1).2.2.then (dmaWrite_ok_frame h2).2.2⟩

/-- Everything a work unit that is answered ok can do, phase by phase. -/
theorem workUnit_ok {g g' : Regs} {p p' : Platform} (h : workUnit g p = .ok g' p') :
    (g.phase = .none ∧ g' = g ∧ p' = p) ∨
    (g.phase = .normalize ∧ g' = g.normalized ∧ p' = p) ∨
    (g.phase = .mix ∧ g' = g ∧ p.SameBut g.unitDst p') ∨
    (g.phase = .sum ∧ (∃ v, dmaRead (g.dst.toNat + g.progress.toNat) p = .ok v p' ∧ g' = g.addSample v) ∧ p.SameMemory p') ∨
    (g.phase = .var ∧ (∃ v, dmaRead (g.dst.toNat + g.progress.toNat) p = .ok v p' ∧ g' = g.addDeviation v) ∧ p.SameMemory p') ∨
    (g.phase = .lutBuild ∧ g' = g.buildEntry ∧ p' = p) ∨
    (g.phase = .remap ∧ g' = g ∧ p.SameBut g.unitDst p') := by
  unfold workUnit at h
  cases hp : g.phase <;> simp only [hp] at h
  case none => cases h; simp
  case normalize => cases h; simp
  case mix => simpa using unitMix_ok h
  case sum => simpa using unitSum_ok h
  case var => simpa using unitVar_ok h
  case lutBuild => cases h; simp
  case remap => simpa using unitRemap_ok h

/-- The registers no work unit changes: only the weights, S1, Q and the table can change (R227, R408). -/
theorem workUnit_ok_regs {g g' : Regs} {p p' : Platform} (h : workUnit g p = .ok g' p') :
    g' = { g with wR := g'.wR, wG := g'.wG, wB := g'.wB, s1 := g'.s1, q := g'.q, lut := g'.lut } := by
  rcases workUnit_ok h with ⟨-, rfl, -⟩ | ⟨-, rfl, -⟩ | ⟨-, rfl, -⟩ | ⟨-, ⟨_, _, rfl⟩, -⟩ | ⟨-, ⟨_, _, rfl⟩, -⟩ |
    ⟨-, rfl, -⟩ | ⟨-, rfl, -⟩ <;> rfl

/-- What a work unit does to memory: at most the byte at its destination address changes. -/
theorem workUnit_ok_platform {g g' : Regs} {p p' : Platform} (h : workUnit g p = .ok g' p') : p.SameBut g.unitDst p' := by
  rcases workUnit_ok h with ⟨-, -, rfl⟩ | ⟨-, -, rfl⟩ | ⟨-, -, f⟩ | ⟨-, -, f⟩ | ⟨-, -, f⟩ | ⟨-, -, rfl⟩ | ⟨-, -, f⟩
  all_goals first | exact f | exact f.sameBut _ | exact (Platform.SameMemory.refl _).sameBut _

/-- A work unit outside MIX and REMAP writes no memory (R203). -/
theorem workUnit_ok_readonly {g g' : Regs} {p p' : Platform} (h : workUnit g p = .ok g' p')
    (hm : g.phase ≠ .mix) (hr : g.phase ≠ .remap) : p.SameMemory p' := by
  rcases workUnit_ok h with ⟨-, -, rfl⟩ | ⟨-, -, rfl⟩ | ⟨e, -⟩ | ⟨-, -, f⟩ | ⟨-, -, f⟩ | ⟨-, -, rfl⟩ | ⟨e, -⟩
  all_goals first | exact f | exact Platform.SameMemory.refl _ | exact absurd e hm | exact absurd e hr

/-- Everything a work unit that ends in buserr can do: the failing access was a read and memory is unchanged, or it was the
write of the unit's destination byte and only that byte can have changed (R407, R1002). -/
theorem workUnit_buserr {g : Regs} {p p' : Platform} {a : Word} (h : workUnit g p = .buserr a p') :
    (p.busErr .read a = true ∧ p.SameMemory p') ∨
    ((g.phase = .mix ∨ g.phase = .remap) ∧ a = g.unitDst ∧ p.busErr .write a = true ∧ p.SameBut a p') := by
  have readFails : ∀ {b : Nat} {q : Platform}, p.SameMemory q → dmaRead b q = .buserr a p' →
      p.busErr .read a = true ∧ p.SameMemory p' := by
    intro b q hq hr
    obtain ⟨-, -, hb, rfl⟩ := dmaRead_buserr_frame hr
    exact ⟨by rw [← hq.busErr]; exact hb, hq.trans (Platform.note_sameMemory _ _ _ _)⟩
  have writeFails : ∀ {v : Byte} {q : Platform}, p.SameMemory q →
      dmaWrite (g.dst.toNat + g.progress.toNat) v q = .buserr a p' →
      a = g.unitDst ∧ p.busErr .write a = true ∧ p.SameBut a p' := by
    intro v q hq hw
    obtain ⟨-, ha, hb, f⟩ := dmaWrite_buserr_frame hw
    exact ⟨ha, by rw [← hq.busErr]; exact hb, hq.then f⟩
  unfold workUnit at h
  cases hp : g.phase <;> simp only [hp] at h
  case none => cases h
  case normalize => cases h
  case lutBuild => cases h
  case mix =>
    rcases Dma.bind_eq_buserr.mp h with h | ⟨_, q1, h1, h⟩
    · exact .inl (readFails (Platform.SameMemory.refl p) h)
    have f1 := (dmaRead_ok_frame h1).2.2
    rcases Dma.bind_eq_buserr.mp h with h | ⟨_, q2, h2, h⟩
    · exact .inl (readFails f1 h)
    have f2 := f1.trans (dmaRead_ok_frame h2).2.2
    rcases Dma.bind_eq_buserr.mp h with h | ⟨_, q3, h3, h⟩
    · exact .inl (readFails f2 h)
    have f3 := f2.trans (dmaRead_ok_frame h3).2.2
    rcases Dma.bind_eq_buserr.mp h with h | ⟨_, _, _, h⟩
    · exact .inr ⟨.inl rfl, writeFails f3 h⟩
    · cases h
  case sum =>
    rcases Dma.bind_eq_buserr.mp h with h | ⟨_, _, _, h⟩
    · exact .inl (readFails (Platform.SameMemory.refl p) h)
    · cases h
  case var =>
    rcases Dma.bind_eq_buserr.mp h with h | ⟨_, _, _, h⟩
    · exact .inl (readFails (Platform.SameMemory.refl p) h)
    · cases h
  case remap =>
    rcases Dma.bind_eq_buserr.mp h with h | ⟨_, q1, h1, h⟩
    · exact .inl (readFails (Platform.SameMemory.refl p) h)
    have f1 := (dmaRead_ok_frame h1).2.2
    rcases Dma.bind_eq_buserr.mp h with h | ⟨_, _, _, h⟩
    · exact .inr ⟨.inr rfl, writeFails f1 h⟩
    · cases h

end Sys2Proof.Machine
end

