-- ==== Sys2Proof/Laws/Engine.lean ====
section
/-! SUPPORT. What the arrival of a command can do, and what one turn of the engine can do. -/

namespace Sys2Proof.Machine

/-! ### Arrival and acceptance -/

theorem accept_busy {opcode : BitVec 4} {checks : Regs → Option ErrCode} {start : Regs → Regs} {s : State}
    (h : s.reg.busy = true) : accept opcode checks start s = .next { s with reg := s.reg.dropCommand } := by
  simp [accept, h]

theorem accept_error {opcode : BitVec 4} {checks : Regs → Option ErrCode} {start : Regs → Regs} {s : State} {e : ErrCode}
    (h : s.reg.busy = false) (hc : checks (s.reg.acceptBase opcode) = some e) :
    accept opcode checks start s = .next { s with reg := (s.reg.acceptBase opcode).raiseError e } := by
  simp [accept, h, hc]

theorem accept_start {opcode : BitVec 4} {checks : Regs → Option ErrCode} {start : Regs → Regs} {s : State}
    (h : s.reg.busy = false) (hc : checks (s.reg.acceptBase opcode) = none) :
    accept opcode checks start s = .next { s with reg := start (s.reg.acceptBase opcode).setBusy } := by
  simp [accept, h, hc]

/-- Everything the arrival of a command can do (R400 to R404). -/
theorem accept_next {opcode : BitVec 4} {checks : Regs → Option ErrCode} {start : Regs → Regs} {s t : State}
    (h : accept opcode checks start s = .next t) :
    (s.reg.busy = true ∧ t = { s with reg := s.reg.dropCommand }) ∨
    (s.reg.busy = false ∧ ∃ e, checks (s.reg.acceptBase opcode) = some e ∧
      t = { s with reg := (s.reg.acceptBase opcode).raiseError e }) ∨
    (s.reg.busy = false ∧ checks (s.reg.acceptBase opcode) = none ∧
      t = { s with reg := start (s.reg.acceptBase opcode).setBusy }) := by
  cases hb : s.reg.busy
  · cases hc : checks (s.reg.acceptBase opcode) with
    | some e => rw [accept_error hb hc] at h; cases h; exact .inr (.inl ⟨rfl, e, rfl, rfl⟩)
    | none => rw [accept_start hb hc] at h; cases h; exact .inr (.inr ⟨rfl, rfl, rfl⟩)
  · rw [accept_busy hb] at h; cases h; exact .inl ⟨rfl, rfl⟩

/-- The arrival of a command always answers a next state: errors are recorded, never raised outside (R1003). -/
theorem accept_isNext (opcode : BitVec 4) (checks : Regs → Option ErrCode) (start : Regs → Regs) (s : State) :
    ∃ t, accept opcode checks start s = .next t := by
  unfold accept
  split
  · exact ⟨_, rfl⟩
  · split <;> exact ⟨_, rfl⟩

/-- The first failing check of a list, as an equation per check (R1001). -/
@[simp] theorem firstError_nil : firstError [] = none := rfl
@[simp] theorem firstError_some (e : ErrCode) (rest : List (Option ErrCode)) : firstError (some e :: rest) = some e := rfl
@[simp] theorem firstError_none (rest : List (Option ErrCode)) : firstError (none :: rest) = firstError rest := rfl

theorem firstError_eq_none {l : List (Option ErrCode)} : firstError l = none ↔ ∀ c ∈ l, c = none := by
  induction l with
  | nil => simp
  | cons c rest ih => cases c <;> simp [ih]

/-! ### The checks, as propositions -/

theorem checkMean_eq_none {g : Regs} : checkMean g = none ↔ g.stats ≠ .none := by simp [checkMean]
theorem checkFull_eq_none {g : Regs} : checkFull g = none ↔ g.stats = .full := by simp [checkFull]
theorem checkDim_eq_none {g : Regs} : checkDim g = none ↔ g.width ≠ 0#16 ∧ g.height ≠ 0#16 := by
  simp [checkDim]
theorem checkWeights_eq_none {g : Regs} : checkWeights g = none ↔ g.rawSum ≠ 0 := by simp [checkWeights]
theorem checkSrcRange_eq_none {g : Regs} : checkSrcRange g = none ↔ g.src.toNat + 3 * g.pixels ≤ 2 ^ 32 := by
  simp [checkSrcRange, regionInRange]
theorem checkDstRange_eq_none {len : Nat} {g : Regs} : checkDstRange len g = none ↔ g.dst.toNat + len ≤ 2 ^ 32 := by
  simp [checkDstRange, regionInRange]
theorem checkOverlap_eq_none {g : Regs} :
    checkOverlap g = none ↔ ¬ (g.src.toNat < g.dst.toNat + g.pixels ∧ g.dst.toNat < g.src.toNat + 3 * g.pixels) := by
  simp [checkOverlap, regionsOverlap]

/-- N ≥ 1 after the BAD_DIM check (R405). -/
theorem Regs.pixels_pos {g : Regs} (hw : g.width ≠ 0#16) (hh : g.height ≠ 0#16) : 0 < g.pixels := by
  have h1 : g.width.toNat ≠ 0 := fun e => hw (BitVec.eq_of_toNat_eq (by simpa using e))
  have h2 : g.height.toNat ≠ 0 := fun e => hh (BitVec.eq_of_toNat_eq (by simpa using e))
  exact Nat.mul_pos (Nat.pos_of_ne_zero h1) (Nat.pos_of_ne_zero h2)

/-! ### One turn of the engine -/

theorem engineStep_idle {s : State} (h : s.reg.busy = false) : engineStep s = .next s := by simp [engineStep, h]

theorem engineStep_ok {s : State} {g : Regs} {p : Platform} (h : s.reg.busy = true)
    (hu : workUnit s.reg s.plat = .ok g p) :
    engineStep s = .next { s with reg := g.advance, plat := settleWhenIdle g.advance p } := by
  simp [engineStep, h, hu]

theorem engineStep_buserr {s : State} {a : Word} {p : Platform} (h : s.reg.busy = true)
    (hu : workUnit s.reg s.plat = .buserr a p) :
    engineStep s = .next { s with reg := s.reg.busFault a, plat := p.settle } := by
  simp [engineStep, h, hu]

/-- Everything a turn of the engine can do (R405 to R407). -/
theorem engineStep_next {s t : State} (h : engineStep s = .next t) :
    (s.reg.busy = false ∧ t = s) ∨
    (s.reg.busy = true ∧ ∃ g p, workUnit s.reg s.plat = .ok g p ∧
      t = { s with reg := g.advance, plat := settleWhenIdle g.advance p }) ∨
    (s.reg.busy = true ∧ ∃ a p, workUnit s.reg s.plat = .buserr a p ∧
      t = { s with reg := s.reg.busFault a, plat := p.settle }) := by
  cases hb : s.reg.busy
  · rw [engineStep_idle hb] at h; cases h; exact .inl ⟨rfl, rfl⟩
  · cases hu : workUnit s.reg s.plat with
    | ok g p => rw [engineStep_ok hb hu] at h; cases h; exact .inr (.inl ⟨rfl, g, p, rfl, rfl⟩)
    | buserr a p => rw [engineStep_buserr hb hu] at h; cases h; exact .inr (.inr ⟨rfl, a, p, rfl, rfl⟩)
    | outside => simp [engineStep, hb, hu] at h

/-- A turn of the engine never refuses. -/
theorem engineStep_not_refused (s : State) (r : Refusal) : engineStep s ≠ .refused r := by
  unfold engineStep
  split
  · split <;> simp
  · simp

/-- What follows a completed unit: the next unit, the next phase, or the end of the command (R405, R406). -/
theorem Regs.advance_cases (g : Regs) :
    (g.progress.toNat + 1 < g.unitCount g.phase ∧ g.advance = g.countUnit) ∨
    (g.unitCount g.phase ≤ g.progress.toNat + 1 ∧ ∃ ph, g.nextPhase g.phase = some ph ∧
      g.advance = (g.countUnit.leavePhase g.phase).enterPhase ph) ∨
    (g.unitCount g.phase ≤ g.progress.toNat + 1 ∧ g.nextPhase g.phase = none ∧
      g.advance = (g.countUnit.leavePhase g.phase).complete) := by
  unfold Regs.advance
  by_cases h : g.progress.toNat + 1 < g.unitCount g.phase
  · exact .inl ⟨h, by simp [h]⟩
  · cases hn : g.nextPhase g.phase with
    | some ph => exact .inr (.inl ⟨by omega, ph, rfl, by simp [h]⟩)
    | none => exact .inr (.inr ⟨by omega, rfl, by simp [h]⟩)

/-- The registers no end of a unit changes (R227, R408): only BUSY, DONE, PHASE, PROGRESS, STATS and the statistics that SUM
and VAR clear at their start can. -/
theorem Regs.advance_frame (g : Regs) :
    g.advance = { g with
      busy := g.advance.busy, done := g.advance.done, phase := g.advance.phase, stats := g.advance.stats,
      progress := g.advance.progress, statN := g.advance.statN, s1 := g.advance.s1, q := g.advance.q } := by
  rcases g.advance_cases with ⟨_, e⟩ | ⟨_, ph, _, e⟩ | ⟨_, _, e⟩
  · rw [e]; rfl
  · rw [e]
    cases hp : g.phase <;> cases ph <;> rfl
  · rw [e]
    cases hp : g.phase <;> rfl

/-! ### Several turns -/

@[simp] theorem engineRun_zero (s : State) : engineRun 0 s = .next s := rfl

theorem engineRun_succ {n : Nat} {s t : State} (h : engineStep s = .next t) : engineRun (n + 1) s = engineRun n t := by
  simp [engineRun, h]

/-- Turns in a row compose. -/
theorem engineRun_add {m n : Nat} {s t : State} (h : engineRun m s = .next t) : engineRun (m + n) s = engineRun n t := by
  induction m generalizing s with
  | zero => cases h; simp
  | succ m ih =>
    cases hs : engineStep s with
    | next u =>
      rw [engineRun_succ hs] at h
      rw [Nat.succ_add, engineRun_succ hs, ih h]
    | fault f => simp [engineRun, hs] at h
    | refused r => simp [engineRun, hs] at h

end Sys2Proof.Machine
end

