-- ==== Sys2Proof/Laws/PerInstr.lean ====
section
/-! SUPPORT. The per-command family of statements about syntax: the command word of each command is a legal word whose fields are
the opcode of spec/30_encoding.md R302 and zeros (R300). -/

namespace Sys2Proof.Laws.CommandWord

/-- The word of `i` is legal, its reserved field is 0, its opcode is assigned, and `i` is well formed. -/
def Statement (i : Instr) : Prop :=
  i.wellFormed = true ∧ wellFormedWord (encode i) = true ∧ reservedOf (encode i) = 0#28 ∧
  (opcodeOf (encode i)).setWidth 32 = encode i

theorem nop : Statement .nop := by unfold Statement; decide
theorem normalize : Statement .normalize := by unfold Statement; decide
theorem mix : Statement .mix := by unfold Statement; decide
theorem sum : Statement .sum := by unfold Statement; decide
theorem var : Statement .var := by unfold Statement; decide
theorem lutBuild : Statement .lutBuild := by unfold Statement; decide
theorem remap : Statement .remap := by unfold Statement; decide
theorem run : Statement .run := by unfold Statement; decide

end Sys2Proof.Laws.CommandWord
end

