-- ==== Sys2Proof/Laws/Platform.lean ====
section
/-! SUPPORT. What a platform grants a region, and how a granted access is answered. -/

namespace Sys2Proof.Machine

/-- An access errs exactly where a listed range of its kind holds its address. -/
theorem Platform.busErr_eq_false {p : Platform} {kind : AccessKind} {a : Word} :
    p.busErr kind a = false ↔ ∀ r ∈ p.busErrs, r.kind = kind → inRegion r.base r.len a.toNat = false := by
  simp [Platform.busErr]

/-- A platform serves a region that no erring range of the same kind meets. -/
theorem Platform.serves_of_disjoint {p : Platform} {kind : AccessKind} {base len : Nat}
    (h : ∀ r ∈ p.busErrs, r.kind ≠ kind ∨ r.base + r.len ≤ base ∨ base + len ≤ r.base) : p.serves kind base len := by
  intro a ha
  rw [Platform.busErr_eq_false]
  intro r hr hk
  rcases h r hr with h | h | h
  · exact absurd hk h
  all_goals simp [inRegion] at ha ⊢; omega

/-- With no race and nothing waiting in a cache, no region is contested. -/
theorem Platform.uncontested_of_quiet {p : Platform} (hr : p.raced = []) (hu : p.unclean = []) (base len : Nat) :
    p.uncontested base len := by
  intro a _
  simp [Platform.anyValue, hr, hu]

/-- A quiet platform without erring ranges grants every region. -/
theorem Platform.grants_of_quiet {p : Platform} (he : p.busErrs = []) (hr : p.raced = []) (hu : p.unclean = [])
    (kind : AccessKind) (base len : Nat) : p.grants kind base len :=
  ⟨Platform.serves_of_disjoint (by simp [he]), Platform.uncontested_of_quiet hr hu base len⟩

/-- A granted read inside the address space gives the byte in memory. -/
theorem dmaRead_granted {p : Platform} {base len a : Nat} (hg : p.grants .read base len) (h : inRegion base len a = true)
    (ha : a < 2 ^ 32) :
    dmaRead a p = .ok (p.mem.read (BitVec.ofNat 32 a)) (p.note .read (BitVec.ofNat 32 a) true) := by
  have e : (BitVec.ofNat 32 a).toNat = a := by simp; omega
  exact dmaRead_plain ha (hg.1 _ (by rw [e]; exact h)) (hg.2 _ (by rw [e]; exact h))

/-- A granted write inside the address space writes its byte. -/
theorem dmaWrite_granted {p : Platform} {base len a : Nat} (v : Byte) (hg : p.grants .write base len)
    (h : inRegion base len a = true) (ha : a < 2 ^ 32) :
    dmaWrite a v p = .ok ()
      ((({ p with mem := p.mem.write (BitVec.ofNat 32 a) v } : Platform).wroteStale (BitVec.ofNat 32 a)).note .write
        (BitVec.ofNat 32 a) true) := by
  have e : (BitVec.ofNat 32 a).toNat = a := by simp; omega
  exact dmaWrite_plain v ha (hg.1 _ (by rw [e]; exact h)) (hg.2 _ (by rw [e]; exact h))

end Sys2Proof.Machine
end

