-- ==== Sys2Proof/Laws/Registers.lean ====
section
/-! SUPPORT. Placed fields bit by bit, the entries of the table, and the register map. -/

namespace Sys2Proof.Machine

/-- A bit of a placed field. -/
theorem placed_getLsbD {w : Nat} (x : BitVec w) (lo i : Nat) :
    (placed x lo).getLsbD i = (decide (i < 32) && !decide (i < lo) && x.getLsbD (i - lo)) := by
  unfold placed
  rw [BitVec.getLsbD_shiftLeft, BitVec.getLsbD_setWidth]
  by_cases h : i < 32
  · have h' : i - lo < 32 := by omega
    simp [h, h']
  · simp [h]

/-- A bit of a placed field, at an index known to be in range. -/
theorem placed_getElem {w : Nat} (x : BitVec w) (lo i : Nat) (h : i < 32) :
    (placed x lo)[i] = (!decide (i < lo) && x.getLsbD (i - lo)) := by
  rw [← BitVec.getLsbD_eq_getElem, placed_getLsbD]
  simp [h]

/-- A table entry after one entry is set (R140). -/
theorem Lut.entry_put (l : Lut) (v w x : Byte) : (l.put v x).entry w = if w = v then x else l.entry w := by
  unfold Lut.put Lut.entry
  by_cases h : w = v
  · subst h; simp
  · have hn : v.toNat ≠ w.toNat := fun e => h (BitVec.eq_of_toNat_eq e.symm)
    simp [h, Vector.getElem_set_ne _ _ hn]

/-- Tables with the same entries are equal. -/
theorem Lut.ext_entry {l m : Lut} (h : ∀ v, l.entry v = m.entry v) : l = m := by
  apply Vector.ext
  intro i hi
  have := h (BitVec.ofNat 8 i)
  have e : (BitVec.ofNat 8 i).toNat = i := by simp; omega
  simpa [Lut.entry, e] using this

/-- Entry `k` of window word `j` is entry 4j + k of the table (R129). -/
theorem Lut.index_toNat (j : BitVec 6) {k : Nat} (hk : k < 4) : (Lut.index j k).toNat = 4 * j.toNat + k := by
  have := j.isLt
  simp [Lut.index]; omega

/-- Every register is found at its offset (R103). -/
theorem Reg.ofOffset_offset (r : Reg) : Reg.ofOffset r.offset = some r := by
  cases r
  case lutw j => revert j; decide
  all_goals rfl

/-- Every register's offset is served by 32-bit accesses (R206). -/
theorem Reg.offset_served (r : Reg) : portServes r.offset 4 = true := by
  cases r
  case lutw j => revert j; decide
  all_goals rfl

/-- Reserved offsets name no register (R130). -/
theorem Reg.ofOffset_reserved {o : BitVec 12} (h : 0x060 ≤ o.toNat ∧ o.toNat ≤ 0x0FC ∨ 0x200 ≤ o.toNat) :
    Reg.ofOffset o = none := by
  unfold Reg.ofOffset
  rw [if_neg (by omega), if_neg (by omega)]

end Sys2Proof.Machine
end

