-- ==== Sys2Proof/Tests/Slice0.lean ====
section
/-! SUPPORT. Tests: words and values from the spec's tables and examples (the source of each is named), and for every statement with
hypotheses a witness that meets them. -/

namespace Sys2Proof.Tests

open Sys2Proof Sys2Proof.Machine

/-! ### States the tests use -/

/-- The registers and memory an outcome leaves, if it is a next state. -/
def result (o : Host.Outcome State Fault Refusal) : Option State :=
  match o with
  | .next t => some t
  | .fault _ => none
  | .refused _ => none

/-- What STATUS reads after an outcome. -/
def statusAfter (o : Host.Outcome State Fault Refusal) : Option Word := (result o).map fun t => t.reg.statusWord

/-- A state with the given registers and listed bytes, on a quiet platform. -/
def stateOf (g : Regs) (bytes : Memory) : State := { State.reset with reg := g, plat := { Platform.initial with mem := bytes } }

/-- One pixel (128, 64, 32), raw weights (299, 587, 114): the example of R603 and A2. -/
def pixelRegs : Regs :=
  { Regs.reset with
    src := 0x1000#32, dst := 0x2000#32, width := 1#16, height := 1#16
    rawR := 299#16, rawG := 587#16, rawB := 114#16, wR := 77#9, wG := 150#9, wB := 29#9 }

def pixelState : State := stateOf pixelRegs [(0x1000, 128#8), (0x1001, 64#8), (0x1002, 32#8)]

/-- Two samples 0 and 255 and their first-pass statistics: row [0, 255] of B4. -/
def pairRegs : Regs :=
  { Regs.reset with
    dst := 0x2000#32, width := 2#16, height := 1#16, statN := 2#32, s1 := 255#40, stats := .mean, cBits := 127#9 }

def pairState : State := stateOf pairRegs [(0x2001, 255#8)]

/-- The same after VAR: row [0, 255] of B5, Q = 130050. -/
def fullState : State := stateOf { pairRegs with q := 130050#128, stats := .full } [(0x2001, 255#8)]

/-- `s` while command `i` runs. -/
def busy (i : Instr) (s : State) : State := s.started i

/-- `s` on a platform on which one access errs. -/
def erring (kind : AccessKind) (a : Nat) (s : State) : State :=
  { s with plat := { s.plat with busErrs := [⟨kind, a, 1⟩] } }

/-! ### Well-formedness and decoding, words written out from R300 to R302 and B1 -/

theorem test_wellFormed_words : wellFormedWord 0b00000000000000000000000000000111#32 = true ∧
    Instr.wellFormed .run = true := by decide
theorem test_illFormed_reservedBits : wellFormedWord 0b00000000000000000000000000010010#32 = false ∧
    reservedBitsZero 0x00000012#32 = false := by decide
theorem test_illFormed_opcode : wellFormedWord 0b00000000000000000000000000001000#32 = false ∧
    opcodeAssigned 0x00000008#32 = false := by decide
theorem test_decode_nop : decode 0b00000000000000000000000000000000#32 = .ok .nop := by decide
theorem test_decode_normalize : decode 0b00000000000000000000000000000001#32 = .ok .normalize := by decide
theorem test_decode_mix : decode 0b00000000000000000000000000000010#32 = .ok .mix := by decide
theorem test_decode_sum : decode 0b00000000000000000000000000000011#32 = .ok .sum := by decide
theorem test_decode_var : decode 0b00000000000000000000000000000100#32 = .ok .var := by decide
theorem test_decode_lutBuild : decode 0b00000000000000000000000000000101#32 = .ok .lutBuild := by decide
theorem test_decode_remap : decode 0b00000000000000000000000000000110#32 = .ok .remap := by decide
theorem test_decode_run : decode 0b00000000000000000000000000000111#32 = .ok .run := by decide
theorem test_decode_reservedOpcodes : decode 0b00000000000000000000000000001000#32 = .error .reservedOpcode ∧
    decode 0b00000000000000000000000000001111#32 = .error .reservedOpcode := by decide
theorem test_decode_reservedBits : decode 0b00000000000000000000000000010010#32 = .error .reservedBits ∧
    decode 0b10000000000000000000000000000111#32 = .error .reservedBits := by decide
theorem test_decodeTableWord : decodeTableWord 32 5 = some .lutBuild ∧ decodeTableWord 32 8 = none := by decide

/-! ### Commands from reset: STATUS by the table of B1 -/

theorem test_nop_fromReset : statusAfter (issue .nop 1 State.reset) = some 0x00000002#32 := by decide
theorem test_normalize_fromReset : statusAfter (exec .normalize State.reset) = some 0x00001304#32 := by decide
theorem test_mix_fromReset : statusAfter (exec .mix State.reset) = some 0x00002204#32 := by decide
theorem test_sum_fromReset : statusAfter (exec .sum State.reset) = some 0x00003204#32 := by decide
theorem test_var_fromReset : statusAfter (exec .var State.reset) = some 0x00004604#32 := by decide
theorem test_lutBuild_fromReset : statusAfter (exec .lutBuild State.reset) = some 0x00005604#32 := by decide
theorem test_remap_fromReset : statusAfter (exec .remap State.reset) = some 0x00006204#32 := by decide
theorem test_run_fromReset : statusAfter (exec .run State.reset) = some 0x00007204#32 := by decide
theorem test_illegal_fromReset : statusAfter (command 0x00000012#32 State.reset) = some 0x00002104#32 ∧
    statusAfter (command 0xFFFFFFFF#32 State.reset) = some 0x0000F104#32 := by decide

/-! ### One unit of each command -/

/-- B2, row (1, 1, 4): D = 2, three-way tie, R then B. -/
theorem test_normalize_tie : (fun g : Regs => (g.weight .red, g.weight .green, g.weight .blue))
    { Regs.reset with rawR := 1#16, rawG := 1#16, rawB := 4#16 } = (43, 42, 171) := by decide

/-- A2: the pixel (128, 64, 32) under the weights (77, 150, 29) is 79. -/
theorem test_mix_unit : (result (issue .mix 1 pixelState)).map (fun t => (t.plat.mem.read 0x2000#32, t.reg.statusWord)) =
    some (79#8, 0x00022002#32) := by decide

/-- B4, row [0, 255]: after the first sample S1 is 0 and PROGRESS 1; Q and STATS are cleared (R710). -/
theorem test_sum_unit : (result (issue .sum 1 fullState)).map (fun t => (t.reg.s1, t.reg.progress, t.reg.q, t.reg.statN)) =
    some (0#40, 1#32, 0#128, 2#32) := by decide

/-- B5, row [0, 255]: the first sample adds (2·0 - 255)^2 = 65025. -/
theorem test_var_unit : (result (issue .var 1 pairState)).map (fun t => (t.reg.q, t.reg.stats)) = some (65025#128, .mean) := by
  decide

/-- B6, row (2, 255, 130050) with c = 127: L(128) = 127 and L(255) = 254. -/
theorem test_lutBuild_entries : contrastEntry 2 255 130050 127 128 = 127 ∧ contrastEntry 2 255 130050 127 255 = 254 := by
  decide +kernel

/-- B7, identity table: the byte is written back, and DST + 0 is the unit's address. -/
theorem test_remap_unit : (result (issue .remap 1 fullState)).map (fun t => (t.plat.dmaLog, t.reg.progress)) =
    some ([⟨.write, 0x2000#32, true⟩, ⟨.read, 0x2000#32, true⟩], 1#32) := by decide

/-- R901: the unit of NORMALIZE ends its phase and MIX begins in the same step. -/
theorem test_run_firstTurn : (result (issue .run 1 pixelState)).map (fun t => (t.reg.phase, t.reg.progress, t.reg.wG)) =
    some (.mix, 0#32, 150#9) := by decide

/-! ### Registers: B9 and B10 -/

theorem test_brightness_reads_nine_bits :
    (Regs.readReg (Regs.writeReg (BitVec.ofInt 32 (-5)) Regs.reset .brightness) .brightness) = 0x000001FB#32 := by decide
theorem test_lut_window_reset : Regs.reset.readReg (.lutw 0#6) = 0x03020100#32 ∧
    Regs.reset.readReg (.lutw 63#6) = 0xFFFEFDFC#32 := by decide
/-- `wr STATUS, 0xFFFF_FFFF` after STATUS = 0x0002_2002 leaves 0x0002_2000. -/
theorem test_status_clear : (result (perform (.regWrite 0x008#12 4 0xFFFFFFFF#32)
    (stateOf { Regs.reset with done := true, op := 2#4, phase := .mix } []))).map (fun t => t.reg.statusWord) =
    some 0x00022000#32 := by decide

/-! ### Witnesses of the statements' hypotheses

A quiet platform grants every region (`Platform.grants_of_quiet`), so the regions below are granted. -/

theorem pixel_grants (kind : AccessKind) (base len : Nat) : pixelState.plat.grants kind base len :=
  Platform.grants_of_quiet rfl rfl rfl kind base len

theorem pair_grants (kind : AccessKind) (base len : Nat) : pairState.plat.grants kind base len :=
  Platform.grants_of_quiet rfl rfl rfl kind base len

/-- A legal word, and the first reserved opcode with its reserved bits zero. -/
theorem test_witness_DecodeIsInverseOfEncode : decode (encode .run) = .ok .run ∧ (encode .run = 0x00000007#32) ∧
    (0x00000008#32).extractLsb' 4 28 = 0#28 ∧ 8 ≤ ((0x00000008#32).extractLsb' 0 4).toNat := by decide

/-- The ends of the table of R103 and of the LUT window. -/
theorem test_witness_RegisterMapIsInjective : (0x1FC#12).toNat % 4 = 0 ∧ Reg.ofOffset 0x1FC#12 = some (.lutw 63#6) ∧
    Reg.ofOffset 0x05C#12 = some .faultAddr ∧ Reg.ofOffset 0x100#12 = some (.lutw 0#6) := by decide

/-- A served read of DIM and of the words of S1 and Q (R119, R125, R126): S1 = 0x0123456789, Q = 1 + 2·2^32 + 3·2^64 + 4·2^96. -/
theorem test_register_reads :
    (result (perform (.regRead 0x018#12 4) pairState)).map State.reply = some (.data .ok 0x00010002#32) ∧
    Regs.readReg { Regs.reset with s1 := 0x0123456789#40 } .statS1Lo = 0x23456789#32 ∧
    Regs.readReg { Regs.reset with s1 := 0x0123456789#40 } .statS1Hi = 0x00000001#32 ∧
    Regs.readReg { Regs.reset with q := 0x00000004000000030000000200000001#128 } .statQ2 = 3#32 := by decide

/-- The four boundary offsets of the two reserved ranges. -/
theorem test_witness_ReservedOffsets : ∀ o ∈ [0x060#12, 0x0FC#12, 0x200#12, 0xFFC#12], o.toNat % 4 = 0 ∧
    (0x060 ≤ o.toNat ∧ o.toNat ≤ 0x0FC ∨ 0x200 ≤ o.toNat) := by decide

/-- A 16-bit access at an aligned offset and a 32-bit one at 0x00A (B9). -/
theorem test_witness_OtherAccesses : ¬ (2 = 4 ∧ (0x008#12).toNat % 4 = 0) ∧ ¬ (4 = 4 ∧ (0x00A#12).toNat % 4 = 0) := by decide

theorem test_witness_IdleOperandWrite : State.reset.reg.busy = false ∧ Reg.isOperand .dim = true ∧
    Reg.isOperand (.lutw 63#6) = true ∧ Reg.cmd ≠ Reg.dim := by decide

/-- SRC_ADDR and WEIGHT_G take their own data; window word 63 takes entry 255 from bits 31 to 24. -/
theorem test_operand_fields :
    (result (perform (.regWrite 0x010#12 4 7#32) State.reset)).map (fun t => (t.reg.src, t.reg.dst)) = some (7#32, 0#32) ∧
    (result (perform (.regWrite 0x02C#12 4 0x3FF#32) State.reset)).map (fun t => (t.reg.wR, t.reg.wG)) = some (0#9, 0x1FF#9) ∧
    (result (perform (.regWrite 0x1FC#12 4 0x0A000000#32) State.reset)).map (fun t => (t.reg.lut.entry 255#8, t.reg.lut.entry 3#8)) =
      some (10#8, 3#8) := by decide

/-- Busy, with a register of each clause: an operand, a window word, CTRL, STATUS, CMD, a read-only register, a reserved offset. -/
theorem test_witness_WritesWhileBusy : (busy .mix pixelState).reg.busy = true ∧
    Reg.dim ∈ [Reg.srcAddr, .dstAddr, .dim, .rawR, .rawG, .rawB, .weightR, .weightG, .weightB, .brightness, .contrast] ∧
    (∃ j, Reg.lutw 63#6 = .lutw j) ∧
    Reg.statN ∈ [Reg.id, .statN, .statS1Lo, .statS1Hi, .statQ0, .statQ1, .statQ2, .statQ3, .progress, .faultAddr] ∧
    (0x200#12).toNat % 4 = 0 ∧ Reg.ofOffset 0x200#12 = none :=
  ⟨by decide, by decide, ⟨_, rfl⟩, by decide, by decide, by decide⟩

/-- The last entry of a window word of an idle machine, and a busy one. -/
theorem test_witness_LutWindow : 3 < 4 ∧ Regs.reset.busy = false ∧ (busy .mix pixelState).reg.busy = true := by decide

/-- An accepted start, a STATUS write, and a turn that completes. -/
theorem test_witness_IrqFollowsDoneAndErr :
    (pixelState.reg.busy = false ∧ ∃ t, exec .mix pixelState = .next t) ∧
    (∃ t, perform (.regWrite 0x008#12 4 0x6#32) pixelState = .next t) ∧
    ((busy .mix pixelState).reg.busy = true ∧ ∃ t, engineStep (busy .mix pixelState) = .next t ∧ t.reg.busy = false) :=
  ⟨⟨by decide, _, rfl⟩, ⟨_, rfl⟩, by decide, _, rfl, by decide⟩

theorem test_witness_CommandDroppedWhileBusy : (busy .run pixelState).reg.busy = true := by decide

/-- The least word of each kind, and neither for the last legal word. -/
theorem test_witness_ReservedWordIsIllegalCmd : State.reset.reg.busy = false ∧ 8 ≤ (0x00000008#32).toNat % 16 ∧
    16 ≤ (0x00000010#32).toNat ∧ ¬ (8 ≤ (0x00000007#32).toNat % 16 ∨ 16 ≤ (0x00000007#32).toNat) := by decide

/-- A first failing check of each code. -/
theorem test_witness_FirstFailingCheck : State.reset.reg.busy = false ∧ wellFormedWord 0x00000010#32 = false ∧ firstFailure .var State.reset.reg = .noStats ∧
    firstFailure .run State.reset.reg = .badDim ∧ firstFailure .normalize State.reset.reg = .badWeights ∧
    firstFailure .mix { pixelRegs with dst := 0xFFFFFFFF#32, width := 2#16 } = .addrRange ∧
    firstFailure .mix { pixelRegs with dst := 0x1002#32 } = .overlap := by decide

/-- A pass for each command; the destination just above the source is legal (B3.3). -/
theorem test_witness_PassingCommandStarts : pixelState.reg.busy = false ∧ firstFailure .nop pixelRegs = .none ∧
    firstFailure .normalize pixelRegs = .none ∧ firstFailure .mix { pixelRegs with dst := 0x1003#32 } = .none ∧
    firstFailure .sum pixelRegs = .none ∧ firstFailure .var pairRegs = .none ∧
    firstFailure .lutBuild fullState.reg = .none ∧ firstFailure .remap pixelRegs = .none ∧
    firstFailure .run pixelRegs = .none := by decide

/-- An arrival other than RUN, SUM and VAR while idle, and one of RUN. -/
theorem test_witness_ArrivalFrame : pixelState.reg.busy = false ∧ (∃ t, exec .mix pixelState = .next t) ∧
    ∃ t, exec .run pixelState = .next t :=
  ⟨by decide, ⟨_, rfl⟩, _, rfl⟩

theorem test_witness_NopCompletes : State.reset.reg.busy = false := by decide
theorem test_witness_NormalizeCompletes : pixelState.reg.busy = false ∧ pixelState.reg.rawSum ≠ 0 := by decide

theorem test_witness_MixCompletes : pixelState.reg.busy = false ∧ firstFailure .mix pixelState.reg = .none ∧
    pixelState.plat.mem.wf ∧ pixelState.plat.grants .read pixelState.reg.src.toNat (3 * pixelState.reg.pixels) ∧
    pixelState.plat.grants .write pixelState.reg.dst.toNat pixelState.reg.pixels :=
  ⟨by decide, by decide, by decide, pixel_grants _ _ _, pixel_grants _ _ _⟩

theorem test_witness_SumCompletes : pairState.reg.busy = false ∧ firstFailure .sum pairState.reg = .none ∧
    pairState.plat.grants .read pairState.reg.dst.toNat pairState.reg.pixels :=
  ⟨by decide, by decide, pair_grants _ _ _⟩

theorem test_witness_VarCompletes : pairState.reg.busy = false ∧ firstFailure .var pairState.reg = .none ∧
    pairState.reg.StatsOk ∧ pairState.plat.grants .read pairState.reg.dst.toNat pairState.reg.statN.toNat :=
  ⟨by decide, by decide, by decide, pair_grants _ _ _⟩

theorem test_witness_LutBuildCompletes : fullState.reg.busy = false ∧ fullState.reg.stats = .full := by decide

theorem test_witness_RemapCompletes : pairState.reg.busy = false ∧ firstFailure .remap pairState.reg = .none ∧
    pairState.plat.mem.wf ∧ pairState.plat.grants .read pairState.reg.dst.toNat pairState.reg.pixels ∧
    pairState.plat.grants .write pairState.reg.dst.toNat pairState.reg.pixels :=
  ⟨by decide, by decide, by decide, pair_grants _ _ _, pair_grants _ _ _⟩

theorem test_witness_RunWithContrastUnset : pixelState.reg.busy = false ∧ pixelState.reg.ctrlContrastEn = false ∧
    firstFailure .run pixelState.reg = .none ∧ pixelState.plat.mem.wf ∧
    pixelState.plat.grants .read pixelState.reg.src.toNat (3 * pixelState.reg.pixels) ∧
    pixelState.plat.grants .write pixelState.reg.dst.toNat pixelState.reg.pixels :=
  ⟨by decide, by decide, by decide, by decide, pixel_grants _ _ _, pixel_grants _ _ _⟩

/-- `pixelState` with contrast set. -/
def contrastState : State := stateOf { pixelRegs with ctrlContrastEn := true } pixelState.plat.mem

theorem contrast_grants (kind : AccessKind) (base len : Nat) : contrastState.plat.grants kind base len :=
  Platform.grants_of_quiet rfl rfl rfl kind base len

theorem test_witness_RunWithContrastSet : contrastState.reg.busy = false ∧ contrastState.reg.ctrlContrastEn = true ∧
    firstFailure .run contrastState.reg = .none ∧ contrastState.plat.mem.wf ∧
    contrastState.plat.grants .read contrastState.reg.src.toNat (3 * contrastState.reg.pixels) ∧
    contrastState.plat.grants .read contrastState.reg.dst.toNat contrastState.reg.pixels ∧
    contrastState.plat.grants .write contrastState.reg.dst.toNat contrastState.reg.pixels :=
  ⟨by decide, by decide, by decide, by decide, contrast_grants _ _ _, contrast_grants _ _ _, contrast_grants _ _ _⟩

/-- RUN over one pixel, with contrast unset and with contrast set, ends after its count of turns; the other hypotheses are those
of the two witnesses above. -/
theorem test_witness_RunEqualsItsParts :
    (result (issue .run (1 + pixelState.reg.pixels) pixelState)).map (fun t => (t.reg.done, t.reg.phase)) =
      some (true, .mix) ∧
    (result (issue .run (1 + 4 * contrastState.reg.pixels + 256) contrastState)).map
      (fun t => (t.reg.done, t.reg.phase, t.reg.stats, t.reg.s1, t.plat.mem.read 0x2000#32)) =
      some (true, .remap, .full, 79#40, 79#8) := by decide +kernel

/-- One pixel is a uniform image; the other hypotheses are those of `test_witness_RunWithContrastSet`. -/
theorem test_witness_UniformImage : ∀ i, i < contrastState.reg.pixels →
    contrastState.reg.normalized.mixOutput contrastState.plat.mem i = 79#8 := by decide

/-! #### Bus errors -/

/-- The first and the last read of a MIX unit, and the read of a SUM unit. -/
theorem test_witness_ReadBusError :
    ((busy .mix (erring .read 0x1000 pixelState)).reg.busy = true ∧
      (busy .mix (erring .read 0x1000 pixelState)).reg.phase = .mix ∧
      (busy .mix (erring .read 0x1000 pixelState)).plat.serves .read 0x1000 (0x1000 - 0x1000) ∧
      (busy .mix (erring .read 0x1000 pixelState)).plat.busErr .read (BitVec.ofNat 32 0x1000) = true) ∧
    ((busy .mix (erring .read 0x1002 pixelState)).plat.serves .read 0x1000 (0x1002 - 0x1000) ∧
      (busy .mix (erring .read 0x1002 pixelState)).plat.busErr .read (BitVec.ofNat 32 0x1002) = true) ∧
    ((busy .sum (erring .read 0x2000 pairState)).reg.phase ∈ [Phase.sum, .var, .remap] ∧
      0x2000 = (busy .sum (erring .read 0x2000 pairState)).reg.dst.toNat +
        (busy .sum (erring .read 0x2000 pairState)).reg.progress.toNat ∧
      (busy .sum (erring .read 0x2000 pairState)).plat.busErr .read (BitVec.ofNat 32 0x2000) = true) :=
  ⟨⟨by decide, by decide, Platform.serves_of_disjoint (by decide), by decide⟩,
    ⟨Platform.serves_of_disjoint (by decide), by decide⟩, by decide, by decide, by decide⟩

/-- A MIX write and a REMAP write. -/
theorem test_witness_WriteBusError :
    ((busy .mix (erring .write 0x2000 pixelState)).reg.busy = true ∧
      0x2000 = (busy .mix (erring .write 0x2000 pixelState)).reg.dst.toNat +
        (busy .mix (erring .write 0x2000 pixelState)).reg.progress.toNat ∧
      (busy .mix (erring .write 0x2000 pixelState)).plat.serves .read 0x1000 3 ∧
      (busy .mix (erring .write 0x2000 pixelState)).plat.busErr .write (BitVec.ofNat 32 0x2000) = true) ∧
    ((busy .remap (erring .write 0x2000 pairState)).reg.phase = .remap ∧
      (busy .remap (erring .write 0x2000 pairState)).plat.busErr .read (BitVec.ofNat 32 0x2000) = false ∧
      (busy .remap (erring .write 0x2000 pairState)).plat.busErr .write (BitVec.ofNat 32 0x2000) = true) :=
  ⟨⟨by decide, by decide, Platform.serves_of_disjoint (by decide), by decide⟩, by decide, by decide, by decide⟩

/-- The blue byte of pixel 0 errs: i = 0, k = 2. -/
theorem test_witness_MixBusError :
    (erring .read 0x1002 pixelState).reg.busy = false ∧ firstFailure .mix (erring .read 0x1002 pixelState).reg = .none ∧
    (erring .read 0x1002 pixelState).plat.mem.wf ∧ 0 < (erring .read 0x1002 pixelState).reg.pixels ∧
    (erring .read 0x1002 pixelState).plat.serves .read 0x1000 (3 * 0 + 2) ∧
    (erring .read 0x1002 pixelState).plat.uncontested 0x1000 3 ∧
    (erring .read 0x1002 pixelState).plat.serves .write 0x2000 0 ∧
    (erring .read 0x1002 pixelState).plat.uncontested 0x2000 1 ∧
    (erring .read 0x1002 pixelState).plat.busErr .read (BitVec.ofNat 32 (0x1000 + 3 * 0 + 2)) = true :=
  ⟨by decide, by decide, by decide, by decide, Platform.serves_of_disjoint (by decide),
    Platform.uncontested_of_quiet rfl rfl _ _, Platform.serves_of_disjoint (by decide),
    Platform.uncontested_of_quiet rfl rfl _ _, by decide⟩

/-- The second byte errs: i = 1. -/
theorem test_witness_SumBusError :
    (erring .read 0x2001 pairState).reg.busy = false ∧ firstFailure .sum (erring .read 0x2001 pairState).reg = .none ∧
    1 < (erring .read 0x2001 pairState).reg.pixels ∧ (erring .read 0x2001 pairState).plat.serves .read 0x2000 1 ∧
    (erring .read 0x2001 pairState).plat.uncontested 0x2000 2 ∧
    (erring .read 0x2001 pairState).plat.busErr .read (BitVec.ofNat 32 (0x2000 + 1)) = true :=
  ⟨by decide, by decide, by decide, Platform.serves_of_disjoint (by decide), Platform.uncontested_of_quiet rfl rfl _ _,
    by decide⟩

/-! #### Invariants and frames -/

/-- A busy state meets every invariant and steps. -/
theorem test_witness_Invariants : (busy .mix pixelState).Ok ∧ (busy .mix pixelState).reg.busy = true ∧
    ∃ t, step (busy .mix pixelState) = .next t :=
  ⟨⟨by decide, by decide, by decide, by decide, by decide⟩, by decide, _, rfl⟩

theorem test_witness_AccumulatorsNeverOverflow : fullState.reg.StatsOk := by decide

/-- A command running within the invariants, for each kind of step count; a successful start and its end. -/
theorem test_witness_EveryCommandEnds :
    ((busy .mix pixelState).reg.busy = true ∧ (busy .mix pixelState).reg.StatusOk ∧ (busy .mix pixelState).reg.EngineOk ∧
      (busy .mix pixelState).reg.StatsOk) ∧
    (pixelState.reg.busy = false ∧ firstFailure .run pixelState.reg = .none ∧ pixelState.reg.StatsOk) ∧
    (pairState.reg.busy = false ∧ firstFailure .var pairState.reg = .none ∧ pairState.reg.StatsOk) ∧
    (busy .var pairState).reg.commandSteps = 2 ∧ (busy .run contrastState).reg.commandSteps = 261 ∧
    (result (issue .run 1 pixelState)).map (fun t => t.reg.busy) = some true ∧
    (result (issue .run 2 pixelState)).map (fun t => t.reg.done) = some true :=
  ⟨⟨by decide, by decide, by decide, by decide⟩, ⟨by decide, by decide, by decide⟩, ⟨by decide, by decide, by decide⟩,
    by decide, by decide, by decide, by decide⟩

/-- A busy state, with no event, outside NORMALIZE and LUT_BUILD, and one in each of those phases. -/
theorem test_witness_OperandsStable : (busy .mix pixelState).inputs.head? ≠ some .reset ∧
    (busy .mix pixelState).reg.phase ≠ .normalize ∧ (busy .mix pixelState).reg.phase ≠ .lutBuild ∧
    (busy .run pixelState).reg.phase = .normalize ∧ (busy .lutBuild fullState).reg.phase = .lutBuild := by decide

/-- An idle turn; one turn in SUM and in VAR; a turn of MIX that ends in BUS_ERROR; and the turn of a RUN in which SUM begins. -/
theorem test_witness_EngineTurnFrame :
    (pixelState.reg.busy = false ∧ ∃ t, engineStep pixelState = .next t) ∧
    ((busy .sum pairState).reg.phase = .sum ∧ ∃ t, engineStep (busy .sum pairState) = .next t) ∧
    (∃ t, engineStep (busy .var pairState) = .next t) ∧
    (∃ t, engineStep (busy .mix (erring .read 0x1001 pixelState)) = .next t ∧ t.reg.faultAddr = 0x1001#32) ∧
    ∃ s t, issue .run 1 contrastState = .next s ∧ s.reg.phase = .mix ∧ engineStep s = .next t ∧ t.reg.phase = .sum :=
  ⟨⟨by decide, _, rfl⟩, ⟨by decide, _, rfl⟩, ⟨_, rfl⟩, ⟨_, rfl, by decide⟩, _, _, rfl, by decide, rfl, by decide⟩

theorem test_witness_HostEventFrame : (∃ t, perform (.regWrite 0x010#12 4 5#32) pixelState = .next t) ∧
    (∃ t, perform (.regRead 0x010#12 4) pixelState = .next t) ∧
    (∃ t, perform (.memWrite 0x2000#32 5#8) pixelState = .next t ∧ 0x2001#32 ≠ 0x2000#32) ∧
    ∃ t, perform (.memRead 0x2000#32) pixelState = .next t :=
  ⟨⟨_, rfl⟩, ⟨_, rfl⟩, ⟨_, rfl, by decide⟩, _, rfl⟩

/-- Idle, busy, and an address just outside the destination region. -/
theorem test_witness_ResetEventEffect : pixelState.reg.busy = false ∧ (busy .mix pixelState).reg.busy = true ∧
    (busy .mix pixelState).plat.mem.wf ∧
    (busy .mix pixelState).reg.dst.toNat + (busy .mix pixelState).reg.dstLen ≤ 2 ^ 32 ∧
    0 < (busy .mix pixelState).reg.dstLen ∧
    inRegion (busy .mix pixelState).reg.dst.toNat (busy .mix pixelState).reg.dstLen (0x2001#32).toNat = false := by decide

/-! #### DMA, races, coherence -/

/-- The other hypotheses are those of `test_witness_MixCompletes`. -/
theorem test_witness_MixAccessOrder : ∃ u, issue .mix pixelState.reg.pixels pixelState = .next u := ⟨_, rfl⟩

theorem test_witness_EngineReadsItsLatestWrite : pixelState.plat.mem.wf ∧
    (∃ q, dmaWrite 0x2000 7#8 pixelState.plat = .ok () q) ∧
    pixelState.plat.anyValue (BitVec.ofNat 32 0x2000) = false ∧ pixelState.plat.busErr .read (BitVec.ofNat 32 0x2000) = false ∧
    (0x2001 : Nat) ≠ 0x2000 ∧ (0x2001 : Nat) < 2 ^ 32 ∧ pixelState.plat.anyValue (BitVec.ofNat 32 0x2001) = false :=
  ⟨by decide, ⟨_, rfl⟩, by decide, by decide, by decide, by decide, by decide⟩

theorem test_witness_HandshakeOrdersMemory : pixelState.reg.busy = false ∧ pixelState.plat.coherent = true ∧
    pixelState.RacesOk ∧ pixelState.plat.mem.wf ∧ pixelState.plat.busErr .read 0x1000#32 = false := by decide

/-- A source byte and a destination byte of a running MIX, at the ends of their regions. -/
theorem test_witness_RacesGiveAnyValue : (busy .mix pixelState).reg.busy = true ∧
    inRegion (busy .mix pixelState).reg.src.toNat (busy .mix pixelState).reg.srcLen (0x1002#32).toNat = true ∧
    inRegion (busy .mix pixelState).reg.dst.toNat (busy .mix pixelState).reg.dstLen (0x2000#32).toNat = true ∧
    (busy .mix pixelState).plat.mem.wf ∧ (busy .mix pixelState).plat.busErr .read 0x1002#32 = false := by decide

/-- A running MIX after the host has written byte 0x1001 of its source region. -/
def racedState : State := hostMemWrite 0x1001#32 7#8 (busy .mix pixelState)

/-- A raced byte that was drawn, in a state that steps; and in a two-pixel MIX, whose command still runs after the step. -/
theorem test_witness_RacesPersist : 0x1001#32 ∈ racedState.plat.raced ∧ racedState.RacedDrawn ∧ racedState.plat.mem.wf ∧
    (∃ t, step racedState = .next t) ∧
    racedState.plat.busErr .read 0x1001#32 = false ∧ racedState.plat.busErr .write 0x1001#32 = false ∧
    (erring .write 0x1001 racedState).plat.busErr .write 0x1001#32 = true ∧
    0x1001#32 ∈ (hostMemWrite 0x1001#32 7#8 (busy .mix (stateOf { pixelRegs with width := 2#16 } []))).plat.raced ∧
    ∃ t, step (hostMemWrite 0x1001#32 7#8 (busy .mix (stateOf { pixelRegs with width := 2#16 } []))) = .next t ∧
      t.reg.busy = true := by
  have wf : racedState.plat.mem.wf := Memory.write_wf (by decide) _ _
  refine ⟨by decide, ?_, wf, ⟨_, rfl⟩, by decide, by decide, by decide, by decide, _, rfl, ?_⟩
  · intro a ha
    have e : a = 0x1001#32 := List.mem_singleton.mp (show a ∈ [0x1001#32] from ha)
    subst e
    exact ⟨by decide, 0, by decide, Memory.read_write_same (by decide) _ _⟩
  · rfl

/-- R228, log entry 7: a byte the host wrote, invalidated and only then cleaned is any value, not the host's byte. -/
theorem test_invalidate_before_clean :
    let s := { pixelState with plat := { pixelState.plat with coherent := false } }
    let t := hostCacheClean 0x1000 1 (hostCacheInvalidate 0x1000 1 (hostMemWrite 0x1000#32 7#8 s))
    t.plat.mem.read 0x1000#32 = Config.freeByte 0 ∧ t.plat.unclean = [] ∧ t.plat.stale = [0x1000#32] :=
  ⟨Memory.read_write_same (by decide) _ _, by decide, by decide⟩

/-! #### Steps, arithmetic, host programs -/

theorem test_witness_StepExecutesCommandWord :
    (State.reset.withFetchWord 32 7).inputs = .regWrite 0x00C#12 4 0x00000007#32 :: [] ∧
    decode 0x00000007#32 = .ok .run ∧ wellFormedWord 0x00000008#32 = false := by decide

theorem test_witness_StepTakesEngineTurn : (busy .mix pixelState).inputs = [] ∧ pixelState.reg.busy = false := by decide

theorem test_witness_Weights : pixelRegs.rawSum ≠ 0 ∧ pixelRegs.weight .red = pixelRegs.flooredWeight .red + 1 ∧
    pixelRegs.weight .green = pixelRegs.flooredWeight .green ∧ Regs.raw { pixelRegs with rawG := 0#16 } .green = 0 := by decide

/-- Weights that sum to 256, and BRIGHTNESS 0. -/
theorem test_witness_PixelArithmetic : pixelRegs.wR.toNat + pixelRegs.wG.toNat + pixelRegs.wB.toNat ≤ 256 ∧
    pixelRegs.brBits = 0#9 := by decide

/-- Two samples, 0 and 255, and one sample, whose deviation sum is 0. -/
theorem test_witness_DeviationSum : 0 < 2 ∧ 0 < 1 ∧ pairState.plat.mem.sampleSum 0x2000 2 = 255 ∧
    pairState.plat.mem.deviationSum 0x2001 1 1 255 = 0 := by decide

/-- The clauses of the table's shape: both signs of c, c = 0, an integer mean 1 = 2 / 2, and c / sigma = 1 (B6, row (2, 2, 8)). -/
theorem test_witness_ContrastTable : 0 < 2 ∧ (0 : Int) ≤ 1 ∧ (-1 : Int) < 0 ∧ 2 = 1 * 2 ∧ 1 ≤ 255 ∧ 0 < 8 ∧
    (1 : Int) ^ 2 * ((2 : Nat) : Int) ^ 3 = ((8 : Nat) : Int) := by decide

theorem test_witness_WrlutSetsOneEntry : State.reset.reg.busy = false ∧
    (State.reset.withProgram [.wrlut 5#8 9#8]).inputs = .wrlut 5#8 9#8 :: [] := by decide

end Sys2Proof.Tests
end

/-! ## What a step can do to the registers

Inversion lemmas for the steps, the host's register port and the arrival of commands (spec/40_lifecycle.md R400 to R407,
spec/70_reset_and_hazards.md R1140). -/

namespace Sys2Proof.Machine

/-! ### The register map (R103) -/

/-- The word of register `k` of the first block stands at offset 4k (R103). -/
theorem Reg.firstWords_offset {k : Nat} {r : Reg} (h : Reg.firstWords[k]? = some r) : r.offset.toNat = 4 * k := by
  obtain ⟨hk, rfl⟩ := List.getElem?_eq_some_iff.mp h
  have table : ∀ i : Fin 24, (Reg.firstWords[i]).offset.toNat = 4 * i := by decide
  exact table ⟨k, hk⟩

/-- Window word `j` stands at offset 0x100 + 4j (R129). -/
theorem Reg.lutw_offset_toNat (j : BitVec 6) : (Reg.lutw j).offset.toNat = 0x100 + 4 * j.toNat := by
  have := j.isLt
  simp only [Reg.offset, BitVec.toNat_ofNat]
  omega

/-- The register found at an aligned offset stands at that offset (R103). -/
theorem Reg.offset_of_ofOffset {o : BitVec 12} {r : Reg} (ha : o.toNat % 4 = 0) (h : Reg.ofOffset o = some r) :
    r.offset = o := by
  apply BitVec.eq_of_toNat_eq
  unfold Reg.ofOffset at h
  split at h
  · have := Reg.firstWords_offset h
    omega
  · split at h
    · cases h
      rw [Reg.lutw_offset_toNat, BitVec.toNat_ofNat]
      omega
    · cases h

/-! ### Register transactions (R200, R206, R409) -/

/-- A served read replies with the register's value and changes nothing else (R409). -/
theorem perform_regRead_offset (r : Reg) (s : State) :
    perform (.regRead r.offset 4) s = .next { s with reply := .data .ok (s.reg.readReg r) } := by
  simp [perform, hostRegRead, Regs.readOffset, Reg.ofOffset_offset, Reg.offset_served]

/-- A served write of a register other than CMD (R408). -/
theorem perform_regWrite_offset {r : Reg} (h : r ≠ .cmd) (d : Word) (s : State) :
    perform (.regWrite r.offset 4 d) s = .next { s with reply := .written .ok, reg := s.reg.writeReg d r } := by
  simp [perform, hostRegWrite, Reg.ofOffset_offset, Reg.offset_served, h]

/-- Everything a register write can do to the registers: nothing, a write of a register other than CMD, or a command. -/
theorem hostRegWrite_next {o : BitVec 12} {size : Nat} {d : Word} {s t : State} (h : hostRegWrite o size d s = .next t) :
    t.reg = s.reg ∨ (∃ r, t.reg = s.reg.writeReg d r) ∨ command d { s with reply := .written .ok } = .next t := by
  unfold hostRegWrite at h
  split at h
  · split at h
    case h_1 r _ =>
      split at h
      · exact .inr (.inr h)
      · cases h; exact .inr (.inl ⟨r, rfl⟩)
    case h_2 => cases h; exact .inl rfl
  · cases h; exact .inl rfl

/-! ### What a write of each kind of register does (R408) -/

theorem Regs.writeReg_operand_idle {g : Regs} {r : Reg} (hb : g.busy = false) (hr : r.isOperand = true) (d : Word) :
    g.writeReg d r = g.setOperand d r := by
  simp [Regs.writeReg, hr, hb]

theorem Regs.writeReg_operand_busy {g : Regs} {r : Reg} (hb : g.busy = true) (hr : r.isOperand = true) (d : Word) :
    g.writeReg d r = { g with wrIgnored := true } := by
  simp [Regs.writeReg, hr, hb]

theorem Regs.writeReg_ctrl (d : Word) (g : Regs) : g.writeReg d .ctrl = g.setCtrl d := rfl

theorem Regs.writeReg_status (d : Word) (g : Regs) : g.writeReg d .status = g.clearFlags d := rfl

theorem Regs.writeReg_readOnly {g : Regs} {r : Reg} (hr : r.isOperand = false) (hc : r ≠ .ctrl) (hs : r ≠ .status)
    (d : Word) : g.writeReg d r = g := by
  simp [Regs.writeReg, hr, hc, hs]

/-- Everything a write of a register other than CMD can do. -/
theorem Regs.writeReg_cases (d : Word) (g : Regs) (r : Reg) :
    g.writeReg d r = g.setOperand d r ∨ g.writeReg d r = { g with wrIgnored := true } ∨
    g.writeReg d r = g.setCtrl d ∨ g.writeReg d r = g.clearFlags d ∨ g.writeReg d r = g := by
  cases hr : r.isOperand
  · by_cases hc : r = .ctrl
    · subst hc; exact .inr (.inr (.inl rfl))
    · by_cases hs : r = .status
      · subst hs; exact .inr (.inr (.inr (.inl rfl)))
      · exact .inr (.inr (.inr (.inr (Regs.writeReg_readOnly hr hc hs d))))
  · by_cases hb : g.busy = true
    · exact .inr (.inl (Regs.writeReg_operand_busy hb hr d))
    · exact .inl (Regs.writeReg_operand_idle (by simpa using hb) hr d)

/-! ### The arrival of a command -/

/-- The acceptance checks of a command, in the order in which it makes them (R1001). -/
def checksOf (i : Instr) (g : Regs) : Option ErrCode :=
  match i with
  | .nop => none
  | .normalize => firstError [checkWeights g]
  | .mix => firstError [checkDim g, checkSrcRange g, checkDstRange g.pixels g, checkOverlap g]
  | .sum => firstError [checkDim g, checkDstRange g.pixels g]
  | .var => firstError [checkMean g, checkDstRange g.statN.toNat g]
  | .lutBuild => firstError [checkFull g]
  | .remap => firstError [checkDim g, checkDstRange g.pixels g]
  | .run => firstError [checkDim g, checkWeights g, checkSrcRange g, checkDstRange g.pixels g, checkOverlap g]

/-- The start of a command's first phase (R404); RUN latches CL before it (R900). -/
def startOf (i : Instr) (g : Regs) : Regs :=
  if i = .run then g.latchContrast.enterPhase .normalize else g.enterPhase (firstPhaseOf i)

/-- Every command arrives by the shared acceptance, with its own checks and its own start (R400 to R404). -/
theorem exec_eq_accept (i : Instr) (s : State) : exec i s = accept (opcodeFor i) (checksOf i) (startOf i) s := by
  cases i <;> rfl

/-- Every word arrives by the shared acceptance: a command's with its checks, a reserved word's with a check that fails
(R305). -/
theorem command_eq_accept (c : Word) (s : State) :
    (∃ i, decode c = .ok i ∧ command c s = accept (opcodeFor i) (checksOf i) (startOf i) s) ∨
    (∃ e, decode c = .error e ∧ command c s = accept (opcodeOf c) (fun _ => some .illegalCmd) id s) := by
  cases hd : decode c with
  | ok i => exact .inl ⟨i, rfl, by rw [← exec_eq_accept]; simp [command, hd]⟩
  | error e => exact .inr ⟨e, rfl, by simp [command, hd, illegalCommand]⟩

/-! ### Events and steps -/

/-- Everything an event can do to the registers: a turn of the engine, a register write, the reset event, or nothing. -/
theorem perform_next {e : Event} {s t : State} (h : perform e s = .next t) :
    (e = .engine ∧ engineStep s = .next t) ∨
    (∃ o size d, e = .regWrite o size d ∧ hostRegWrite o size d s = .next t) ∨
    (e = .reset ∧ t = resetEvent s) ∨ t.reg = s.reg := by
  cases e
  case engine => exact .inl ⟨rfl, h⟩
  case regWrite o size d => exact .inr (.inl ⟨o, size, d, rfl, h⟩)
  case reset => cases h; exact .inr (.inr (.inl ⟨rfl, rfl⟩))
  case regRead => cases h; right; right; right; unfold hostRegRead; split <;> rfl
  case memRead => cases h; right; right; right; unfold hostMemRead; split <;> rfl
  all_goals cases h; exact .inr (.inr (.inr rfl))

/-- A step is the engine's turn, or the next event with the list shortened (R405, R1140). -/
theorem step_next {s t : State} (h : step s = .next t) :
    (s.inputs = [] ∧ engineStep s = .next t) ∨
    (∃ e rest, s.inputs = e :: rest ∧ perform e { s with inputs := rest } = .next t) := by
  unfold step turn at h
  cases hi : s.inputs with
  | nil => exact .inl ⟨rfl, by simpa [hi] using h⟩
  | cons e rest => exact .inr ⟨e, rest, rfl, by simpa [hi] using h⟩

/-- What a step can do to the registers, from a state `u` that differs from the step's first state in the events to come and
the reply alone: a turn of the engine, the arrival of a command word, a register write, the reset event, or nothing. -/
theorem step_reg_cases {s t : State} (h : step s = .next t) :
    ∃ u : State, u.reg = s.reg ∧ u.plat = s.plat ∧
      (engineStep u = .next t ∨ (∃ c, command c u = .next t) ∨ (∃ d r, t.reg = u.reg.writeReg d r) ∨
        (s.inputs.head? = some .reset ∧ t.reg = Regs.reset) ∨ t.reg = u.reg) := by
  rcases step_next h with ⟨-, h⟩ | ⟨e, rest, hi, h⟩
  · exact ⟨s, rfl, rfl, .inl h⟩
  rcases perform_next h with ⟨-, h⟩ | ⟨o, size, d, -, h⟩ | ⟨rfl, rfl⟩ | h
  · exact ⟨{ s with inputs := rest }, rfl, rfl, .inl h⟩
  · rcases hostRegWrite_next h with h | ⟨r, h⟩ | h
    · exact ⟨s, rfl, rfl, .inr (.inr (.inr (.inr h)))⟩
    · exact ⟨s, rfl, rfl, .inr (.inr (.inl ⟨d, r, h⟩))⟩
    · exact ⟨{ s with inputs := rest, reply := .written .ok }, rfl, rfl, .inr (.inl ⟨d, h⟩)⟩
  · exact ⟨s, rfl, rfl, .inr (.inr (.inr (.inl ⟨by simp [hi], rfl⟩)))⟩
  · exact ⟨s, rfl, rfl, .inr (.inr (.inr (.inr h)))⟩

end Sys2Proof.Machine

/-! ## BUSY, DONE, ERR and ERR_CODE (spec/10_state.md R112, R113; spec/44_contrast.md R804) -/

namespace Sys2Proof.Machine

/-! ### Updates that touch none of the four fields -/

/-- Two register states agree in BUSY, DONE, ERR and ERR_CODE. -/
structure Regs.SameStatus (g h : Regs) : Prop where
  busy : h.busy = g.busy
  done : h.done = g.done
  err : h.err = g.err
  errCode : h.errCode = g.errCode

theorem Regs.SameStatus.statusOk {g h : Regs} (k : g.SameStatus h) (hg : g.StatusOk) : h.StatusOk := by
  rw [Regs.StatusOk, k.busy, k.done, k.err, k.errCode]
  exact hg

theorem Regs.setOperand_sameStatus (d : Word) (g : Regs) (r : Reg) : g.SameStatus (g.setOperand d r) := by
  cases r <;> exact ⟨rfl, rfl, rfl, rfl⟩

theorem startOf_sameStatus (i : Instr) (g : Regs) : g.SameStatus (startOf i g) := by
  cases i <;> exact ⟨rfl, rfl, rfl, rfl⟩

theorem workUnit_ok_sameStatus {g g' : Regs} {p p' : Platform} (h : workUnit g p = .ok g' p') : g.SameStatus g' := by
  rw [workUnit_ok_regs h]
  exact ⟨rfl, rfl, rfl, rfl⟩

/-- The end of a unit leaves the four fields, or it completes the command (R405, R406). -/
theorem Regs.advance_status (g : Regs) :
    g.SameStatus g.advance ∨ ∃ h, g.SameStatus h ∧ g.advance = h.complete := by
  rcases g.advance_cases with ⟨-, e⟩ | ⟨-, ph, -, e⟩ | ⟨-, -, e⟩
  · exact .inl (e ▸ ⟨rfl, rfl, rfl, rfl⟩)
  · exact .inl (e ▸ ⟨by simp, by simp, by simp, by simp⟩)
  · exact .inr ⟨_, ⟨by simp, by simp, by simp, by simp⟩, e⟩

/-! ### Updates that set them -/

/-- A code that an error may record: not "no error", and not the code R804 reserves. -/
def ErrCode.Recordable (e : ErrCode) : Prop := e ≠ .none ∧ e ≠ .contrastFail

/-- The first failing check is one of the list (R1001). -/
theorem mem_of_firstError_eq_some {l : List (Option ErrCode)} {e : ErrCode} (h : firstError l = some e) : some e ∈ l := by
  induction l with
  | nil => cases h
  | cons c rest ih =>
    cases c with
    | none => exact List.mem_cons_of_mem _ (ih h)
    | some e' => cases h; exact List.mem_cons_self

/-- Every acceptance check that fails names a recordable code (R1000, R804). -/
theorem checksOf_recordable {i : Instr} {g : Regs} {e : ErrCode} (h : checksOf i g = some e) : e.Recordable := by
  have each : some e ∈ [checkMean g, checkFull g, checkDim g, checkWeights g, checkSrcRange g, checkDstRange g.pixels g,
      checkDstRange g.statN.toNat g, checkOverlap g] := by
    cases i
    case nop => cases h
    all_goals
      have := mem_of_firstError_eq_some h
      simp only [List.mem_cons, List.not_mem_nil, or_false] at this ⊢
      tauto
  simp only [List.mem_cons, List.not_mem_nil, or_false] at each
  rcases each with h | h | h | h | h | h | h | h
  all_goals
    simp only [checkMean, checkFull, checkDim, checkWeights, checkSrcRange, checkDstRange, checkOverlap] at h
    split at h <;> cases h
    exact ⟨by decide, by decide⟩

theorem Regs.clearFlags_statusOk (d : Word) {g : Regs} (h : g.StatusOk) : (g.clearFlags d).StatusOk := by
  obtain ⟨hbd, hbe, hde, hc, h8⟩ := h
  cases hd : d[2]
  · have hn : (g.clearFlags d).errCode = g.errCode := by simp [hd]
    refine ⟨?_, ?_, ?_, by rw [hn, hc]; simp [hd], by rw [hn]; exact h8⟩
    all_goals simp; tauto
  · simp [Regs.StatusOk, hd]
    tauto

theorem Regs.raiseError_statusOk {e : ErrCode} (he : e.Recordable) {g : Regs} (hb : g.busy = false) (hd : g.done = false) :
    (g.raiseError e).StatusOk := by
  simp [Regs.StatusOk, hb, hd, he.1, he.2]

/-- A running command's completion, and its bus error, start from DONE = ERR = 0. -/
theorem Regs.StatusOk.of_busy {g : Regs} (h : g.StatusOk) (hb : g.busy = true) :
    g.done = false ∧ g.err = false ∧ g.errCode = .none := by
  obtain ⟨hd, he, -, hc, -⟩ := h
  have he : g.err = false := by simpa [hb] using he
  exact ⟨by simpa [hb] using hd, he, by simpa [he] using hc⟩

theorem Regs.complete_statusOk {g : Regs} (h : g.StatusOk) (hb : g.busy = true) : g.complete.StatusOk := by
  obtain ⟨-, he, hc⟩ := h.of_busy hb
  simp [Regs.StatusOk, he, hc]

theorem Regs.busFault_statusOk (a : Word) {g : Regs} (h : g.StatusOk) (hb : g.busy = true) : (g.busFault a).StatusOk := by
  obtain ⟨hd, -, -⟩ := h.of_busy hb
  simp [Regs.StatusOk, hd]

/-! ### Every way the registers can change -/

theorem Regs.writeReg_statusOk (d : Word) {g : Regs} (r : Reg) (h : g.StatusOk) : (g.writeReg d r).StatusOk := by
  rcases g.writeReg_cases d r with e | e | e | e | e <;> rw [e]
  · exact (g.setOperand_sameStatus d r).statusOk h
  · exact h
  · exact h
  · exact g.clearFlags_statusOk d h
  · exact h

theorem accept_statusOk {opcode : BitVec 4} {checks : Regs → Option ErrCode} {start : Regs → Regs} {s t : State}
    (hc : ∀ g e, checks g = some e → e.Recordable) (hs : ∀ g, Regs.SameStatus g (start g)) (hok : s.reg.StatusOk)
    (h : accept opcode checks start s = .next t) : t.reg.StatusOk := by
  rcases accept_next h with ⟨-, rfl⟩ | ⟨hb, e, he, rfl⟩ | ⟨-, -, rfl⟩
  · exact hok
  · exact Regs.raiseError_statusOk (hc _ e he) hb rfl
  · exact (hs _).statusOk (by simp [Regs.StatusOk])

theorem command_statusOk {c : Word} {s t : State} (hok : s.reg.StatusOk) (h : command c s = .next t) : t.reg.StatusOk := by
  rcases command_eq_accept c s with ⟨i, -, e⟩ | ⟨_, -, e⟩ <;> rw [e] at h
  · exact accept_statusOk (fun _ _ => checksOf_recordable) (startOf_sameStatus i) hok h
  · exact accept_statusOk (by rintro _ _ ⟨⟩; simp [ErrCode.Recordable]) (fun _ => ⟨rfl, rfl, rfl, rfl⟩) hok h

theorem engineStep_statusOk {s t : State} (hok : s.reg.StatusOk) (h : engineStep s = .next t) : t.reg.StatusOk := by
  rcases engineStep_next h with ⟨-, rfl⟩ | ⟨hb, g, p, hu, rfl⟩ | ⟨hb, a, p, -, rfl⟩
  · exact hok
  · have hg := workUnit_ok_sameStatus hu
    rcases g.advance_status with k | ⟨f, k, e⟩
    · exact k.statusOk (hg.statusOk hok)
    · rw [e]
      exact Regs.complete_statusOk (k.statusOk (hg.statusOk hok)) (by rw [k.busy, hg.busy, hb])
  · exact Regs.busFault_statusOk a hok hb

/-- Settles O36: the invariant is kept by each of the ways in which a step changes the registers. -/
theorem statusFlagsStayExclusive : Obligations.StatusFlagsStayExclusive := by
  refine ⟨by decide, fun s t hok h => ?_⟩
  obtain ⟨u, hreg, -, hu⟩ := step_reg_cases h
  rw [← hreg] at hok
  rcases hu with h | ⟨c, h⟩ | ⟨d, r, h⟩ | ⟨-, h⟩ | h
  · exact engineStep_statusOk hok h
  · exact command_statusOk hok h
  · exact h ▸ u.reg.writeReg_statusOk d r hok
  · exact h ▸ (by decide : Regs.reset.StatusOk)
  · exact h ▸ hok

end Sys2Proof.Machine

/-! ## The register port, register by register (spec/10_state.md R103, R110 to R130) -/

namespace Sys2Proof.Machine

/-! ### Placed fields -/

/-- The bits of a placed field, read back. -/
theorem placed_extractLsb'_same {w : Nat} (x : BitVec w) {lo : Nat} (h : lo + w ≤ 32) :
    (placed x lo).extractLsb' lo w = x := by
  apply BitVec.eq_of_getLsbD_eq
  intro i hi
  rw [BitVec.getLsbD_extractLsb', placed_getLsbD]
  simp [hi, show lo + i < 32 by omega]

/-- Bits outside a placed field are 0. -/
theorem placed_extractLsb'_disjoint {w : Nat} (x : BitVec w) {lo a n : Nat} (h : lo + w ≤ a ∨ a + n ≤ lo) :
    (placed x lo).extractLsb' a n = 0#n := by
  apply BitVec.eq_of_getLsbD_eq
  intro i hi
  rw [BitVec.getLsbD_extractLsb', placed_getLsbD, BitVec.getLsbD_zero]
  rcases h with h | h
  · simp [BitVec.getLsbD_of_ge x (a + i - lo) (by omega)]
  · simp [show a + i < lo by omega]

/-- A placed field as a number. -/
theorem placed_toNat {w lo : Nat} (x : BitVec w) (h : lo + w ≤ 32) : (placed x lo).toNat = 2 ^ lo * x.toNat := by
  have hx : x.toNat < 2 ^ 32 := x.isLt.trans_le (Nat.pow_le_pow_right (by omega) (by omega))
  have hs : 2 ^ lo * x.toNat < 2 ^ 32 := calc
    2 ^ lo * x.toNat < 2 ^ lo * 2 ^ w := Nat.mul_lt_mul_of_pos_left x.isLt (Nat.two_pow_pos lo)
    _ = 2 ^ (lo + w) := (Nat.pow_add 2 lo w).symm
    _ ≤ 2 ^ 32 := Nat.pow_le_pow_right (by omega) h
  rw [placed, BitVec.toNat_shiftLeft, BitVec.toNat_setWidth, Nat.mod_eq_of_lt hx, Nat.shiftLeft_eq, Nat.mul_comm,
    Nat.mod_eq_of_lt hs]

/-- A bit of a word as a field of one bit. -/
theorem ofBool_getLsbD {w : Nat} (x : BitVec w) (k : Nat) : BitVec.ofBool (x.getLsbD k) = x.extractLsb' k 1 := by
  apply BitVec.eq_of_getLsbD_eq
  intro i hi
  obtain rfl : i = 0 := by omega
  simp

/-- A field at bit 0 reads as its own value. -/
theorem placed_zero_toNat {w : Nat} (x : BitVec w) (h : w ≤ 32) : (placed x 0).toNat = x.toNat := by
  rw [placed_toNat x (by omega), Nat.pow_zero, Nat.one_mul]

/-- Two neighbouring fields read as one number. -/
theorem placed_or_toNat {v w : Nat} (x : BitVec v) (y : BitVec w) (h : v + w ≤ 32) :
    (placed x 0 ||| placed y v).toNat = 2 ^ v * y.toNat + x.toNat := by
  rw [BitVec.toNat_or, placed_zero_toNat x (by omega), placed_toNat y h, Nat.two_pow_add_eq_or_of_lt x.isLt, Nat.or_comm]

/-- Bits of a word put back where they were taken from. -/
theorem placed_extractLsb'_getLsbD (d : Word) (lo n : Nat) {i : Nat} (hi : i < 32) :
    (placed (d.extractLsb' lo n) lo).getLsbD i = (decide (lo ≤ i ∧ i < lo + n) && d.getLsbD i) := by
  rw [placed_getLsbD, BitVec.getLsbD_extractLsb']
  by_cases hlo : lo ≤ i
  · have hn : i - lo < n ↔ i < lo + n := by omega
    simp [hi, hlo, hn, Nat.add_sub_of_le hlo]
  · simp [hlo, Nat.lt_of_not_le hlo]

/-- The low bits of a word, put back. -/
theorem placed_low_bits (d : Word) (n : Nat) :
    placed (d.extractLsb' 0 n) 0 = d &&& BitVec.ofNat 32 (2 ^ n - 1) := by
  apply BitVec.eq_of_getLsbD_eq
  intro i hi
  rw [placed_extractLsb'_getLsbD d 0 n hi, BitVec.getLsbD_and, BitVec.getLsbD_ofNat, Nat.testBit_two_pow_sub_one]
  simp [hi, Bool.and_comm]

/-- Neighbouring low fields, put back side by side. -/
theorem placed_low_pair (d : Word) (m n : Nat) :
    placed (d.extractLsb' 0 m) 0 ||| placed (d.extractLsb' m n) m = d &&& BitVec.ofNat 32 (2 ^ (m + n) - 1) := by
  apply BitVec.eq_of_getLsbD_eq
  intro i hi
  rw [BitVec.getLsbD_or, placed_extractLsb'_getLsbD d 0 m hi, placed_extractLsb'_getLsbD d m n hi, BitVec.getLsbD_and,
    BitVec.getLsbD_ofNat, Nat.testBit_two_pow_sub_one]
  grind

/-- Words with the same four bytes are equal. -/
theorem Word.ext_bytes {c d : Word} (h : ∀ k < 4, c.extractLsb' (8 * k) 8 = d.extractLsb' (8 * k) 8) : c = d := by
  apply BitVec.eq_of_getLsbD_eq
  intro i hi
  have hb := congrArg (·.getLsbD (i % 8)) (h (i / 8) (by omega))
  have e : 8 * (i / 8) + i % 8 = i := by omega
  simpa [BitVec.getLsbD_extractLsb', e, Nat.mod_lt] using hb

/-! ### The LUT window (R129) -/

/-- Byte `k` of window word `j` is entry 4j + k. -/
theorem Lut.window_byte (l : Lut) (j : BitVec 6) {k : Nat} (hk : k < 4) :
    (l.window j).extractLsb' (8 * k) 8 = l.entry (Lut.index j k) := by
  unfold Lut.window
  rw [BitVec.extractLsb'_or, BitVec.extractLsb'_or, BitVec.extractLsb'_or]
  interval_cases k
  all_goals simp (disch := omega) only [placed_extractLsb'_same, placed_extractLsb'_disjoint, BitVec.or_zero, BitVec.zero_or]

/-- Entry `k` of window word `j` is the entry in word `j` whose number is `k` modulo 4. -/
theorem Lut.eq_index_iff (v : Byte) (j : BitVec 6) {k : Nat} (hk : k < 4) :
    v = Lut.index j k ↔ v.toNat / 4 = j.toNat ∧ v.toNat % 4 = k := by
  rw [← BitVec.toNat_inj, Lut.index_toNat j hk]
  omega

/-- A window write sets its four entries and no other. -/
theorem Lut.entry_setWindow (l : Lut) (j : BitVec 6) (d : Word) (v : Byte) :
    (l.setWindow j d).entry v = if v.toNat / 4 = j.toNat then d.extractLsb' (8 * (v.toNat % 4)) 8 else l.entry v := by
  simp only [Lut.setWindow, Lut.entry_put, Lut.eq_index_iff, Nat.lt_add_one, Nat.reduceLT]
  by_cases h : v.toNat / 4 = j.toNat
  · have : v.toNat % 4 < 4 := Nat.mod_lt _ (by omega)
    interval_cases v.toNat % 4 <;> simp [h]
  · simp [h]

/-- A window word reads as it was written. -/
theorem Lut.window_setWindow_same (l : Lut) (j : BitVec 6) (d : Word) : (l.setWindow j d).window j = d := by
  refine Word.ext_bytes fun k hk => ?_
  obtain ⟨hj, hm⟩ := (Lut.eq_index_iff (Lut.index j k) j hk).mp rfl
  rw [Lut.window_byte _ _ hk, Lut.entry_setWindow, if_pos hj, hm]

/-- A write of one window word leaves every other. -/
theorem Lut.window_setWindow_other (l : Lut) {i j : BitVec 6} (h : i ≠ j) (d : Word) :
    (l.setWindow j d).window i = l.window i := by
  refine Word.ext_bytes fun k hk => ?_
  obtain ⟨hi, -⟩ := (Lut.eq_index_iff (Lut.index i k) i hk).mp rfl
  have hj : (Lut.index i k).toNat / 4 ≠ j.toNat := by rwa [hi, ne_eq, BitVec.toNat_inj]
  rw [Lut.window_byte _ _ hk, Lut.window_byte _ _ hk, Lut.entry_setWindow, if_neg hj]

theorem Lut.entry_identity (v : Byte) : Lut.identity.entry v = v := by
  simp [Lut.identity, Lut.entry]

end Sys2Proof.Machine

/-! ### Settled: the registers as the host reads and writes them -/

namespace Sys2Proof.Machine

/-- A host write of an operand register or window word while idle (R408). -/
theorem perform_regWrite_operand_idle {s : State} {r : Reg} (hb : s.reg.busy = false) (hr : r.isOperand = true) (d : Word) :
    perform (.regWrite r.offset 4 d) s = .next { s with reply := .written .ok, reg := s.reg.setOperand d r } := by
  have hc : r ≠ .cmd := by rintro rfl; cases hr
  rw [perform_regWrite_offset hc, Regs.writeReg_operand_idle hb hr]

/-- An operand register or window word reads back the bits of its field (R117 to R123, R129). -/
theorem Regs.readReg_setOperand_same {g : Regs} {r : Reg} (hb : g.busy = false) (hr : r.isOperand = true) (d : Word) :
    (g.setOperand d r).readReg r = d &&& r.fieldMask := by
  have whole : d &&& 0xFFFFFFFF#32 = d := BitVec.and_allOnes
  cases r
  case srcAddr | dstAddr => exact whole.symm
  case dim => exact placed_low_pair d 16 16
  case rawR | rawG | rawB => exact placed_low_bits d 16
  case weightR | weightG | weightB | brightness | contrast => exact placed_low_bits d 9
  case lutw j => simp only [Regs.readReg, Regs.setOperand, hb, Lut.window_setWindow_same, Reg.fieldMask, whole]; rfl
  all_goals cases hr

/-- An operand write leaves what every other register reads. -/
theorem Regs.readReg_setOperand_other (g : Regs) {r r' : Reg} (h : r' ≠ r) (d : Word) :
    (g.setOperand d r).readReg r' = g.readReg r' := by
  cases r
  case lutw j =>
    cases r'
    case lutw i =>
      have hij : i ≠ j := fun e => h (e ▸ rfl)
      simp only [Regs.readReg, Regs.setOperand, Lut.window_setWindow_other _ hij]
    all_goals rfl
  all_goals cases r' <;> first | rfl | exact absurd rfl h

/-- Settles O6: ID is a constant of the register map, and read-only. -/
theorem idIsHardwired : Obligations.IdIsHardwired := by
  intro s d
  refine ⟨perform_regRead_offset .id s, ?_⟩
  have h := perform_regWrite_offset (r := .id) (by decide) d s
  rwa [Regs.writeReg_readOnly rfl (by decide) (by decide)] at h

/-- Settles O4: a reserved offset names no register. -/
theorem reservedOffsetsReadZeroIgnoreWrites : Obligations.ReservedOffsetsReadZeroIgnoreWrites := by
  intro s o d ha hr
  have served : portServes o 4 = true := by simp [portServes, ha]
  constructor
  · simp [perform, hostRegRead, served, Regs.readOffset, Reg.ofOffset_reserved hr]
  · simp [perform, hostRegWrite, served, Reg.ofOffset_reserved hr]

/-- Settles O12: CTRL is no operand register, so BUSY does not matter to its write. -/
theorem ctrlWriteActsAlways : Obligations.CtrlWriteActsAlways := by
  intro s d
  refine ⟨_, perform_regWrite_offset (r := .ctrl) (by decide) d s, rfl, ?_⟩
  simp only [Regs.writeReg_ctrl, Regs.readReg, Regs.setCtrl_ctrlContrastEn, Regs.setCtrl_ctrlIrqEn, ofBool_getLsbD]
  exact placed_low_pair d 1 1

/-- Settles O11: STATUS takes every write, by its write-one-to-clear bits. -/
theorem statusWriteClearsFlags : Obligations.StatusWriteClearsFlags := by
  intro s d
  refine ⟨_, perform_regWrite_offset (r := .status) (by decide) d s, ?_⟩
  simp only [Regs.writeReg_status]
  refine ⟨by simp, by simp, by simp, by simp, fun h => ?_, fun h => ?_, rfl⟩
  · simp only [Regs.clearFlags_errCode, h, if_true]
  · simp only [Regs.clearFlags_errCode, h, Bool.false_eq_true, if_false]

/-- Settles O10: each field of STATUS is placed at its own bits, so the other placed fields are 0 there. -/
theorem statusWordFields : Obligations.StatusWordFields := by
  refine ⟨fun g => ?_, by decide, by decide, by decide⟩
  simp (disch := omega) only [Regs.readReg, Regs.statusWord, ← BitVec.ofBool_eq_iff_eq, ofBool_getLsbD, BitVec.extractLsb'_or,
    placed_extractLsb'_same, placed_extractLsb'_disjoint, BitVec.or_zero, BitVec.zero_or, and_self]

/-- Settles O9: the packing of a window word, both ways, and the identity table of reset. -/
theorem lutWindowPacksFourEntries : Obligations.LutWindowPacksFourEntries := by
  refine ⟨Reg.lutw_offset_toNat, fun g j k hk hb => ?_, fun s j d => ?_, Lut.entry_setWindow, fun g j hb => ?_,
    Lut.entry_identity⟩
  · have e : g.readReg (.lutw j) = g.lut.window j := by simp [Regs.readReg, hb]
    rw [e]
    exact g.lut.window_byte j hk
  · rw [perform_regWrite_offset (by simp)]
    cases hb : s.reg.busy
    · rw [Regs.writeReg_operand_idle hb rfl]; rfl
    · rw [Regs.writeReg_operand_busy hb rfl]; rfl
  · simp [Regs.readReg, hb]

/-- Settles O3: the offsets are those of the table, and each register reads its placed fields. -/
theorem registerMapIsInjective : Obligations.RegisterMapIsInjective := by
  refine ⟨fun r => ⟨Reg.ofOffset_offset r, Reg.offset_served r⟩, fun o r => Reg.offset_of_ofOffset,
    ⟨rfl, rfl, rfl, rfl, rfl, rfl, rfl, rfl, rfl, rfl, rfl, rfl, rfl, rfl, rfl, rfl, rfl, rfl, rfl, rfl, rfl, rfl, rfl, rfl,
      Reg.lutw_offset_toNat⟩, fun s r => perform_regRead_offset r s, fun g => ?_⟩
  refine ⟨rfl, rfl, ?_, rfl, rfl, placed_or_toNat _ _ (by omega), placed_zero_toNat _ (by omega),
    placed_zero_toNat _ (by omega), placed_zero_toNat _ (by omega), placed_zero_toNat _ (by omega),
    placed_zero_toNat _ (by omega), placed_zero_toNat _ (by omega), placed_zero_toNat _ (by omega),
    placed_zero_toNat _ (by omega), rfl, rfl, rfl, ?_, ?_⟩
  · simp only [Regs.readReg, placed_or_toNat, BitVec.toNat_ofBool, Nat.reduceLeDiff, Nat.reduceAdd]
    rfl
  · have := g.s1.isLt
    simp only [Regs.readReg, placed_zero_toNat, BitVec.extractLsb'_toNat, Nat.shiftRight_eq_div_pow, Nat.reduceLeDiff]
    omega
  · have := g.q.isLt
    simp only [Regs.readReg, BitVec.extractLsb'_toNat, Nat.shiftRight_eq_div_pow]
    omega

/-- Settles O7: an idle write stores its own field, which alone reads differently after it. -/
theorem idleOperandWriteReadsBack : Obligations.IdleOperandWriteReadsBack := by
  refine ⟨fun s d hb => ?_, fun s r d hb hr => ?_⟩
  · have write {r : Reg} (hr : r.isOperand = true) := perform_regWrite_operand_idle hb hr d
    exact ⟨write (r := .srcAddr) rfl, write (r := .dstAddr) rfl, write (r := .dim) rfl, write (r := .rawR) rfl,
      write (r := .rawG) rfl, write (r := .rawB) rfl, write (r := .weightR) rfl, write (r := .weightG) rfl,
      write (r := .weightB) rfl, write (r := .brightness) rfl, write (r := .contrast) rfl,
      fun j => ⟨_, write (r := .lutw j) rfl, Lut.entry_setWindow _ j d⟩⟩
  · refine ⟨_, perform_regWrite_operand_idle hb hr d, Regs.readReg_setOperand_same hb hr d,
      fun r' h => Regs.readReg_setOperand_other _ h d, ?_, rfl⟩
    cases r <;> rfl

end Sys2Proof.Machine

/-! ## The frame of one engine turn (spec/40_lifecycle.md R405 to R407) -/

namespace Sys2Proof.Machine

/-! ### What a work unit leaves unchanged -/

/-- Which units write what: the weights NORMALIZE's (R510), the table LUT_BUILD's (R810), S1 SUM's (R710), Q VAR's (R720). -/
theorem workUnit_ok_writes {g g' : Regs} {p p' : Platform} (h : workUnit g p = .ok g' p') :
    (g.phase ≠ .normalize → g'.wR = g.wR ∧ g'.wG = g.wG ∧ g'.wB = g.wB) ∧ (g.phase ≠ .lutBuild → g'.lut = g.lut) ∧
    (g.phase ≠ .sum → g'.s1 = g.s1) ∧ (g.phase ≠ .var → g'.q = g.q) := by
  rcases workUnit_ok h with ⟨e, rfl, -⟩ | ⟨e, rfl, -⟩ | ⟨e, rfl, -⟩ | ⟨e, ⟨_, -, rfl⟩, -⟩ | ⟨e, ⟨_, -, rfl⟩, -⟩ |
    ⟨e, rfl, -⟩ | ⟨e, rfl, -⟩ <;> simp [e]

/-- No unit writes PHASE, OP, FAULT_ADDR, STAT_N, STATS or the dimensions. -/
theorem workUnit_ok_keeps {g g' : Regs} {p p' : Platform} (h : workUnit g p = .ok g' p') :
    g'.phase = g.phase ∧ g'.op = g.op ∧ g'.faultAddr = g.faultAddr ∧ g'.statN = g.statN ∧ g'.stats = g.stats ∧
    g'.pixels = g.pixels := by
  rw [workUnit_ok_regs h]
  exact ⟨rfl, rfl, rfl, rfl, rfl, rfl⟩

/-- A unit's answer leaves every byte but the unit's destination byte, the bus errors and the races (R203, R223). -/
theorem workUnit_buserr_platform {g : Regs} {p p' : Platform} {a : Word} (h : workUnit g p = .buserr a p') :
    p.SameBut g.unitDst p' := by
  rcases workUnit_buserr h with ⟨-, f⟩ | ⟨-, rfl, -, f⟩
  · exact f.sameBut _
  · exact f

/-- A unit outside MIX and REMAP writes no memory, even where it ends in buserr (R203). -/
theorem workUnit_buserr_readonly {g : Regs} {p p' : Platform} {a : Word} (h : workUnit g p = .buserr a p')
    (hm : g.phase ≠ .mix) (hr : g.phase ≠ .remap) : p.SameMemory p' := by
  rcases workUnit_buserr h with ⟨-, f⟩ | ⟨e | e, -⟩
  · exact f
  · exact absurd e hm
  · exact absurd e hr

/-! ### What the end of a unit leaves unchanged -/

/-- Which phases follow which (R901). -/
theorem Regs.nextPhase_eq_some {g : Regs} {ph next : Phase} (h : g.nextPhase ph = some next) :
    g.op = 7#4 ∧ ((ph = .normalize ∧ next = .mix) ∨ (ph = .mix ∧ g.cl = true ∧ next = .sum) ∨ (ph = .sum ∧ next = .var) ∨
      (ph = .var ∧ next = .lutBuild) ∨ (ph = .lutBuild ∧ next = .remap)) := by
  unfold Regs.nextPhase at h
  split at h
  · next hop =>
    refine ⟨hop, ?_⟩
    cases ph <;> simp_all
  · cases h

/-- The start actions of a phase other than SUM leave STAT_N and S1 (R710). -/
theorem Regs.enterPhase_statN_s1 {ph : Phase} (h : ph ≠ .sum) (g : Regs) :
    (g.enterPhase ph).statN = g.statN ∧ (g.enterPhase ph).s1 = g.s1 := by
  cases ph
  case sum => exact absurd rfl h
  all_goals exact ⟨rfl, rfl⟩

/-- The start actions of a phase other than SUM and VAR leave Q and STATS (R710, R720). -/
theorem Regs.enterPhase_q_stats {ph : Phase} (hs : ph ≠ .sum) (hv : ph ≠ .var) (g : Regs) :
    (g.enterPhase ph).q = g.q ∧ (g.enterPhase ph).stats = g.stats := by
  cases ph
  case sum => exact absurd rfl hs
  case var => exact absurd rfl hv
  all_goals exact ⟨rfl, rfl⟩

/-- The end actions of a phase other than SUM and VAR leave STATS (R710, R720). -/
theorem Regs.leavePhase_stats {ph : Phase} (hs : ph ≠ .sum) (hv : ph ≠ .var) (g : Regs) :
    (g.leavePhase ph).stats = g.stats := by
  cases ph
  case sum => exact absurd rfl hs
  case var => exact absurd rfl hv
  all_goals rfl

/-- PHASE changes at the end of a unit only for RUN (R405). -/
theorem Regs.advance_phase_changes {g : Regs} (h : g.advance.phase ≠ g.phase) : g.op = 7#4 := by
  rcases g.advance_cases with ⟨-, e⟩ | ⟨-, ph, hn, -⟩ | ⟨-, -, e⟩
  · exact absurd (by rw [e]; rfl) h
  · exact (Regs.nextPhase_eq_some hn).1
  · exact absurd (by simp [e]) h

/-- STAT_N and S1 are kept where SUM does not begin. -/
theorem Regs.advance_statN_s1 {g : Regs} (h : g.phase = .sum ∨ g.advance.phase ≠ .sum) :
    g.advance.statN = g.statN ∧ g.advance.s1 = g.s1 := by
  rcases g.advance_cases with ⟨-, e⟩ | ⟨-, ph, hn, e⟩ | ⟨-, -, e⟩ <;> rw [e] at h ⊢
  · exact ⟨rfl, rfl⟩
  · have hph : ph ≠ .sum := by
      rintro rfl
      rcases h with h | h
      · rw [h] at hn
        simpa using (Regs.nextPhase_eq_some hn).2
      · simp at h
    obtain ⟨hN, hS⟩ := Regs.enterPhase_statN_s1 hph (g.countUnit.leavePhase g.phase)
    exact ⟨by simp [hN], by simp [hS]⟩
  · exact ⟨by simp, by simp⟩

/-- Where SUM begins, STAT_N takes N and S1 is cleared (R710). -/
theorem Regs.advance_enters_sum {g : Regs} (h : g.phase ≠ .sum) (hs : g.advance.phase = .sum) :
    g.advance.statN.toNat = g.pixels ∧ g.advance.s1 = 0#40 := by
  rcases g.advance_cases with ⟨-, e⟩ | ⟨-, ph, -, e⟩ | ⟨-, -, e⟩ <;> rw [e] at hs ⊢
  · exact absurd hs h
  · obtain rfl : ph = .sum := by simpa using hs
    refine ⟨?_, rfl⟩
    simpa [Regs.enterPhase] using g.pixels_lt
  · exact absurd (by simpa using hs) h

/-- Q and STATS are kept where no unit of SUM or VAR ends or begins. -/
theorem Regs.advance_q_stats {g : Regs} (hs : g.phase ≠ .sum) (hv : g.phase ≠ .var) (hs' : g.advance.phase ≠ .sum)
    (hv' : g.advance.phase ≠ .var) : g.advance.q = g.q ∧ g.advance.stats = g.stats := by
  rcases g.advance_cases with ⟨-, e⟩ | ⟨-, ph, -, e⟩ | ⟨-, -, e⟩ <;> rw [e] at hs' hv' ⊢
  · exact ⟨rfl, rfl⟩
  · rw [Regs.enterPhase_phase] at hs' hv'
    obtain ⟨hq, ht⟩ := Regs.enterPhase_q_stats hs' hv' (g.countUnit.leavePhase g.phase)
    exact ⟨by simp [hq], by simp [ht, Regs.leavePhase_stats hs hv]⟩
  · exact ⟨by simp, by simp [Regs.leavePhase_stats hs hv]⟩

/-! ### What a turn leaves unchanged -/

/-- The registers no turn of the engine changes: CTRL, the sticky flags, the operands but the weights and the table, and CL. -/
theorem engineStep_reg_frame {s t : State} (h : engineStep s = .next t) :
    t.reg = { s.reg with
      busy := t.reg.busy, done := t.reg.done, err := t.reg.err, errCode := t.reg.errCode, phase := t.reg.phase
      stats := t.reg.stats, wR := t.reg.wR, wG := t.reg.wG, wB := t.reg.wB, statN := t.reg.statN, s1 := t.reg.s1
      q := t.reg.q, progress := t.reg.progress, faultAddr := t.reg.faultAddr, lut := t.reg.lut } := by
  rcases engineStep_next h with ⟨-, rfl⟩ | ⟨-, g, p, hu, rfl⟩ | ⟨-, a, p, -, rfl⟩
  · rfl
  · rw [g.advance_frame, workUnit_ok_regs hu]
  · rfl

/-- Weights change only in NORMALIZE (R121), the table only in LUT_BUILD (R140). -/
theorem engineStep_weights_lut {s t : State} (h : engineStep s = .next t) :
    (s.reg.phase ≠ .normalize → t.reg.wR = s.reg.wR ∧ t.reg.wG = s.reg.wG ∧ t.reg.wB = s.reg.wB) ∧
    (s.reg.phase ≠ .lutBuild → t.reg.lut = s.reg.lut) := by
  rcases engineStep_next h with ⟨-, rfl⟩ | ⟨-, g, p, hu, rfl⟩ | ⟨-, a, p, -, rfl⟩
  · exact ⟨fun _ => ⟨rfl, rfl, rfl⟩, fun _ => rfl⟩
  · obtain ⟨hw, hl, -, -⟩ := workUnit_ok_writes hu
    dsimp only
    rw [g.advance_frame]
    exact ⟨hw, hl⟩
  · exact ⟨fun _ => ⟨rfl, rfl, rfl⟩, fun _ => rfl⟩

/-- The statistics registers change only in SUM and VAR or where they begin (R141, R710, R720). -/
theorem engineStep_statistics {s t : State} (h : engineStep s = .next t) :
    (s.reg.phase = .sum ∨ t.reg.phase ≠ .sum → t.reg.statN = s.reg.statN) ∧
    (s.reg.phase ≠ .sum ∧ t.reg.phase = .sum → t.reg.statN.toNat = s.reg.pixels ∧ t.reg.s1 = 0#40) ∧
    (s.reg.phase ≠ .sum ∧ t.reg.phase ≠ .sum → t.reg.s1 = s.reg.s1) ∧
    (s.reg.phase ≠ .sum ∧ s.reg.phase ≠ .var ∧ t.reg.phase ≠ .sum ∧ t.reg.phase ≠ .var →
      t.reg.q = s.reg.q ∧ t.reg.stats = s.reg.stats) := by
  rcases engineStep_next h with ⟨-, rfl⟩ | ⟨-, g, p, hu, rfl⟩ | ⟨-, a, p, -, rfl⟩
  · exact ⟨fun _ => rfl, fun h => absurd h.2 h.1, fun _ => rfl, fun _ => ⟨rfl, rfl⟩⟩
  · obtain ⟨-, -, hs1, hq⟩ := workUnit_ok_writes hu
    obtain ⟨hphase, -, -, hN, hstats, hpix⟩ := workUnit_ok_keeps hu
    rw [← hphase] at hs1 hq ⊢
    rw [← hN, ← hstats, ← hpix]
    refine ⟨fun h => (Regs.advance_statN_s1 h).1, fun ⟨h, h'⟩ => Regs.advance_enters_sum h h', fun ⟨h, h'⟩ => ?_,
      fun ⟨hs, hv, hs', hv'⟩ => ?_⟩
    · exact (Regs.advance_statN_s1 (.inr h')).2.trans (hs1 h)
    · exact (Regs.advance_q_stats hs hv hs' hv').imp_left (·.trans (hq hv))
  · exact ⟨fun _ => rfl, fun h => absurd h.2 h.1, fun _ => rfl, fun _ => ⟨rfl, rfl⟩⟩

/-- PHASE changes only for RUN (R405); DONE and BUSY only where the command ends (R406); FAULT_ADDR, ERR and ERR_CODE only in
BUS_ERROR, which changes no other register but BUSY (R407). -/
theorem engineStep_status {s t : State} (h : engineStep s = .next t) :
    (t.reg.phase ≠ s.reg.phase → s.reg.op = 7#4) ∧
    (t.reg.done = s.reg.done ∨ s.reg.busy = true ∧ t.reg.busy = false ∧ t.reg.done = true) ∧
    (t.reg.busy = s.reg.busy ∨ t.reg.busy = false ∧ (t.reg.done = true ∨ t.reg.err = true)) ∧
    (t.reg.faultAddr = s.reg.faultAddr ∧ t.reg.err = s.reg.err ∧ t.reg.errCode = s.reg.errCode ∨
      t.reg = { s.reg with faultAddr := t.reg.faultAddr, err := true, errCode := .busError, busy := false }) := by
  rcases engineStep_next h with ⟨-, rfl⟩ | ⟨hb, g, p, hu, rfl⟩ | ⟨-, a, p, -, rfl⟩
  · exact ⟨fun h => absurd rfl h, .inl rfl, .inl rfl, .inl ⟨rfl, rfl, rfl⟩⟩
  · obtain ⟨hphase, hop, hfault, -, -, -⟩ := workUnit_ok_keeps hu
    have hf : g.advance.faultAddr = s.reg.faultAddr := by rw [g.advance_frame]; exact hfault
    have hu := workUnit_ok_sameStatus hu
    refine ⟨fun h => hop ▸ Regs.advance_phase_changes (hphase ▸ h), ?_⟩
    rcases g.advance_status with k | ⟨f, k, e⟩
    · exact ⟨.inl (k.done.trans hu.done), .inl (k.busy.trans hu.busy),
        .inl ⟨hf, k.err.trans hu.err, k.errCode.trans hu.errCode⟩⟩
    · refine ⟨.inr ⟨hb, ?_, ?_⟩, .inr ⟨?_, .inl ?_⟩, .inl ⟨hf, ?_, ?_⟩⟩ <;> simp [e, k.err, k.errCode, hu.err, hu.errCode]
  · exact ⟨fun h => absurd rfl h, .inl rfl, .inr ⟨rfl, .inr rfl⟩, .inr rfl⟩

/-- Memory changes only in MIX and REMAP, and there only the byte at DST_ADDR + PROGRESS (R203); the platform's answers do not
change, and races end only with the command (R223). -/
theorem engineStep_platform {s t : State} (h : engineStep s = .next t) :
    (s.reg.phase ≠ .mix ∧ s.reg.phase ≠ .remap → t.plat.mem = s.plat.mem) ∧
    (∀ b : Word, b ≠ s.reg.unitDst → t.plat.mem.read b = s.plat.mem.read b) ∧
    t.plat.busErrs = s.plat.busErrs ∧ t.plat.coherent = s.plat.coherent ∧ t.plat.unclean = s.plat.unclean ∧
    (t.plat.raced = s.plat.raced ∨ t.reg.busy = false ∧ t.plat.raced = []) := by
  rcases engineStep_next h with ⟨-, rfl⟩ | ⟨-, g, p, hu, rfl⟩ | ⟨-, a, p, hu, rfl⟩
  · exact ⟨fun _ => rfl, fun _ _ => rfl, rfl, rfl, rfl, .inl rfl⟩
  · have f := workUnit_ok_platform hu
    have hm : s.reg.phase ≠ .mix ∧ s.reg.phase ≠ .remap → p.mem = s.plat.mem := fun ⟨h, h'⟩ =>
      (workUnit_ok_readonly hu h h').mem
    dsimp only [settleWhenIdle]
    split
    · exact ⟨hm, f.read, f.busErrs, f.coherent, f.unclean, .inl f.raced⟩
    · next hb => exact ⟨hm, f.read, f.busErrs, f.coherent, f.unclean, .inr ⟨by simpa using hb, rfl⟩⟩
  · have f := workUnit_buserr_platform hu
    exact ⟨fun ⟨h, h'⟩ => (workUnit_buserr_readonly hu h h').mem, f.read, f.busErrs, f.coherent, f.unclean, .inr ⟨rfl, rfl⟩⟩

/-- The events to come and the reply are the host's (R405). -/
theorem engineStep_inputs_reply {s t : State} (h : engineStep s = .next t) : t.inputs = s.inputs ∧ t.reply = s.reply := by
  rcases engineStep_next h with ⟨-, rfl⟩ | ⟨-, g, p, -, rfl⟩ | ⟨-, a, p, -, rfl⟩ <;> exact ⟨rfl, rfl⟩

/-- Settles O43: an idle turn is no step, and a busy one is a unit and its end, or a bus error. -/
theorem engineTurnFrame : Obligations.EngineTurnFrame := by
  intro s t h
  have idle : s.reg.busy = false → t = s := fun hb => by rw [engineStep_idle hb] at h; cases h; rfl
  obtain ⟨hin, hreply⟩ := engineStep_inputs_reply h
  have hreg := engineStep_reg_frame h
  obtain ⟨hw, hlut⟩ := engineStep_weights_lut h
  obtain ⟨hN, hsum, hs1, hq⟩ := engineStep_statistics h
  obtain ⟨hop, hdone, hbusy, hfault⟩ := engineStep_status h
  refine ⟨idle, hin, hreply, ?_, ?_, ?_, ?_, ?_, ?_, ?_, ?_, ?_, ?_, ?_, ?_, ?_, ?_, ?_, hw, hlut, hN, hsum, hs1, hq, hop,
    hdone, hbusy, hfault, engineStep_platform h⟩
  all_goals rw [hreg]

end Sys2Proof.Machine

/-! ## The host's port and the platform (spec/20_memory.md; spec/70_reset_and_hazards.md R1140) -/

namespace Sys2Proof.Machine

/-! ### Arrivals and register transactions -/

/-- The arrival of a command changes registers alone (R404, R1002). -/
theorem accept_plat {opcode : BitVec 4} {checks : Regs → Option ErrCode} {start : Regs → Regs} {s t : State}
    (h : accept opcode checks start s = .next t) : t.plat = s.plat := by
  rcases accept_next h with ⟨-, rfl⟩ | ⟨-, _, -, rfl⟩ | ⟨-, -, rfl⟩ <;> rfl

theorem command_plat {c : Word} {s t : State} (h : command c s = .next t) : t.plat = s.plat := by
  rcases command_eq_accept c s with ⟨i, -, e⟩ | ⟨_, -, e⟩ <;> exact accept_plat (e ▸ h)

/-- A running command drops every word that arrives (R401). -/
theorem command_busy {s : State} (hb : s.reg.busy = true) (c : Word) :
    command c s = .next { s with reg := s.reg.dropCommand } := by
  rcases command_eq_accept c s with ⟨i, -, e⟩ | ⟨_, -, e⟩ <;> rw [e, accept_busy hb]

/-- Every word's arrival answers a next state (R1003). -/
theorem command_isNext (c : Word) (s : State) : ∃ t, command c s = .next t := by
  rcases command_eq_accept c s with ⟨i, -, e⟩ | ⟨_, -, e⟩ <;> exact e ▸ accept_isNext _ _ _ s

/-- Register transactions do not reach the platform (R202). -/
theorem hostRegWrite_plat {o : BitVec 12} {size : Nat} {d : Word} {s t : State} (h : hostRegWrite o size d s = .next t) :
    t.plat = s.plat := by
  unfold hostRegWrite at h
  split at h
  · split at h
    · split at h
      · exact command_plat (s := { s with reply := .written .ok }) h
      · cases h; rfl
    · cases h; rfl
  · cases h; rfl

theorem hostRegWrite_isNext (o : BitVec 12) (size : Nat) (d : Word) (s : State) :
    ∃ t, hostRegWrite o size d s = .next t := by
  unfold hostRegWrite
  split
  · split
    · split
      · exact command_isNext _ _
      · exact ⟨_, rfl⟩
    · exact ⟨_, rfl⟩
  · exact ⟨_, rfl⟩

theorem hostRegRead_reg_plat (o : BitVec 12) (size : Nat) (s : State) :
    (hostRegRead o size s).reg = s.reg ∧ (hostRegRead o size s).plat = s.plat := by
  unfold hostRegRead
  split <;> exact ⟨rfl, rfl⟩

/-- A transaction that is not 32 bits wide at a multiple of 4 is not served (R206). -/
theorem portServes_eq_false {o : BitVec 12} {size : Nat} (h : ¬ (size = 4 ∧ o.toNat % 4 = 0)) :
    portServes o size = false := by
  simpa [portServes] using h

/-! ### Host memory accesses -/

/-- The engine owns no byte while no command runs (R223). -/
theorem Regs.owns_idle {g : Regs} (hb : g.busy = false) (a : Word) : g.owns a = false := by
  simp [Regs.owns, hb]

theorem Regs.busy_of_owns {g : Regs} {a : Word} (h : g.owns a = true) : g.busy = true := by
  cases hb : g.busy
  · simp [Regs.owns_idle hb] at h
  · rfl

/-- A host write of a byte the engine owns draws a free value there and marks the byte raced (R223). -/
theorem hostMemWrite_owned {a : Word} {s : State} (h : s.reg.owns a = true) (v : Byte) :
    (hostMemWrite a v s).plat.mem = s.plat.mem.write a s.plat.fresh ∧
    (hostMemWrite a v s).plat.draws = s.plat.draws + 1 ∧
    (hostMemWrite a v s).plat.raced = if s.plat.raced.contains a then s.plat.raced else a :: s.plat.raced := by
  cases hc : s.plat.coherent <;> simp [hostMemWrite, h, hc, Platform.fresh]

/-- A host write of any other byte puts the byte into memory (R221). -/
theorem hostMemWrite_free {a : Word} {s : State} (h : s.reg.owns a = false) (v : Byte) :
    (hostMemWrite a v s).plat.mem = s.plat.mem.write a v ∧ (hostMemWrite a v s).plat.draws = s.plat.draws ∧
    (hostMemWrite a v s).plat.raced = s.plat.raced := by
  cases hc : s.plat.coherent <;> simp [hostMemWrite, h, hc]

/-- A host write reaches no byte but its own (R1140). -/
theorem hostMemWrite_read_other {a b : Word} (h : b ≠ a) (v : Byte) (s : State) :
    (hostMemWrite a v s).plat.mem.read b = s.plat.mem.read b := by
  cases ho : s.reg.owns a
  · rw [(hostMemWrite_free ho v).1, Memory.read_write_other _ _ h]
  · rw [(hostMemWrite_owned ho v).1, Memory.read_write_other _ _ h]

/-- A host write marks its byte raced exactly where the engine owns it (R223). -/
theorem mem_hostMemWrite_raced {a b : Word} {v : Byte} {s : State} :
    b ∈ (hostMemWrite a v s).plat.raced ↔ b ∈ s.plat.raced ∨ (s.reg.owns a = true ∧ b = a) := by
  cases ho : s.reg.owns a
  · simp [(hostMemWrite_free ho v).2.2]
  · obtain ⟨-, -, e⟩ := hostMemWrite_owned ho v
    rw [e]
    by_cases h : a ∈ s.plat.raced
    · simp only [List.contains_iff_mem, h, if_true, true_and]
      exact ⟨.inl, fun hb => hb.elim id fun e => e ▸ h⟩
    · simp [h, or_comm]

/-- On a coherent platform a host write while idle writes its byte and nothing else (R221). -/
theorem hostMemWrite_idle {s : State} (hb : s.reg.busy = false) (hc : s.plat.coherent = true) (a : Word) (v : Byte) :
    hostMemWrite a v s = { s with reply := .none, plat := { s.plat with mem := s.plat.mem.write a v } } := by
  simp [hostMemWrite, Regs.owns_idle hb, hc]

/-- A host read changes no register, no byte and no race (R222). -/
theorem hostMemRead_frame (a : Word) (s : State) :
    (hostMemRead a s).reg = s.reg ∧ (hostMemRead a s).plat.mem = s.plat.mem ∧
    (hostMemRead a s).plat.raced = s.plat.raced ∧ s.plat.draws ≤ (hostMemRead a s).plat.draws := by
  unfold hostMemRead
  split
  · exact ⟨rfl, rfl, rfl, Nat.le_succ _⟩
  · exact ⟨rfl, rfl, rfl, Nat.le_refl _⟩

/-- A host read of a byte the engine owns draws a free value (R223). -/
theorem hostMemRead_owned {a : Word} {s : State} (h : s.reg.owns a = true) :
    hostMemRead a s = { s with reply := .memory s.plat.fresh, plat := s.plat.drew } := by
  simp [hostMemRead, h]

/-- A host read of a byte that is neither the engine's nor stale gives the byte in memory (R222). -/
theorem hostMemRead_plain {a : Word} {s : State} (h : s.reg.owns a = false) (hs : s.plat.stale.contains a = false) :
    hostMemRead a s = { s with reply := .memory (s.plat.mem.read a) } := by
  simp only [hostMemRead, h, hs, Bool.or_self, Bool.false_eq_true, if_false]

/-! ### The engine's accesses, by the word that addresses the byte -/

theorem dmaRead_word_plain {p : Platform} {a : Word} (hb : p.busErr .read a = false) (hc : p.anyValue a = false) :
    dmaRead a.toNat p = .ok (p.mem.read a) (p.note .read a true) := by
  simpa using dmaRead_plain a.isLt (by simpa using hb) (by simpa using hc)

theorem Platform.anyValue_of_raced {p : Platform} {a : Word} (h : a ∈ p.raced) : p.anyValue a = true := by
  simp [Platform.anyValue, h]

/-- A read of a raced byte that gets data gets a free value of its own (R223). -/
theorem dmaRead_raced {p : Platform} {a : Word} (h : a ∈ p.raced) (hb : p.busErr .read a = false) :
    dmaRead a.toNat p = .ok p.fresh (p.drew.note .read a true) := by
  simpa using dmaRead_any a.isLt (by simpa using hb) (by simpa using Platform.anyValue_of_raced h)

/-- A write of a raced byte leaves a free value there (R223). -/
theorem dmaWrite_raced {p : Platform} {a : Word} (h : a ∈ p.raced) (hb : p.busErr .write a = false) (v : Byte) :
    dmaWrite a.toNat v p = .ok () (((p.drawAt a).wroteStale a).note .write a true) := by
  simpa using dmaWrite_any v a.isLt (by simpa using hb) (by simpa using Platform.anyValue_of_raced h)

theorem dmaWrite_word_buserr {p : Platform} {a : Word} (hb : p.busErr .write a = true) (v : Byte) :
    dmaWrite a.toNat v p = .buserr a (((p.drawAt a).wroteStale a).note .write a false) := by
  simpa using dmaWrite_buserr v a.isLt (by simpa using hb)

/-! ### The engine's accesses stay inside the address space (R213) -/

/-- The phase is the one of the command in OP, whose opcode is its code, or one of RUN's (R114, R302). -/
theorem Regs.op_of_phaseFits {g : Regs} (h : g.phaseFits = true) :
    g.op.toNat = g.phase.code.toNat ∨ g.op.toNat = 7 := by
  unfold Regs.phaseFits at h
  split at h
  case h_8 hop => exact .inr hop
  case h_9 => cases h
  all_goals
    next hop =>
    refine .inl (hop.trans ?_)
    rw [of_decide_eq_true h]
    rfl

/-- A MIX unit reads three bytes of the source region (R203, R603). -/
theorem Regs.EngineOk.src_access {g : Regs} (h : g.EngineOk) (hb : g.busy = true) (hp : g.phase = .mix) :
    g.src.toNat + 3 * g.progress.toNat + 2 < 2 ^ 32 := by
  obtain ⟨hfits, hprog, hsrc, -⟩ := h hb
  have hlen : g.srcLen = 3 * g.pixels := by
    rcases g.op_of_phaseFits hfits with hop | hop
    · rw [hp] at hop; simp [Regs.srcLen, hop, Phase.code]
    · simp [Regs.srcLen, hop]
  rw [hp] at hprog
  have : g.progress.toNat < g.pixels := hprog
  omega

/-- A unit of MIX, SUM, VAR or REMAP accesses a byte of the destination region (R203). -/
theorem Regs.EngineOk.dst_access {g : Regs} (h : g.EngineOk) (hb : g.busy = true)
    (hp : g.phase = .mix ∨ g.phase = .sum ∨ g.phase = .var ∨ g.phase = .remap) :
    g.dst.toNat + g.progress.toNat < 2 ^ 32 := by
  obtain ⟨hfits, hprog, -, hdst, -, -, -, -, -, -, hN⟩ := h hb
  have hlen : g.unitCount g.phase = g.dstLen := by
    rcases g.op_of_phaseFits hfits with hop | hop
    · rcases hp with hp | hp | hp | hp <;> rw [hp] at hop ⊢ <;> simp [Regs.dstLen, Regs.unitCount, hop, Phase.code]
    · have hN := fun hv => hN ⟨BitVec.eq_of_toNat_eq hop, hv⟩
      rcases hp with hp | hp | hp | hp <;> simp [Regs.dstLen, Regs.unitCount, hop, hp]
      exact hN (.inl hp)
  omega

theorem Dma.bind_ne_outside {α β : Type} {x : Dma α} {f : α → Platform → Dma β} (hx : x ≠ .outside)
    (hf : ∀ v p, f v p ≠ .outside) : x.bind f ≠ .outside := by
  rw [ne_eq, Dma.bind_eq_outside]
  rintro (h | ⟨v, p, -, h⟩)
  · exact hx h
  · exact hf v p h

/-- No work unit of a running command leaves the address space (R213). -/
theorem workUnit_ne_outside {g : Regs} (h : g.EngineOk) (hb : g.busy = true) (p : Platform) :
    workUnit g p ≠ .outside := by
  unfold workUnit
  cases hp : g.phase
  case none | normalize | lutBuild => exact nofun
  case mix =>
    have hs := h.src_access hb hp
    have hd := h.dst_access hb (.inl hp)
    exact Dma.bind_ne_outside (dmaRead_not_outside (by omega) _) fun _ _ =>
      Dma.bind_ne_outside (dmaRead_not_outside (by omega) _) fun _ _ =>
      Dma.bind_ne_outside (dmaRead_not_outside (by omega) _) fun _ _ =>
      Dma.bind_ne_outside (dmaWrite_not_outside hd _ _) nofun
  case sum => exact Dma.bind_ne_outside (dmaRead_not_outside (h.dst_access hb (by simp [hp])) _) nofun
  case var => exact Dma.bind_ne_outside (dmaRead_not_outside (h.dst_access hb (by simp [hp])) _) nofun
  case remap =>
    have hd := h.dst_access hb (by simp [hp])
    exact Dma.bind_ne_outside (dmaRead_not_outside hd _) fun _ _ =>
      Dma.bind_ne_outside (dmaWrite_not_outside hd _ _) nofun

theorem engineStep_isNext {s : State} (h : s.reg.EngineOk) : ∃ t, engineStep s = .next t := by
  cases hb : s.reg.busy
  · exact ⟨s, engineStep_idle hb⟩
  · cases hu : workUnit s.reg s.plat with
    | ok g p => exact ⟨_, engineStep_ok hb hu⟩
    | buserr a p => exact ⟨_, engineStep_buserr hb hu⟩
    | outside => exact absurd hu (workUnit_ne_outside h hb _)

theorem perform_isNext (e : Event) {s : State} (h : s.reg.EngineOk) : ∃ t, perform e s = .next t := by
  cases e
  case engine => exact engineStep_isNext h
  case regWrite o size d => exact hostRegWrite_isNext o size d s
  all_goals exact ⟨_, rfl⟩

/-! ### What a running command keeps from the host (R227, R408) -/

/-- Two register states agree in the operand registers that no phase writes, in OP and in CL. -/
structure Regs.SameOperands (g h : Regs) : Prop where
  src : h.src = g.src
  dst : h.dst = g.dst
  width : h.width = g.width
  height : h.height = g.height
  rawR : h.rawR = g.rawR
  rawG : h.rawG = g.rawG
  rawB : h.rawB = g.rawB
  brBits : h.brBits = g.brBits
  cBits : h.cBits = g.cBits
  op : h.op = g.op
  cl : h.cl = g.cl

/-- While BUSY = 1 a host write changes CTRL or the flags of STATUS, or nothing (R408). -/
theorem Regs.writeReg_busy {g : Regs} (hb : g.busy = true) (d : Word) (r : Reg) :
    g.writeReg d r = { g with
      ctrlContrastEn := (g.writeReg d r).ctrlContrastEn, ctrlIrqEn := (g.writeReg d r).ctrlIrqEn
      done := (g.writeReg d r).done, err := (g.writeReg d r).err, errCode := (g.writeReg d r).errCode
      cmdDropped := (g.writeReg d r).cmdDropped, wrIgnored := (g.writeReg d r).wrIgnored } := by
  cases hr : r.isOperand
  · by_cases hc : r = .ctrl
    · subst hc; rfl
    · by_cases hs : r = .status
      · subst hs; rfl
      · rw [Regs.writeReg_readOnly hr hc hs]
  · rw [Regs.writeReg_operand_busy hb hr]

theorem engineStep_sameOperands {s t : State} (h : engineStep s = .next t) : s.reg.SameOperands t.reg := by
  rw [engineStep_reg_frame h]
  exact ⟨rfl, rfl, rfl, rfl, rfl, rfl, rfl, rfl, rfl, rfl, rfl⟩

/-- What an event other than reset does to the registers of a running command: a turn of the engine, or a change of CTRL and
the flags of STATUS. -/
theorem perform_busy_cases {e : Event} {s t : State} (hb : s.reg.busy = true) (he : e ≠ .reset)
    (h : perform e s = .next t) :
    (e = .engine ∧ engineStep s = .next t) ∨
    t.reg = { s.reg with
      ctrlContrastEn := t.reg.ctrlContrastEn, ctrlIrqEn := t.reg.ctrlIrqEn, done := t.reg.done, err := t.reg.err
      errCode := t.reg.errCode, cmdDropped := t.reg.cmdDropped, wrIgnored := t.reg.wrIgnored } := by
  rcases perform_next h with h | ⟨o, size, d, -, h⟩ | ⟨h, -⟩ | h
  · exact .inl h
  · refine .inr ?_
    rcases hostRegWrite_next h with h | ⟨r, h⟩ | h
    · rw [h]
    · rw [h]
      exact Regs.writeReg_busy hb d r
    · rw [command_busy (s := { s with reply := .written .ok }) hb] at h
      cases h
      rfl
  · exact absurd h he
  · exact .inr (by rw [h])

/-- Every step performs an event: the next one, or the engine's turn (R405). -/
theorem step_performs {s t : State} (h : step s = .next t) :
    ∃ e rest, (e = .reset → s.inputs.head? = some .reset) ∧ perform e { s with inputs := rest } = .next t := by
  rcases step_next h with ⟨-, h⟩ | ⟨e, rest, hi, h⟩
  · exact ⟨.engine, s.inputs, nofun, h⟩
  · exact ⟨e, rest, fun he => by rw [hi, he]; rfl, h⟩

/-! ### Settled: the port, the frames and the next state -/

/-- Settles O5: the port does not serve such a transaction. -/
theorem otherAccessesGetError : Obligations.OtherAccessesGetError := by
  intro s o size d h
  simp [perform, hostRegRead, hostRegWrite, portServes_eq_false h]

/-- Settles O40: the regions of a running command are in range, so only the units' addresses matter and they lie inside. -/
theorem everyStepHasNextState : Obligations.EveryStepHasNextState := by
  intro s hok _
  unfold step turn
  split
  · exact engineStep_isNext hok
  · exact perform_isNext _ (s := { s with inputs := _ }) hok

/-- Settles O42: the engine writes no operand but the weights and the table, and the port writes none while BUSY = 1. -/
theorem operandsStableWhileBusy : Obligations.OperandsStableWhileBusy := by
  intro s t hb hr h
  obtain ⟨e, rest, he, h⟩ := step_performs h
  rcases perform_busy_cases (s := { s with inputs := rest }) hb (fun h => hr (he h)) h with ⟨-, h⟩ | h
  · have k := engineStep_sameOperands h
    obtain ⟨hw, hlut⟩ := engineStep_weights_lut h
    exact ⟨k.src, k.dst, k.width, k.height, k.rawR, k.rawG, k.rawB, k.brBits, k.cBits, k.op, k.cl, hw, hlut⟩
  · rw [h]
    exact ⟨rfl, rfl, rfl, rfl, rfl, rfl, rfl, rfl, rfl, rfl, rfl, fun _ => ⟨rfl, rfl, rfl⟩, fun _ => rfl⟩

/-- Settles O44: the port does not reach the platform, and a host memory access reaches one byte and no register. -/
theorem hostEventFrame : Obligations.HostEventFrame := by
  refine ⟨fun s t o size d h => hostRegWrite_plat h, fun s t o size h => ?_, fun s t a b v h => ?_, fun s t a h => ?_⟩
  · cases h
    exact (hostRegRead_reg_plat o size s).symm
  · cases h
    exact ⟨rfl, fun hba => hostMemWrite_read_other hba v s⟩
  · cases h
    obtain ⟨hreg, hmem, -⟩ := hostMemRead_frame a s
    exact ⟨hreg, hmem⟩

/-- Settles O47: an uncontested write leaves its byte in memory, and the platform's answers as they are. -/
theorem engineReadsItsLatestWrite : Obligations.EngineReadsItsLatestWrite := by
  intro p q a v hwf hw hany hread
  obtain ⟨ha, hb, f⟩ := dmaWrite_ok_frame hw
  have hq : q.mem = p.mem.write (BitVec.ofNat 32 a) v := by
    rw [dmaWrite_plain v ha hb hany] at hw
    cases hw
    rfl
  refine ⟨?_, fun b hba hb hbany hbread => ?_⟩
  · rw [dmaRead_plain ha (by rw [f.busErr, hread]) (by rw [f.anyValue, hany]), hq, Memory.read_write_same hwf]
    exact ⟨_, rfl⟩
  · have hne : BitVec.ofNat 32 b ≠ BitVec.ofNat 32 a := fun e => hba (by
      have := congrArg BitVec.toNat e
      rwa [BitVec.toNat_ofNat, BitVec.toNat_ofNat, Nat.mod_eq_of_lt hb, Nat.mod_eq_of_lt ha] at this)
    rw [dmaRead_plain hb (by rw [f.busErr, hbread]) (by rw [f.anyValue, hbany]), f.read _ hne]
    exact ⟨_, rfl⟩

/-- Settles O48: with no race and nothing waiting in a cache, host and engine access the same bytes. -/
theorem handshakeOrdersMemory : Obligations.HandshakeOrdersMemory := by
  intro s a v hb hc ⟨hraced, hcaches⟩ hwf
  have hraced := hraced hb
  obtain ⟨hunclean, hstale⟩ := hcaches hc
  have hown := Regs.owns_idle hb a
  have hsame := Memory.read_write_same hwf a v
  refine ⟨⟨_, rfl, fun hread => ?_, ?_⟩, ?_⟩
  · have hany : s.plat.anyValue a = false := by simp [Platform.anyValue, hraced, hunclean]
    have h := dmaRead_word_plain (p := { s.plat with mem := s.plat.mem.write a v }) hread hany
    rw [hsame] at h
    exact ⟨_, by rw [hostMemWrite_idle hb hc, h]⟩
  · rw [hostMemWrite_idle hb hc]
    simp [perform, hostMemRead_plain, hown, hstale, hsame]
  · simp [perform, hostMemRead_plain, hown, hstale]

end Sys2Proof.Machine

/-! ## Races (spec/20_memory.md R223) -/

namespace Sys2Proof.Machine

/-! ### Bytes that hold a drawn value -/

/-- Byte `a` holds one of the free values drawn so far. -/
def Platform.Drawn (p : Platform) (a : Word) : Prop := ∃ n, n < p.draws ∧ p.mem.read a = Config.freeByte n

/-- A byte that is left alone keeps its drawn value. -/
theorem Platform.Drawn.of_read_eq {p q : Platform} {a : Word} (h : p.Drawn a) (hm : q.mem.read a = p.mem.read a)
    (hd : p.draws ≤ q.draws) : q.Drawn a := by
  obtain ⟨n, hn, hr⟩ := h
  exact ⟨n, hn.trans_le hd, hm.trans hr⟩

theorem Platform.drawn_drawAt_same {p : Platform} (hw : p.mem.wf) (a : Word) : (p.drawAt a).Drawn a :=
  ⟨p.draws, Nat.lt_succ_self _, Memory.read_write_same hw _ _⟩

/-- A draw anywhere leaves a drawn value where there was one. -/
theorem Platform.Drawn.drawAt {p : Platform} {a : Word} (h : p.Drawn a) (hw : p.mem.wf) (b : Word) :
    (p.drawAt b).Drawn a := by
  by_cases e : a = b
  · exact e ▸ Platform.drawn_drawAt_same hw a
  · exact h.of_read_eq (Memory.read_write_other _ _ e) (Nat.le_succ _)

theorem Platform.Drawn.drawEach {p : Platform} {a : Word} (h : p.Drawn a) (hw : p.mem.wf) (l : List Word) :
    (p.drawEach l).Drawn a := by
  induction l with
  | nil => exact h
  | cons b rest ih => exact ih.drawAt (Platform.drawEach_wf rest hw) b

theorem Platform.Drawn.drawRange {p : Platform} {a : Word} (h : p.Drawn a) (hw : p.mem.wf) (base n : Nat) :
    (p.drawRange base n).Drawn a := by
  induction n with
  | zero => exact h
  | succ n ih => exact ih.drawAt (Platform.drawRange_wf base n hw) _

/-! ### What the engine's accesses do to raced bytes -/

/-- From `p` to `q` the races stay and every raced byte that held a drawn value holds one. -/
structure Platform.KeepsDrawn (p q : Platform) : Prop where
  raced : q.raced = p.raced
  wf : p.mem.wf → q.mem.wf
  drawn : p.mem.wf → ∀ a ∈ p.raced, p.Drawn a → q.Drawn a

theorem Platform.KeepsDrawn.refl (p : Platform) : p.KeepsDrawn p := ⟨rfl, id, fun _ _ _ h => h⟩

theorem Platform.KeepsDrawn.trans {p q r : Platform} (h : p.KeepsDrawn q) (k : q.KeepsDrawn r) : p.KeepsDrawn r :=
  ⟨k.raced.trans h.raced, fun w => k.wf (h.wf w), fun w a ha hd => k.drawn (h.wf w) a (h.raced ▸ ha) (h.drawn w a ha hd)⟩

/-- Whatever the answer, the platform that the accesses leave is as `R` says. -/
def Dma.Leaves {α : Type} (x : Dma α) (R : Platform → Prop) : Prop :=
  match x with
  | .ok _ q => R q
  | .buserr _ q => R q
  | .outside => True

/-- Accesses that each keep the drawn values of raced bytes keep them together. -/
theorem Dma.Leaves.bind {α β : Type} {x : Dma α} {f : α → Platform → Dma β} {p : Platform} (hx : x.Leaves p.KeepsDrawn)
    (hf : ∀ v q, (f v q).Leaves q.KeepsDrawn) : (x.bind f).Leaves p.KeepsDrawn := by
  cases x with
  | ok v q =>
    have h := hf v q
    rw [Dma.bind_ok]
    cases hy : f v q <;> rw [hy] at h
    case ok | buserr => exact Platform.KeepsDrawn.trans hx h
    case outside => trivial
  | buserr a q => exact hx
  | outside => trivial

theorem dmaRead_keepsDrawn (a : Nat) (p : Platform) : (dmaRead a p).Leaves p.KeepsDrawn := by
  rcases dmaRead_cases a p with ⟨-, e⟩ | ⟨-, -, e⟩ | ⟨-, -, -, e⟩ | ⟨-, -, -, e⟩ <;> rw [e]
  · trivial
  · exact ⟨rfl, id, fun _ _ _ h => h⟩
  · exact ⟨rfl, id, fun _ _ _ h => h.of_read_eq rfl (Nat.le_succ _)⟩
  · exact ⟨rfl, id, fun _ _ _ h => h⟩

theorem dmaWrite_keepsDrawn (a : Nat) (v : Byte) (p : Platform) : (dmaWrite a v p).Leaves p.KeepsDrawn := by
  have drawn (b : Word) (ok : Bool) : p.KeepsDrawn (((p.drawAt b).wroteStale b).note .write b ok) :=
    ⟨rfl, fun w => Memory.write_wf w _ _, fun w _ _ h => h.drawAt w b⟩
  rcases dmaWrite_cases a v p with ⟨-, e⟩ | ⟨-, -, e⟩ | ⟨-, -, -, e⟩ | ⟨-, -, hc, e⟩ <;> rw [e]
  · trivial
  · exact drawn _ _
  · exact drawn _ _
  · refine ⟨rfl, fun w => Memory.write_wf w _ _, fun _ b hb h => h.of_read_eq (Memory.read_write_other _ _ ?_) (Nat.le_refl _)⟩
    rintro rfl
    rw [Platform.anyValue_of_raced hb] at hc
    cases hc

/-- Every work unit keeps the drawn values of raced bytes, whatever its answer. -/
theorem workUnit_keepsDrawn (g : Regs) (p : Platform) : (workUnit g p).Leaves p.KeepsDrawn := by
  have last {g : Regs} {q : Platform} : (Dma.ok g q).Leaves q.KeepsDrawn := Platform.KeepsDrawn.refl q
  unfold workUnit
  cases g.phase
  case none | normalize | lutBuild => exact last
  case mix =>
    exact (dmaRead_keepsDrawn _ _).bind fun _ _ => (dmaRead_keepsDrawn _ _).bind fun _ _ =>
      (dmaRead_keepsDrawn _ _).bind fun _ _ => (dmaWrite_keepsDrawn _ _ _).bind fun _ _ => last
  case sum | var => exact (dmaRead_keepsDrawn _ _).bind fun _ _ => last
  case remap => exact (dmaRead_keepsDrawn _ _).bind fun _ _ => (dmaWrite_keepsDrawn _ _ _).bind fun _ _ => last

/-- A turn of the engine leaves a drawn value in each raced byte that held one, also where it ends the command. -/
theorem engineStep_drawn {s t : State} (hw : s.plat.mem.wf) (h : engineStep s = .next t) {a : Word}
    (ha : a ∈ s.plat.raced) (hd : s.plat.Drawn a) : t.plat.Drawn a := by
  have k := workUnit_keepsDrawn s.reg s.plat
  rcases engineStep_next h with ⟨-, rfl⟩ | ⟨-, g, p, hu, rfl⟩ | ⟨-, w, p, hu, rfl⟩
  · exact hd
  · rw [hu] at k
    have hp : p.Drawn a := k.drawn hw a ha hd
    dsimp only [settleWhenIdle]
    split <;> exact hp
  · rw [hu] at k
    exact k.drawn hw a ha hd

/-- The races of a running command stay through a turn that does not end it, and are over after one that does. -/
theorem engineStep_raced {s t : State} (h : engineStep s = .next t) :
    (t.plat.raced = s.plat.raced ∧ t.reg.busy = s.reg.busy) ∨ (t.reg.busy = false ∧ t.plat.raced = []) := by
  rcases engineStep_next h with ⟨-, rfl⟩ | ⟨hb, g, p, hu, rfl⟩ | ⟨-, w, p, -, rfl⟩
  · exact .inl ⟨rfl, rfl⟩
  · have hp := (workUnit_ok_platform hu).raced
    dsimp only [settleWhenIdle]
    split
    · next ht => exact .inl ⟨hp, ht.trans hb.symm⟩
    · next ht => exact .inr ⟨by simpa using ht, rfl⟩
  · exact .inr ⟨rfl, rfl⟩

/-! ### The regions of a running command stay its own -/

/-- The bytes the engine owns depend on BUSY, the operands, OP and, for VAR, STAT_N (R203, R223). -/
theorem Regs.SameOperands.owns {g h : Regs} (k : g.SameOperands h) (hb : h.busy = g.busy)
    (hN : g.op = 4#4 → h.statN = g.statN) (a : Word) : h.owns a = g.owns a := by
  have hpix : h.pixels = g.pixels := Regs.pixels_congr k.width k.height
  have hdst : h.dstLen = g.dstLen := by
    unfold Regs.dstLen
    rw [k.op, hpix]
    split
    case h_3 hop => rw [hN (BitVec.eq_of_toNat_eq hop)]
    all_goals rfl
  have hsrc : h.srcLen = g.srcLen := by simp only [Regs.srcLen, k.op, hpix]
  simp only [Regs.owns, hb, k.src, k.dst, hsrc, hdst]

/-- A turn of VAR leaves STAT_N, since VAR has no other phase (R405, R710). -/
theorem engineStep_statN_of_var {s t : State} (h : engineStep s = .next t) (hop : s.reg.op = 4#4) :
    t.reg.statN = s.reg.statN := by
  have hphase : t.reg.phase = s.reg.phase := by
    by_contra hne
    have := (engineStep_status h).1 hne
    rw [hop] at this
    cases this
  refine (engineStep_statistics h).1 ?_
  rw [hphase]
  exact em _

/-- While its command runs, the engine owns the same bytes. -/
theorem perform_owns {e : Event} {s t : State} (hs : s.reg.busy = true) (ht : t.reg.busy = true)
    (h : perform e s = .next t) (a : Word) : t.reg.owns a = s.reg.owns a := by
  have he : e ≠ .reset := by
    rintro rfl
    cases h
    cases ht
  rcases perform_busy_cases hs he h with ⟨-, h⟩ | h
  · exact (engineStep_sameOperands h).owns (ht.trans hs.symm) (engineStep_statN_of_var h) a
  · rw [h]
    rfl

/-! ### Races from event to event -/

/-- Everything an event can do to the races: leave them with BUSY, end them with the command, or add the byte of a host write
that the engine owns. -/
theorem perform_raced {e : Event} {s t : State} (h : perform e s = .next t) :
    (t.plat.raced = s.plat.raced ∧ (s.reg.busy = true → t.reg.busy = true)) ∨
    (t.reg.busy = false ∧ t.plat.raced = []) ∨ ∃ a v, s.reg.owns a = true ∧ t = hostMemWrite a v s := by
  cases e
  case engine => exact (engineStep_raced h).imp (fun ⟨hr, hb⟩ => ⟨hr, hb.trans⟩) .inl
  case regWrite o size d =>
    refine .inl ⟨by rw [hostRegWrite_plat h], fun hb => ?_⟩
    rcases perform_busy_cases hb (e := .regWrite o size d) nofun h with ⟨h, -⟩ | h
    · cases h
    · rw [h]
      exact hb
  case regRead o size =>
    cases h
    obtain ⟨hreg, hplat⟩ := hostRegRead_reg_plat o size s
    exact .inl ⟨by rw [hplat], fun hb => by rwa [hreg]⟩
  case memWrite a v =>
    cases h
    cases ho : s.reg.owns a
    · exact .inl ⟨(hostMemWrite_free ho v).2.2, id⟩
    · exact .inr (.inr ⟨a, v, ho, rfl⟩)
  case memRead a =>
    cases h
    obtain ⟨hreg, -, hraced, -⟩ := hostMemRead_frame a s
    exact .inl ⟨hraced, fun hb => by rwa [hreg]⟩
  case cacheInvalidate base len =>
    cases h
    exact .inl ⟨(Platform.drawEach_frame _ s.plat).2.2.1, id⟩
  case reset => cases h; exact .inr (.inl ⟨rfl, rfl⟩)
  all_goals cases h; exact .inl ⟨rfl, id⟩

/-- Every event leaves a drawn value in each byte that the engine owns, that is raced on and that held one. -/
theorem perform_drawn {e : Event} {s t : State} (hw : s.plat.mem.wf) (h : perform e s = .next t) {a : Word}
    (ha : a ∈ s.plat.raced) (ho : s.reg.owns a = true) (hd : s.plat.Drawn a) : t.plat.Drawn a := by
  cases e
  case engine => exact engineStep_drawn hw h ha hd
  case regWrite o size d => rwa [hostRegWrite_plat h]
  case regRead o size =>
    cases h
    rwa [(hostRegRead_reg_plat o size s).2]
  case memWrite b v =>
    cases h
    cases hb : s.reg.owns b
    · have hab : a ≠ b := by
        rintro rfl
        rw [ho] at hb
        cases hb
      exact hd.of_read_eq (hostMemWrite_read_other hab v s) (hostMemWrite_free hb v).2.1.ge
    · obtain ⟨hmem, hdraws, -⟩ := hostMemWrite_owned hb v
      exact (hd.drawAt hw b).of_read_eq (by rw [hmem]; rfl) hdraws.ge
  case memRead b =>
    cases h
    obtain ⟨-, hmem, -, hdraws⟩ := hostMemRead_frame b s
    exact hd.of_read_eq (by rw [hmem]) hdraws
  case cacheInvalidate base len =>
    cases h
    exact hd.drawEach hw _
  case reset =>
    cases h
    show (Platform.settle (if _ then _ else _)).Drawn a
    split
    · exact hd.drawRange hw _ _
    · exact hd
  all_goals cases h; exact hd

/-- Every event keeps the raced bytes the engine's and at drawn values (R223). -/
theorem perform_racedDrawn {e : Event} {s t : State} (hw : s.plat.mem.wf) (hr : s.RacedDrawn)
    (h : perform e s = .next t) : t.RacedDrawn := by
  have drawn {a : Word} (ha : a ∈ s.plat.raced) : t.plat.Drawn a := perform_drawn hw h ha (hr a ha).1 (hr a ha).2
  rcases perform_raced h with ⟨hraced, hbusy⟩ | ⟨-, hraced⟩ | ⟨b, v, hb, rfl⟩
  · intro a ha
    rw [hraced] at ha
    obtain ⟨ho, -⟩ := hr a ha
    have hs := Regs.busy_of_owns ho
    exact ⟨(perform_owns hs (hbusy hs) h a).trans ho, drawn ha⟩
  · simp [State.RacedDrawn, hraced]
  · intro a ha
    rcases mem_hostMemWrite_raced.mp ha with ha | ⟨-, rfl⟩
    · exact ⟨(hr a ha).1, drawn ha⟩
    · obtain ⟨hmem, hdraws, -⟩ := hostMemWrite_owned hb v
      exact ⟨hb, (Platform.drawn_drawAt_same hw a).of_read_eq (by rw [hmem]; rfl) hdraws.ge⟩

/-- Settles O49: a raced byte is any value to host and engine alike, and each event keeps it drawn until the command ends. -/
theorem racesGiveAnyValue : Obligations.RacesGiveAnyValue := by
  refine ⟨fun s a v hb hreg => ?_, fun s t a ha h hb => ?_, fun p a ha => ⟨fun hb => ?_, fun v => ⟨fun hb => ?_, fun hb => ?_⟩⟩,
    fun s t hw hr h => ?_⟩
  · have ho : s.reg.owns a = true := by simpa [Regs.owns, hb] using hreg
    obtain ⟨hmem, hdraws, -⟩ := hostMemWrite_owned ho v
    refine ⟨⟨_, rfl, by rw [hostMemRead_owned ho]; rfl, by rw [hostMemRead_owned ho]; rfl⟩,
      ⟨_, rfl, mem_hostMemWrite_raced.mpr (.inr ⟨ho, rfl⟩), hdraws, fun hw => ?_⟩⟩
    rw [hmem, Memory.read_write_same hw]
    rfl
  · obtain ⟨e, rest, -, h⟩ := step_performs h
    rcases perform_raced h with ⟨hraced, -⟩ | ⟨ht, -⟩ | ⟨b, v, -, rfl⟩
    · exact hraced ▸ ha
    · rw [hb] at ht
      cases ht
    · exact mem_hostMemWrite_raced.mpr (.inl ha)
  · exact ⟨_, dmaRead_raced ha hb, rfl, rfl⟩
  · exact ⟨_, dmaWrite_raced ha hb v, rfl, rfl, fun hw => Memory.read_write_same hw _ _⟩
  · exact ⟨_, dmaWrite_word_buserr hb v, rfl, fun hw => Memory.read_write_same hw _ _⟩
  · obtain ⟨e, rest, -, h⟩ := step_performs h
    exact ⟨perform_racedDrawn (s := { s with inputs := rest }) hw hr h, fun a ha =>
      perform_drawn (s := { s with inputs := rest }) hw h ha (hr a ha).1 (hr a ha).2⟩

end Sys2Proof.Machine

/-! ## The decoder and the encoder (spec/30_encoding.md R300 to R306) -/

namespace Sys2Proof

/-! ### The fields of a command word, as numbers (R300) -/

theorem opcodeOf_toNat (c : Word) : (opcodeOf c).toNat = c.toNat % 16 := by
  simp [opcodeOf]

/-- The reserved bits are zero exactly in the words below 16. -/
theorem reservedOf_eq_zero_iff {c : Word} : reservedOf c = 0#28 ↔ c.toNat < 16 := by
  have := c.isLt
  rw [← BitVec.toNat_inj, reservedOf, BitVec.extractLsb'_toNat, BitVec.toNat_zero, Nat.shiftRight_eq_div_pow]
  omega

/-- The legal words are those below 8 (R301). -/
theorem wellFormedWord_iff {c : Word} : wellFormedWord c = true ↔ c.toNat < 8 := by
  simp only [wellFormedWord, reservedBitsZero, opcodeAssigned, Bool.and_eq_true, beq_iff_eq, decide_eq_true_eq]
  omega

/-- Every command's word satisfies the package's statement about command words. -/
theorem commandWord_statement (i : Instr) : Laws.CommandWord.Statement i := by
  cases i
  exacts [Laws.CommandWord.nop, Laws.CommandWord.normalize, Laws.CommandWord.mix, Laws.CommandWord.sum,
    Laws.CommandWord.var, Laws.CommandWord.lutBuild, Laws.CommandWord.remap, Laws.CommandWord.run]

/-! ### What the decoder answers (R301, R302, R305) -/

@[simp] theorem decode_encode (i : Instr) : decode (encode i) = .ok i := by
  cases i <;> rfl

/-- Every word below 8 is the word of a command (R302). -/
theorem exists_eq_encode {c : Word} (h : c.toNat < 8) : ∃ i, c = encode i := by
  have e : c = BitVec.ofNat 32 c.toNat := BitVec.eq_of_toNat_eq (by simp)
  interval_cases c.toNat
  exacts [⟨.nop, e⟩, ⟨.normalize, e⟩, ⟨.mix, e⟩, ⟨.sum, e⟩, ⟨.var, e⟩, ⟨.lutBuild, e⟩, ⟨.remap, e⟩, ⟨.run, e⟩]

theorem decode_reservedBits {c : Word} (h : 16 ≤ c.toNat) : decode c = .error .reservedBits :=
  if_neg (mt reservedOf_eq_zero_iff.mp (by omega))

theorem decode_reservedOpcode {c : Word} (hr : reservedOf c = 0#28) (ho : 8 ≤ (opcodeOf c).toNat) :
    decode c = .error .reservedOpcode := by
  unfold decode
  rw [if_pos hr]
  split
  case h_9 => rfl
  all_goals omega

/-- A word is reserved for its reserved bits or for its opcode, and decodes to no command (R305). -/
theorem exists_decode_eq_error {c : Word} (h : 8 ≤ c.toNat) : ∃ e, decode c = .error e := by
  rcases Nat.lt_or_ge c.toNat 16 with hr | hr
  · exact ⟨_, decode_reservedOpcode (reservedOf_eq_zero_iff.mpr hr) (by rw [opcodeOf_toNat]; omega)⟩
  · exact ⟨_, decode_reservedBits hr⟩

/-- The words that decode to a command are the commands' own words (R302). -/
theorem decode_eq_ok_iff {c : Word} {i : Instr} : decode c = .ok i ↔ c = encode i := by
  constructor
  · intro h
    rcases Nat.lt_or_ge c.toNat 8 with hc | hc
    · obtain ⟨j, rfl⟩ := exists_eq_encode hc
      rw [decode_encode] at h
      cases h
      rfl
    · obtain ⟨e, he⟩ := exists_decode_eq_error hc
      rw [he] at h
      cases h
  · rintro rfl
    exact decode_encode i

theorem exists_decode_eq_ok_iff {c : Word} : (∃ i, decode c = .ok i) ↔ wellFormedWord c = true := by
  constructor
  · rintro ⟨i, h⟩
    obtain ⟨-, hword, -, -⟩ := commandWord_statement i
    rwa [decode_eq_ok_iff.mp h]
  · intro h
    obtain ⟨i, rfl⟩ := exists_eq_encode (wellFormedWord_iff.mp h)
    exact ⟨i, decode_encode i⟩

end Sys2Proof

/-! ## Reserved words at CMD (R305) and `wrlut` (R308) -/

namespace Sys2Proof.Machine

/-! ### The arrival of a reserved word -/

/-- A failed check leaves what R402 and R403 say. -/
theorem Regs.raiseError_acceptBase (opcode : BitVec 4) (e : ErrCode) (g : Regs) :
    (g.acceptBase opcode).raiseError e = g.rejected opcode e := rfl

/-- A word that decodes to no command is rejected while idle: the arrival ends at its first check (R305, R403). -/
theorem command_of_decode_error {c : Word} {e : DecodeError} {s : State} (hb : s.reg.busy = false)
    (hd : decode c = .error e) :
    command c s = .next { s with reg := s.reg.rejected (opcodeOf c) .illegalCmd } := by
  have h : command c s = illegalCommand c s := by simp [command, hd]
  rw [h, illegalCommand, accept_error hb rfl, Regs.raiseError_acceptBase]

/-! ### `wrlut` -/

theorem windowOf_toNat (v : Byte) : (windowOf v).toNat = v.toNat / 4 := by
  have := v.isLt
  rw [windowOf, BitVec.toNat_ofNat]
  omega

/-- A field of the complement, for a field that may end at the last bit (the library's lemma asks it to end before). -/
theorem extractLsb'_not_of_le {w a n : Nat} (x : BitVec w) (h : a + n ≤ w) :
    (~~~x).extractLsb' a n = ~~~x.extractLsb' a n := by
  apply BitVec.eq_of_getLsbD_eq
  intro i hi
  simp [hi, show a + i < w by omega]

/-- Replacing a byte of a word sets it and leaves the other three. -/
theorem replaceByte_byte (t : Word) (x : Byte) {k m : Nat} (hk : k < 4) (hm : m < 4) :
    (replaceByte t k x).extractLsb' (8 * m) 8 = if m = k then x else t.extractLsb' (8 * m) 8 := by
  have e : replaceByte t k x = t &&& ~~~ placed (BitVec.allOnes 8) (8 * k) ||| placed x (8 * k) := rfl
  rw [e, BitVec.extractLsb'_or, BitVec.extractLsb'_and, extractLsb'_not_of_le _ (by omega)]
  by_cases h : m = k
  · subst h
    simp (disch := omega) only [placed_extractLsb'_same, BitVec.not_allOnes, BitVec.and_zero, BitVec.zero_or, if_true]
  · simp (disch := omega) only [placed_extractLsb'_disjoint, BitVec.not_zero, BitVec.and_allOnes, BitVec.or_zero, h,
      if_false]

/-- The word that `wrlut` writes back sets entry `v` and leaves the rest of the table. -/
theorem Lut.entry_setWindow_replaceByte (l : Lut) (v w x : Byte) :
    (l.setWindow (windowOf v) (replaceByte (l.window (windowOf v)) (v.toNat % 4) x)).entry w =
      if w = v then x else l.entry w := by
  have hk : v.toNat % 4 < 4 := Nat.mod_lt _ (by omega)
  have hm : w.toNat % 4 < 4 := Nat.mod_lt _ (by omega)
  rw [Lut.entry_setWindow, windowOf_toNat]
  by_cases hj : w.toNat / 4 = v.toNat / 4
  · have hw : w = Lut.index (windowOf v) (w.toNat % 4) :=
      (Lut.eq_index_iff w _ hm).mpr ⟨by rw [windowOf_toNat, hj], rfl⟩
    have hv : w = v ↔ w.toNat % 4 = v.toNat % 4 := by
      rw [← BitVec.toNat_inj]
      omega
    rw [if_pos hj, replaceByte_byte _ x hk hm, Lut.window_byte _ _ hm, ← hw]
    simp only [hv]
  · have hv : w ≠ v := by
      rintro rfl
      exact hj rfl
    rw [if_neg hj, if_neg hv]

/-- A step with an event left performs it (R1140). -/
theorem step_of_inputs {s : State} {e : Event} {rest : List Event} (h : s.inputs = e :: rest) :
    step s = perform e { s with inputs := rest } := by
  simp [step, turn, h]

/-- The step after `wrlut`'s read, while idle, writes the window word back with entry `v` replaced. -/
theorem step_hostWrlut_idle {s : State} (hb : s.reg.busy = false) (v x : Byte) :
    step (hostWrlut v x s) = .next
      { s with
        reply := .written .ok
        reg := s.reg.setOperand (replaceByte (s.reg.lut.window (windowOf v)) (v.toNat % 4) x) (.lutw (windowOf v)) } := by
  have hread : s.reg.readReg (.lutw (windowOf v)) = s.reg.lut.window (windowOf v) := by simp [Regs.readReg, hb]
  rw [hostWrlut, hread, step_of_inputs rfl]
  exact perform_regWrite_operand_idle (r := .lutw (windowOf v)) hb rfl _

/-! ### Settled: command words and `wrlut` -/

/-- Settles O2: the words below 8 are the commands' own, and every other word decodes to an error. -/
theorem decodeIsInverseOfEncode : Obligations.DecodeIsInverseOfEncode := by
  refine ⟨fun c i => decode_eq_ok_iff, fun c => exists_decode_eq_ok_iff, fun i => ?_, fun c => decode_reservedOpcode,
    rfl, rfl, rfl, rfl, rfl, rfl, rfl, rfl⟩
  obtain ⟨hwf, -, -, hzext⟩ := commandWord_statement i
  exact ⟨hzext.symm, hwf⟩

/-- Settles O1: the words of the map by `decode_encode`, the samples of R305 by the two ways of being reserved. -/
theorem opcodeMapWords : Obligations.OpcodeMapWords :=
  ⟨decode_encode .nop, decode_encode .normalize, decode_encode .mix, decode_encode .sum, decode_encode .var,
    decode_encode .lutBuild, decode_encode .remap, decode_encode .run,
    decode_reservedOpcode (by decide) (by decide), decode_reservedOpcode (by decide) (by decide),
    decode_reservedBits (by decide), decode_reservedBits (by decide)⟩

/-- Settles O15: a reserved word decodes to no command, and 0 is NOP's only word. -/
theorem reservedWordIsIllegalCmd : Obligations.ReservedWordIsIllegalCmd := by
  refine ⟨fun s c hb hc => ?_, fun c => decode_eq_ok_iff⟩
  obtain ⟨e, he⟩ := exists_decode_eq_error (c := c) (by omega)
  exact command_of_decode_error hb he

/-- Settles O60: the word written back differs from the word read in the byte of entry v alone. -/
theorem wrlutSetsOneEntry : Obligations.WrlutSetsOneEntry := by
  intro s v x rest hb hi
  exact ⟨_, _, step_of_inputs hi, step_hostWrlut_idle (s := { s with inputs := rest }) hb v x, rfl,
    fun w => Lut.entry_setWindow_replaceByte s.reg.lut v w x⟩

end Sys2Proof.Machine

/-! ## The arrival of a command (spec/40_lifecycle.md R400 to R404; spec/60_exceptions.md R1000, R1001) -/

namespace Sys2Proof.Machine

/-! ### What a command's checks report -/

/-- A check at the head of a list reports its own code, or leaves the report to the rest. -/
theorem firstError_check (cause : Prop) [Decidable cause] (e : ErrCode) (rest : List (Option ErrCode)) :
    (firstError ((if cause then some e else none) :: rest)).getD .none =
      if cause then e else (firstError rest).getD .none := by
  split <;> rfl

/-- The order in which a command makes its checks is that of R1001: the first to fail is the one the table of causes names. -/
theorem firstFailure_eq_checksOf (i : Instr) (g : Regs) : firstFailure i g = (checksOf i g).getD .none := by
  cases i
  case lutBuild => cases h : g.stats <;> simp [firstFailure, checksOf, checkFull, h]
  all_goals
    simp only [checksOf, firstFailure, checkMean, checkDim, checkWeights, checkSrcRange, checkDstRange, checkOverlap,
      regionInRange, regionsOverlap, decide_eq_true_eq, ← Nat.not_lt, ite_not, firstError_check, firstError_nil,
      Option.getD_none, List.mem_cons, List.not_mem_nil, reduceCtorEq, or_false, false_or, or_true, true_and, false_and,
      if_false]
  case mix | run => simp only [ite_or]

/-- A command passes its checks exactly where the table of causes names no error (R1000). -/
theorem checksOf_eq_none_iff {i : Instr} {g : Regs} : checksOf i g = none ↔ firstFailure i g = .none := by
  rw [firstFailure_eq_checksOf]
  cases h : checksOf i g with
  | none => simp
  | some e => simpa using (checksOf_recordable h).1

/-- The code a command's checks report is the first failure of the table. -/
theorem firstFailure_of_checksOf {i : Instr} {g : Regs} {e : ErrCode} (h : checksOf i g = some e) :
    firstFailure i g = e := by
  rw [firstFailure_eq_checksOf, h, Option.getD_some]

/-- The checks read registers that acceptance leaves (R402). -/
theorem checksOf_acceptBase (i : Instr) (opcode : BitVec 4) (g : Regs) :
    checksOf i (g.acceptBase opcode) = checksOf i g := by
  cases i <;> rfl

/-- What a passing command has in place (R1000): the statistics it needs, an image, weights, and regions in range that do
not overlap. -/
theorem firstFailure_eq_none_iff {i : Instr} {g : Regs} :
    firstFailure i g = .none ↔
      (i = .var → g.stats ≠ .none) ∧ (i = .lutBuild → g.stats = .full) ∧
      (i ∈ [.mix, .sum, .remap, .run] → g.width ≠ 0#16 ∧ g.height ≠ 0#16) ∧
      (i ∈ [.normalize, .run] → g.rawSum ≠ 0) ∧
      (i ∈ [.mix, .run] → g.src.toNat + 3 * g.pixels ≤ 2 ^ 32) ∧
      (i ∈ [.mix, .sum, .remap, .run] → g.dst.toNat + g.pixels ≤ 2 ^ 32) ∧
      (i = .var → g.dst.toNat + g.statN.toNat ≤ 2 ^ 32) ∧
      (i ∈ [.mix, .run] → regionsOverlap g.src.toNat (3 * g.pixels) g.dst.toNat g.pixels = false) := by
  rw [← checksOf_eq_none_iff]
  cases i <;> simp [checksOf, firstError_eq_none, checkMean_eq_none, checkFull_eq_none, checkDim_eq_none,
    checkWeights_eq_none, checkSrcRange_eq_none, checkDstRange_eq_none, checkOverlap_eq_none, regionsOverlap]

/-! ### What an arrival does (R401 to R404) -/

/-- A running command drops every command that arrives (R401). -/
theorem exec_busy {s : State} (hb : s.reg.busy = true) (i : Instr) :
    exec i s = .next { s with reg := s.reg.dropCommand } := by
  rw [exec_eq_accept, accept_busy hb]

/-- A command that fails a check ends with the code of the first that fails (R403). -/
theorem exec_rejected {s : State} {i : Instr} (hb : s.reg.busy = false) (hf : firstFailure i s.reg ≠ .none) :
    exec i s = .next { s with reg := s.reg.rejected (opcodeFor i) (firstFailure i s.reg) } := by
  obtain ⟨e, he⟩ := Option.ne_none_iff_exists'.mp (mt checksOf_eq_none_iff.mp hf)
  rw [exec_eq_accept, accept_error hb ((checksOf_acceptBase i _ _).trans he), Regs.raiseError_acceptBase,
    firstFailure_of_checksOf he]

/-- The start of a command: acceptance, BUSY, and the start actions of its first phase (R402, R404). -/
theorem startOf_acceptBase (i : Instr) (g : Regs) : startOf i (g.acceptBase (opcodeFor i)).setBusy = g.started i := by
  cases i <;> rfl

/-- A command that passes its checks starts (R404). -/
theorem exec_started {s : State} {i : Instr} (hb : s.reg.busy = false) (hf : firstFailure i s.reg = .none) :
    exec i s = .next (s.started i) := by
  rw [exec_eq_accept, accept_start hb ((checksOf_acceptBase i _ _).trans (checksOf_eq_none_iff.mpr hf)),
    startOf_acceptBase]
  rfl

/-- Everything a command's arrival can do. -/
theorem exec_next {s t : State} {i : Instr} (h : exec i s = .next t) :
    (s.reg.busy = true ∧ t = { s with reg := s.reg.dropCommand }) ∨
    (s.reg.busy = false ∧ firstFailure i s.reg ≠ .none ∧
      t = { s with reg := s.reg.rejected (opcodeFor i) (firstFailure i s.reg) }) ∨
    (s.reg.busy = false ∧ firstFailure i s.reg = .none ∧ t = s.started i) := by
  cases hb : s.reg.busy
  · by_cases hf : firstFailure i s.reg = .none
    · rw [exec_started hb hf] at h; cases h; exact .inr (.inr ⟨rfl, hf, rfl⟩)
    · rw [exec_rejected hb hf] at h; cases h; exact .inr (.inl ⟨rfl, hf, rfl⟩)
  · rw [exec_busy hb] at h; cases h; exact .inl ⟨rfl, rfl⟩

/-- The words that are no command's are 8 and above (R301). -/
theorem eight_le_of_not_wellFormedWord {c : Word} (h : wellFormedWord c = false) : 8 ≤ c.toNat := by
  rw [← Bool.not_eq_true, wellFormedWord_iff] at h
  omega

/-- The arrival of a word that decodes is its command's. -/
theorem command_of_decode {c : Word} {i : Instr} (h : decode c = .ok i) (s : State) : command c s = exec i s := by
  simp only [command, h]

/-- A served write of CMD is the arrival of its word (R400). -/
theorem perform_regWrite_cmd (c : Word) (s : State) :
    perform (.regWrite (Reg.offset .cmd) 4 c) s = command c { s with reply := .written .ok } := rfl

/-- Placing a command's word puts its CMD write in front of the events (R309). -/
theorem State.withFetchWord_encode (s : State) (i : Instr) :
    s.withFetchWord 32 (encode i).toNat = { s with inputs := .regWrite 0x00C#12 4 (encode i) :: s.inputs } := by
  rw [State.withFetchWord, Nat.mod_eq_of_lt (encode i).isLt, BitVec.ofNat_toNat, BitVec.setWidth_eq]
  rfl

/-! ### Which registers a busy write ignores (R408) -/

/-- The registers whose busy writes set WR_IGNORED, by name. -/
theorem Reg.isOperand_iff {r : Reg} : r.isOperand = true ↔
    r ∈ [.srcAddr, .dstAddr, .dim, .rawR, .rawG, .rawB, .weightR, .weightG, .weightB, .brightness, .contrast] ∨
      ∃ j, r = .lutw j := by
  cases r <;> simp [Reg.isOperand]

/-- The read-only registers, by name: none is an operand, CTRL, STATUS or CMD. -/
theorem Reg.readOnly_not_writable :
    ∀ r ∈ [Reg.id, .statN, .statS1Lo, .statS1Hi, .statQ0, .statQ1, .statQ2, .statQ3, .progress, .faultAddr],
      r.isOperand = false ∧ r ≠ .ctrl ∧ r ≠ .status ∧ r ≠ .cmd := by
  decide

/-! ### Settled: arrivals -/

/-- Settles O14: each word arrives by the shared acceptance, which drops it while BUSY = 1. -/
theorem commandDroppedWhileBusy : Obligations.CommandDroppedWhileBusy :=
  fun _ hb => ⟨exec_busy hb, command_busy hb⟩

/-- Settles O16: the checks report the table's first failure; a word that decodes to no command fails the first check. -/
theorem firstFailingCheckIsReported : Obligations.FirstFailingCheckIsReported := by
  refine fun s hb => ⟨fun i hf => ⟨_, exec_rejected hb hf, rfl, engineStep_idle hb⟩, fun c hc => ?_⟩
  obtain ⟨e, he⟩ := exists_decode_eq_error (eight_le_of_not_wellFormedWord hc)
  exact ⟨_, command_of_decode_error hb he, rfl, engineStep_idle hb⟩

/-- Settles O17: with no failure in the table, acceptance goes on to the start. -/
theorem passingCommandStarts : Obligations.PassingCommandStarts :=
  fun _ _ hb hf => exec_started hb hf

/-- Settles O18: a dropped, a rejected and a started command each change what R401, R403 and R404 name. -/
theorem arrivalFrame : Obligations.ArrivalFrame := by
  intro s t i h
  rcases exec_next h with ⟨hb, rfl⟩ | ⟨-, -, rfl⟩ | ⟨-, -, rfl⟩
  · simp [hb]
  · simp [Regs.rejected]
  · simp +contextual [State.started, Regs.started]

/-- Settles O8: operands and window words are ignored with WR_IGNORED set, CTRL and STATUS act, CMD drops its word, and what
is left is read-only or reserved. -/
theorem writesWhileBusy : Obligations.WritesWhileBusy := by
  intro s r d hb
  refine ⟨fun hr => ?_, ?_, ?_, ?_, fun hr => ?_, fun o ha ho => ?_⟩
  · have operand : r.isOperand = true := Reg.isOperand_iff.mpr hr
    have notCmd : r ≠ .cmd := by rintro rfl; cases operand
    rw [perform_regWrite_offset notCmd, Regs.writeReg_operand_busy hb operand]
  · rintro rfl
    exact perform_regWrite_offset (by decide) d s
  · rintro rfl
    exact perform_regWrite_offset (by decide) d s
  · rintro rfl
    rw [perform_regWrite_cmd]
    exact command_busy (s := { s with reply := .written .ok }) hb d
  · obtain ⟨hop, hctrl, hstatus, hcmd⟩ := Reg.readOnly_not_writable r hr
    rw [perform_regWrite_offset hcmd, Regs.writeReg_readOnly hop hctrl hstatus]
  · simp [perform, hostRegWrite, portServes, ha, ho]

/-- Settles O19: NOP has no checks, and its one unit is the last of its one phase. -/
theorem nopCompletes : Obligations.NopCompletes := by
  intro s hb
  refine ⟨exec_started hb rfl, ?_⟩
  rw [engineRun_succ (engineStep_ok rfl rfl), engineRun_zero]
  rfl

/-- Settles O50: the step performs the CMD write, which is the arrival of its word. -/
theorem stepExecutesCommandWord : Obligations.StepExecutesCommandWord := by
  have arrives {s : State} {c : Word} {rest : List Event} (hi : s.inputs = .regWrite 0x00C#12 4 c :: rest) :
      step s = command c { s with inputs := rest, reply := .written .ok } := by
    rw [step_of_inputs hi]
    exact perform_regWrite_cmd c _
  refine ⟨fun s c rest hi => ⟨fun i hd => ?_, fun hc => ?_⟩, fun s i => ?_⟩
  · rw [arrives hi, command_of_decode hd]
  · obtain ⟨e, he⟩ := exists_decode_eq_error (eight_le_of_not_wellFormedWord hc)
    rw [arrives hi]
    simp only [command, he]
  · rw [State.withFetchWord_encode, arrives rfl, command_of_decode (decode_encode i)]

/-- Settles O51: a step is a turn, and a turn of the engine needs BUSY = 1. -/
theorem stepTakesEngineTurn : Obligations.StepTakesEngineTurn := by
  refine ⟨fun s hi => ?_, fun s rest hi => step_of_inputs hi, fun s hb => engineStep_idle hb⟩
  simp [step, turn, hi]

end Sys2Proof.Machine

/-! ## Bus errors of one unit (spec/40_lifecycle.md R407; spec/60_exceptions.md R1002) -/

namespace Sys2Proof.Machine

/-! ### Accesses that end in a bus error -/

/-- The accesses end with a buserr at `a`, and leave a platform as `R` says. -/
def Dma.FailsAt {α : Type} (x : Dma α) (a : Word) (R : Platform → Prop) : Prop := ∃ q, x = .buserr a q ∧ R q

section
variable {α : Type} {a : Nat} {p q : Platform}

/-- A read that gets buserr ends the accesses, and memory is as before the reads (R210). -/
theorem Dma.failsAt_read (hq : p.SameMemory q) (ha : a < 2 ^ 32) (hb : p.busErr .read (BitVec.ofNat 32 a) = true)
    (f : Byte → Platform → Dma α) : ((dmaRead a q).bind f).FailsAt (BitVec.ofNat 32 a) p.SameMemory := by
  rw [dmaRead_buserr ha (by rw [hq.busErr, hb])]
  exact ⟨_, rfl, hq.trans (Platform.note_sameMemory _ _ _ _)⟩

/-- A read that is served goes on to the accesses that follow it. -/
theorem Dma.failsAt_after_read {f : Byte → Platform → Dma α} {w : Word} {R : Platform → Prop} (hq : p.SameMemory q)
    (ha : a < 2 ^ 32) (hb : p.busErr .read (BitVec.ofNat 32 a) = false)
    (hf : ∀ v r, p.SameMemory r → (f v r).FailsAt w R) : ((dmaRead a q).bind f).FailsAt w R := by
  rcases dmaRead_cases a q with ⟨h, -⟩ | ⟨-, h, -⟩ | ⟨-, -, -, e⟩ | ⟨-, -, -, e⟩
  · exact absurd ha h
  · rw [hq.busErr, hb] at h
    cases h
  all_goals
    rw [e, Dma.bind_ok]
    exact hf _ _ (hq.trans (dmaRead_ok_frame e).2.2)

/-- A write that gets buserr ends the accesses, and at most its own byte has changed (R201, R210). -/
theorem Dma.failsAt_write (hq : p.SameMemory q) (ha : a < 2 ^ 32) (hb : p.busErr .write (BitVec.ofNat 32 a) = true)
    (v : Byte) (f : Unit → Platform → Dma α) :
    ((dmaWrite a v q).bind f).FailsAt (BitVec.ofNat 32 a) (p.SameBut (BitVec.ofNat 32 a)) := by
  have e := dmaWrite_buserr v ha (p := q) (by rw [hq.busErr, hb])
  obtain ⟨-, -, -, same⟩ := dmaWrite_buserr_frame e
  exact ⟨_, by rw [e, Dma.bind_buserr], hq.then same⟩

end

/-- The platform's answer at an address of a region that it serves. -/
theorem Platform.serves.busErr_eq {p : Platform} {kind : AccessKind} {base len a : Nat} (h : p.serves kind base len)
    (ha : a < 2 ^ 32) (hlo : base ≤ a) (hhi : a < base + len) : p.busErr kind (BitVec.ofNat 32 a) = false := by
  refine h _ ?_
  rw [BitVec.toNat_ofNat, Nat.mod_eq_of_lt ha]
  exact decide_eq_true ⟨hlo, hhi⟩

/-! ### The units that access memory -/

/-- A MIX unit ends at the first of its three reads that gets buserr, and has written nothing (R603, R605). -/
theorem unitMix_failsAt_read {g : Regs} {p : Platform} {a : Nat} (ha : a < 2 ^ 32)
    (hlo : g.src.toNat + 3 * g.progress.toNat ≤ a) (hhi : a < g.src.toNat + 3 * g.progress.toNat + 3)
    (hs : p.serves .read (g.src.toNat + 3 * g.progress.toNat) (a - (g.src.toNat + 3 * g.progress.toNat)))
    (hb : p.busErr .read (BitVec.ofNat 32 a) = true) : (unitMix g p).FailsAt (BitVec.ofNat 32 a) p.SameMemory := by
  obtain ⟨k, rfl⟩ := Nat.exists_eq_add_of_le hlo
  rw [Nat.add_sub_cancel_left] at hs
  have same := Platform.SameMemory.refl p
  have served {j : Nat} (hj : j < k) :=
    hs.busErr_eq (a := g.src.toNat + 3 * g.progress.toNat + j) (by omega) (by omega) (by omega)
  unfold unitMix
  obtain rfl | rfl | rfl : k = 0 ∨ k = 1 ∨ k = 2 := by omega
  · exact Dma.failsAt_read same ha hb _
  · refine Dma.failsAt_after_read same (by omega) (served (j := 0) (by omega)) fun _ _ h => ?_
    exact Dma.failsAt_read h ha hb _
  · refine Dma.failsAt_after_read same (by omega) (served (j := 0) (by omega)) fun _ _ h => ?_
    refine Dma.failsAt_after_read h (by omega) (served (by omega)) fun _ _ h => ?_
    exact Dma.failsAt_read h ha hb _

/-- A MIX unit whose reads are served ends at its write if that gets buserr. -/
theorem unitMix_failsAt_write {g : Regs} {p : Platform} (hr : g.src.toNat + 3 * g.progress.toNat + 3 ≤ 2 ^ 32)
    (hs : p.serves .read (g.src.toNat + 3 * g.progress.toNat) 3) (ha : g.dst.toNat + g.progress.toNat < 2 ^ 32)
    (hb : p.busErr .write g.unitDst = true) : (unitMix g p).FailsAt g.unitDst (p.SameBut g.unitDst) := by
  have served {j : Nat} (hj : j < 3) :=
    hs.busErr_eq (a := g.src.toNat + 3 * g.progress.toNat + j) (by omega) (by omega) (by omega)
  unfold unitMix
  refine Dma.failsAt_after_read (.refl p) (by omega) (served (j := 0) (by omega)) fun _ _ h => ?_
  refine Dma.failsAt_after_read h (by omega) (served (by omega)) fun _ _ h => ?_
  refine Dma.failsAt_after_read h (by omega) (served (by omega)) fun _ _ h => ?_
  exact Dma.failsAt_write h ha hb _ _

/-- A SUM, VAR or REMAP unit ends at its read of the destination byte if that gets buserr. -/
theorem workUnit_failsAt_dst_read {g : Regs} {p : Platform} (hp : g.phase ∈ [.sum, .var, .remap])
    (ha : g.dst.toNat + g.progress.toNat < 2 ^ 32) (hb : p.busErr .read g.unitDst = true) :
    (workUnit g p).FailsAt g.unitDst p.SameMemory := by
  unfold workUnit
  cases e : g.phase <;> simp only [e, List.mem_cons, List.not_mem_nil, reduceCtorEq, or_self] at hp
  all_goals exact Dma.failsAt_read (.refl p) ha hb _

/-- A REMAP unit whose read is served ends at its write if that gets buserr. -/
theorem unitRemap_failsAt_write {g : Regs} {p : Platform} (ha : g.dst.toNat + g.progress.toNat < 2 ^ 32)
    (hr : p.busErr .read g.unitDst = false) (hb : p.busErr .write g.unitDst = true) :
    (unitRemap g p).FailsAt g.unitDst (p.SameBut g.unitDst) :=
  Dma.failsAt_after_read (.refl p) ha hr fun _ _ h => Dma.failsAt_write h ha hb _ _

/-- A unit that fails ends the command with BUS_ERROR at its address, in one turn (R407). -/
theorem engineStep_failsAt {s : State} {a : Word} {R : Platform → Prop} (hb : s.reg.busy = true)
    (h : (workUnit s.reg s.plat).FailsAt a R) :
    ∃ p, engineStep s = .next { s with reg := s.reg.busFault a, plat := p.settle } ∧ R p := by
  obtain ⟨p, hu, hp⟩ := h
  exact ⟨p, engineStep_buserr hb hu, hp⟩

/-! ### Settled: bus errors -/

/-- Settles O30: the failing read ends the unit before it writes. -/
theorem readBusErrorIsPrecise : Obligations.ReadBusErrorIsPrecise := by
  intro s a hb ha hu herr
  have fails : (workUnit s.reg s.plat).FailsAt (BitVec.ofNat 32 a) s.plat.SameMemory := by
    rcases hu with ⟨hp, hlo, hhi, hs⟩ | ⟨hp, rfl⟩
    · simpa only [workUnit, hp] using unitMix_failsAt_read ha hlo hhi hs herr
    · exact workUnit_failsAt_dst_read hp ha herr
  obtain ⟨p, h, same⟩ := engineStep_failsAt hb fails
  exact ⟨_, h, rfl, same.mem, rfl, rfl⟩

/-- Settles O31: the failing write is the unit's last access, after reads that change nothing. -/
theorem writeBusErrorIsPrecise : Obligations.WriteBusErrorIsPrecise := by
  rintro s a hb ha rfl hu herr
  have fails : (workUnit s.reg s.plat).FailsAt s.reg.unitDst (s.plat.SameBut s.reg.unitDst) := by
    rcases hu with ⟨hp, hr, hs⟩ | ⟨hp, hr⟩
    · simpa only [workUnit, hp] using unitMix_failsAt_write hr hs ha herr
    · simpa only [workUnit, hp] using unitRemap_failsAt_write ha hr herr
  obtain ⟨p, h, same⟩ := engineStep_failsAt hb fails
  exact ⟨_, h, rfl, same.read, rfl, rfl⟩

end Sys2Proof.Machine

/-! ## The engine's position and the statistics (spec/40_lifecycle.md R405; spec/20_memory.md R213; spec/43_statistics.md R704) -/

namespace Sys2Proof.Machine

/-! ### The two invariants, taken apart -/

/-- Both invariants, which a step keeps together. -/
structure Regs.InBounds (g : Regs) : Prop where
  engine : g.EngineOk
  stats : g.StatsOk

/-- What a running command needs from its start to its end: its regions in range and, for MIX and RUN, apart (R203, R213). -/
structure Regs.RegionsOk (g : Regs) : Prop where
  src : g.src.toNat + g.srcLen ≤ 2 ^ 32
  dst : g.dst.toNat + g.dstLen ≤ 2 ^ 32
  apart : g.op = 2#4 ∨ g.op = 7#4 → regionsOverlap g.src.toNat (3 * g.pixels) g.dst.toNat g.pixels = false
  image : g.op = 7#4 → 0 < g.pixels

/-- Where a running command stands: a phase of its own, a unit of that phase, and the statistics that the phase works on
(R114, R115, R405). -/
structure Regs.PositionOk (g : Regs) : Prop where
  fits : g.phaseFits = true
  progress : g.progress.toNat < g.unitCount g.phase
  weights : g.phase = .normalize → g.rawSum ≠ 0
  sum : g.phase = .sum → g.stats = .none ∧ g.statN.toNat = g.pixels
  var : g.phase = .var → g.stats = .mean
  lutBuild : g.phase = .lutBuild → g.stats = .full
  counted : g.op = 7#4 ∧ (g.phase = .var ∨ g.phase = .lutBuild ∨ g.phase = .remap) → g.statN.toNat = g.pixels

theorem Regs.EngineOk.parts {g : Regs} (h : g.EngineOk) (hb : g.busy = true) : g.RegionsOk ∧ g.PositionOk := by
  obtain ⟨fits, progress, src, dst, apart, weights, image, sum, var, lutBuild, counted⟩ := h hb
  exact ⟨⟨src, dst, apart, image⟩, ⟨fits, progress, weights, sum, var, lutBuild, counted⟩⟩

theorem Regs.engineOk_of_parts {g : Regs} (r : g.RegionsOk) (k : g.PositionOk) : g.EngineOk := fun _ =>
  ⟨k.fits, k.progress, r.src, r.dst, r.apart, k.weights, r.image, k.sum, k.var, k.lutBuild, k.counted⟩

theorem Regs.engineOk_of_idle {g : Regs} (hb : g.busy = false) : g.EngineOk := by
  simp [Regs.EngineOk, hb]

/-- The bounds of R704 that hold whether a pass is in progress or not. -/
structure Regs.StatsBounded (g : Regs) : Prop where
  counted : g.stats ≠ .none → 0 < g.statN.toNat
  statN : g.statN.toNat ≤ 65535 ^ 2
  s1 : g.s1.toNat ≤ 255 * g.statN.toNat
  q : g.q.toNat ≤ 65025 * g.statN.toNat ^ 3

theorem Regs.StatsOk.bounded {g : Regs} (h : g.StatsOk) : g.StatsBounded := by
  obtain ⟨counted, statN, s1, q, -, -⟩ := h
  exact ⟨counted, statN, s1, q⟩

theorem Regs.StatsBounded.congr {g h : Regs} (k : g.StatsBounded) (hstats : h.stats = g.stats) (hN : h.statN = g.statN)
    (hs1 : h.s1 = g.s1) (hq : h.q = g.q) : h.StatsBounded := by
  constructor
  · rw [hstats, hN]; exact k.counted
  · rw [hN]; exact k.statN
  · rw [hs1, hN]; exact k.s1
  · rw [hq, hN]; exact k.q

/-- With no pass in progress those bounds are all that is asked. -/
theorem Regs.StatsBounded.statsOk {g : Regs} (h : g.StatsBounded) (hp : g.busy = true → g.phase ≠ .sum ∧ g.phase ≠ .var) :
    g.StatsOk :=
  ⟨h.counted, h.statN, h.s1, h.q, fun ⟨hb, e⟩ => absurd e (hp hb).1, fun ⟨hb, e⟩ => absurd e (hp hb).2⟩

/-- Idle registers with bounded statistics are within both invariants. -/
theorem Regs.StatsBounded.inBounds_of_idle {g h : Regs} (k : g.StatsBounded) (hb : h.busy = false)
    (hstats : h.stats = g.stats) (hN : h.statN = g.statN) (hs1 : h.s1 = g.s1) (hq : h.q = g.q) : h.InBounds :=
  ⟨Regs.engineOk_of_idle hb, (k.congr hstats hN hs1 hq).statsOk (by simp [hb])⟩

/-- The lengths of the regions depend on the operands, OP and, for VAR, STAT_N (R203). -/
theorem Regs.SameOperands.regionLens {g h : Regs} (k : g.SameOperands h) (hN : g.op = 4#4 → h.statN = g.statN) :
    h.srcLen = g.srcLen ∧ h.dstLen = g.dstLen := by
  have hpix : h.pixels = g.pixels := Regs.pixels_congr k.width k.height
  refine ⟨by simp only [Regs.srcLen, k.op, hpix], ?_⟩
  unfold Regs.dstLen
  rw [k.op, hpix]
  split
  case h_3 hop => rw [hN (BitVec.eq_of_toNat_eq hop)]
  all_goals rfl

theorem Regs.RegionsOk.congr {g h : Regs} (r : g.RegionsOk) (k : g.SameOperands h) (hN : g.op = 4#4 → h.statN = g.statN) :
    h.RegionsOk := by
  have hpix : h.pixels = g.pixels := Regs.pixels_congr k.width k.height
  obtain ⟨hsrc, hdst⟩ := k.regionLens hN
  constructor
  · rw [k.src, hsrc]; exact r.src
  · rw [k.dst, hdst]; exact r.dst
  · rw [k.op, k.src, k.dst, hpix]; exact r.apart
  · rw [k.op, hpix]; exact r.image

/-- RUN has every phase but 0, and those after MIX only where CL = 1 (R901). -/
theorem Regs.phaseFits_run_iff {g : Regs} (hop : g.op = 7#4) :
    g.phaseFits = true ↔ g.phase ≠ .none ∧ (g.cl = true ∨ g.phase = .normalize ∨ g.phase = .mix) := by
  simp [Regs.phaseFits, hop, or_assoc]

/-! ### Sizes -/

/-- N is at most 65535² (R119). -/
theorem Regs.pixels_le (g : Regs) : g.pixels ≤ 65535 ^ 2 := by
  have hw := g.width.isLt
  have hh := g.height.isLt
  exact (Nat.mul_le_mul (Nat.le_of_lt_succ hw) (Nat.le_of_lt_succ hh)).trans_eq (by norm_num)

/-- A unit count fits PROGRESS (R127). -/
theorem Regs.unitCount_lt (g : Regs) (ph : Phase) : g.unitCount ph < 2 ^ 32 := by
  cases ph
  case mix | sum | remap => exact g.pixels_lt
  case var => exact g.statN.isLt
  all_goals simp [Regs.unitCount]

/-- PROGRESS does not wrap where a unit is counted (R405). -/
theorem Regs.countUnit_progress_toNat {g : Regs} (h : g.progress.toNat < g.unitCount g.phase) :
    g.countUnit.progress.toNat = g.progress.toNat + 1 := by
  have := g.unitCount_lt g.phase
  rw [Regs.countUnit_progress, BitVec.toNat_ofNat, Nat.mod_eq_of_lt (by omega)]

/-! ### A phase begins -/

/-- What a phase needs where it begins (R405, R501, R115). -/
def Regs.Ready (g : Regs) : Phase → Prop
  | .none => True
  | .normalize => g.rawSum ≠ 0
  | .mix => 0 < g.pixels
  | .sum => 0 < g.pixels
  | .var => 0 < g.statN.toNat
  | .lutBuild => g.stats = .full
  | .remap => 0 < g.pixels

theorem Regs.enterPhase_sameOperands (ph : Phase) (g : Regs) : g.SameOperands (g.enterPhase ph) := by
  cases ph <;> exact ⟨rfl, rfl, rfl, rfl, rfl, rfl, rfl, rfl, rfl, rfl, rfl⟩

/-- A phase that begins as it needs stands at its first unit. -/
theorem Regs.enterPhase_positionOk {g : Regs} {ph : Phase} (hready : g.Ready ph) (hfits : (g.enterPhase ph).phaseFits = true)
    (hN : g.op = 7#4 ∧ (ph = .var ∨ ph = .lutBuild ∨ ph = .remap) → g.statN.toNat = g.pixels) :
    (g.enterPhase ph).PositionOk := by
  cases ph
  case none => exact ⟨hfits, Nat.one_pos, nofun, nofun, nofun, nofun, by simp⟩
  case normalize => exact ⟨hfits, Nat.one_pos, fun _ => hready, nofun, nofun, nofun, by simp⟩
  case mix => exact ⟨hfits, hready, nofun, nofun, nofun, nofun, by simp⟩
  case sum =>
    have hN : (g.enterPhase .sum).statN.toNat = g.pixels := Nat.mod_eq_of_lt g.pixels_lt
    exact ⟨hfits, hready, nofun, fun _ => ⟨rfl, hN⟩, nofun, nofun, by simp⟩
  case var => exact ⟨hfits, hready, nofun, nofun, fun _ => rfl, nofun, hN⟩
  case lutBuild => exact ⟨hfits, Nat.zero_lt_succ 255, nofun, nofun, nofun, fun _ => hready, hN⟩
  case remap => exact ⟨hfits, hready, nofun, nofun, nofun, nofun, hN⟩

/-- Where a phase begins no sample of a pass has been seen (R710, R720). -/
theorem Regs.enterPhase_statsOk {g : Regs} {ph : Phase} (hs : g.StatsBounded) (hready : g.Ready ph) :
    (g.enterPhase ph).StatsOk := by
  cases ph
  case sum =>
    have hN : (g.enterPhase .sum).statN.toNat ≤ 65535 ^ 2 := (Nat.mod_le _ _).trans g.pixels_le
    exact ⟨fun h => absurd rfl h, hN, Nat.zero_le _, Nat.zero_le _, fun _ => Nat.zero_le _, nofun⟩
  case var => exact ⟨fun _ => hready, hs.statN, hs.s1, Nat.zero_le _, nofun, fun _ => Nat.zero_le _⟩
  all_goals exact ⟨hs.counted, hs.statN, hs.s1, hs.q, nofun, nofun⟩

/-- A phase that begins as it needs is within both invariants. -/
theorem Regs.enterPhase_inBounds {g : Regs} {ph : Phase} (hr : g.RegionsOk) (hs : g.StatsBounded) (hready : g.Ready ph)
    (hfits : (g.enterPhase ph).phaseFits = true)
    (hN : g.op = 7#4 ∧ (ph = .var ∨ ph = .lutBuild ∨ ph = .remap) → g.statN.toNat = g.pixels) :
    (g.enterPhase ph).InBounds := by
  have regions : (g.enterPhase ph).RegionsOk := by
    refine hr.congr (g.enterPhase_sameOperands ph) fun hop => (Regs.enterPhase_statN_s1 ?_ g).1
    rintro rfl
    rcases Regs.op_of_phaseFits hfits with h | h <;> simp [hop, Phase.code] at h
  exact ⟨Regs.engineOk_of_parts regions (Regs.enterPhase_positionOk hready hfits hN), Regs.enterPhase_statsOk hs hready⟩

/-! ### A command starts -/

/-- The registers at a start, before its first phase begins (R402, R404, R900). -/
def Regs.accepted (i : Instr) (g : Regs) : Regs :=
  if i = .run then (g.acceptBase (opcodeFor i)).setBusy.latchContrast else (g.acceptBase (opcodeFor i)).setBusy

theorem Regs.started_eq_enterPhase (i : Instr) (g : Regs) : g.started i = (g.accepted i).enterPhase (firstPhaseOf i) := by
  cases i <;> rfl

theorem Regs.accepted_op (i : Instr) (g : Regs) : (g.accepted i).op = opcodeFor i := by
  cases i <;> rfl

/-- No two commands have one opcode (R302). -/
theorem opcodeFor_injective : Function.Injective opcodeFor := by
  intro i j h
  obtain ⟨-, -, -, hi⟩ := commandWord_statement i
  obtain ⟨-, -, -, hj⟩ := commandWord_statement j
  have hword : encode i = encode j := by
    rw [← hi, ← hj]
    exact congrArg _ h
  exact Except.ok.inj ((decode_encode i).symm.trans (hword ▸ decode_encode j))

/-- A start with RUN's opcode is a start of RUN. -/
theorem Regs.eq_run_of_accepted_op {i : Instr} {g : Regs} (h : (g.accepted i).op = 7#4) : i = .run :=
  opcodeFor_injective ((g.accepted_op i).symm.trans h)

/-- The range and overlap checks are about the regions that the command then has (R203, R1000). -/
theorem Regs.accepted_regionsOk {i : Instr} {g : Regs} (hf : firstFailure i g = .none) : (g.accepted i).RegionsOk := by
  obtain ⟨-, -, hdim, -, hsrc, hdst, hdstVar, hapart⟩ := firstFailure_eq_none_iff.mp hf
  refine ⟨?_, ?_, fun hop => ?_, fun hop => ?_⟩
  · cases i
    case mix | run => exact hsrc (by decide)
    all_goals exact g.src.isLt.le
  · cases i
    case mix | sum | remap | run => exact hdst (by decide)
    case var => exact hdstVar rfl
    all_goals exact g.dst.isLt.le
  · rw [Regs.accepted_op] at hop
    obtain rfl | rfl := hop.imp (opcodeFor_injective (a₂ := .mix) ·) (opcodeFor_injective (a₂ := .run) ·)
    all_goals exact hapart (by decide)
  · obtain rfl := Regs.eq_run_of_accepted_op hop
    exact Regs.pixels_pos (hdim (by decide)).1 (hdim (by decide)).2

/-- The other checks are about what the first phase needs (R1000). -/
theorem Regs.accepted_ready {i : Instr} {g : Regs} (hf : firstFailure i g = .none) (hs : g.StatsBounded) :
    (g.accepted i).Ready (firstPhaseOf i) := by
  obtain ⟨hmean, hfull, hdim, hweights, -⟩ := firstFailure_eq_none_iff.mp hf
  cases i
  case nop => trivial
  case normalize | run => exact hweights (by decide)
  case mix | sum | remap => exact Regs.pixels_pos (hdim (by decide)).1 (hdim (by decide)).2
  case var => exact hs.counted (hmean rfl)
  case lutBuild => exact hfull rfl

/-- A command that passes its checks starts within the invariants. -/
theorem Regs.started_inBounds {i : Instr} {g : Regs} (hf : firstFailure i g = .none) (hs : g.StatsBounded) :
    (g.started i).InBounds := by
  rw [Regs.started_eq_enterPhase]
  refine Regs.enterPhase_inBounds (Regs.accepted_regionsOk hf) ?_ (Regs.accepted_ready hf hs) ?_ ?_
  · cases i <;> exact hs.congr rfl rfl rfl rfl
  · rw [← Regs.started_eq_enterPhase]
    cases i
    case run => exact (Regs.phaseFits_run_iff rfl).mpr ⟨nofun, .inr (.inl rfl)⟩
    all_goals rfl
  · rintro ⟨hop, hph⟩
    obtain rfl := Regs.eq_run_of_accepted_op hop
    rcases hph with h | h | h <;> cases h

/-! ### A unit is done -/

/-- A byte of a pass adds at most 255 to S1 (R710). -/
theorem Regs.addSample_s1_le {g : Regs} {n : Nat} (h : g.s1.toNat ≤ 255 * n) (v : Byte) :
    (g.addSample v).s1.toNat ≤ 255 * (n + 1) := by
  have := v.isLt
  rw [Regs.addSample_s1, BitVec.toNat_ofNat]
  exact (Nat.mod_le _ _).trans (by omega)

/-- A byte of a pass deviates from the mean by at most 255 (R701, R720). -/
theorem Regs.squaredDeviation_le {g : Regs} (h : g.s1.toNat ≤ 255 * g.statN.toNat) (v : Byte) :
    g.squaredDeviation v ≤ 65025 * g.statN.toNat ^ 2 := by
  have hs : (g.s1.toNat : Int) ≤ 255 * g.statN.toNat := by exact_mod_cast h
  have hv : (g.statN.toNat : Int) * v.toNat ≤ g.statN.toNat * 255 := by
    exact_mod_cast Nat.mul_le_mul_left _ (Nat.le_of_lt_succ v.isLt)
  have h0 : (0 : Int) ≤ (g.statN.toNat : Int) * v.toNat := by positivity
  have : ((g.statN.toNat : Int) * v.toNat - g.s1.toNat) ^ 2 ≤ (255 * g.statN.toNat) ^ 2 :=
    sq_le_sq' (by linarith) (by linarith)
  rw [Regs.squaredDeviation, Int.toNat_le]
  push_cast
  linarith

/-- A byte of a pass adds at most 65025·STAT_N² to Q (R704, R720). -/
theorem Regs.addDeviation_q_le {g : Regs} {n : Nat} (h : g.q.toNat ≤ 65025 * g.statN.toNat ^ 2 * n)
    (hs : g.s1.toNat ≤ 255 * g.statN.toNat) (v : Byte) :
    (g.addDeviation v).q.toNat ≤ 65025 * g.statN.toNat ^ 2 * (n + 1) := by
  have := Regs.squaredDeviation_le hs v
  rw [Regs.addDeviation_q, BitVec.toNat_ofNat, Nat.mul_succ]
  exact (Nat.mod_le _ _).trans (Nat.add_le_add h this)

/-- A sample that SUM has added keeps S1 within its bound, with the unit counted. -/
theorem Regs.InBounds.addSample {g : Regs} (h : g.InBounds) (hb : g.busy = true) (hp : g.phase = .sum) (v : Byte) :
    (g.addSample v).countUnit.StatsOk := by
  obtain ⟨-, k⟩ := h.engine.parts hb
  obtain ⟨counted, statN, -, q, hsum, -⟩ := h.stats
  have hlt : g.progress.toNat < g.statN.toNat := by
    rw [(k.sum hp).2]
    simpa only [hp, Regs.unitCount] using k.progress
  have hs1 := Regs.addSample_s1_le (hsum ⟨hb, hp⟩) v
  refine ⟨counted, statN, hs1.trans (Nat.mul_le_mul_left _ hlt), q, fun _ => ?_, fun ⟨_, hp'⟩ => ?_⟩
  · exact hs1.trans_eq (congrArg _ (Regs.countUnit_progress_toNat k.progress).symm)
  · cases hp.symm.trans hp'

/-- A deviation that VAR has added keeps Q within its bound, with the unit counted. -/
theorem Regs.InBounds.addDeviation {g : Regs} (h : g.InBounds) (hb : g.busy = true) (hp : g.phase = .var) (v : Byte) :
    (g.addDeviation v).countUnit.StatsOk := by
  obtain ⟨-, k⟩ := h.engine.parts hb
  obtain ⟨counted, statN, s1, -, -, hvar⟩ := h.stats
  have hlt : g.progress.toNat < g.statN.toNat := by simpa only [hp, Regs.unitCount] using k.progress
  have hq := Regs.addDeviation_q_le (hvar ⟨hb, hp⟩) s1 v
  have hq3 : (g.addDeviation v).q.toNat ≤ 65025 * g.statN.toNat ^ 3 := by
    rw [Nat.pow_succ, ← Nat.mul_assoc]
    exact hq.trans (Nat.mul_le_mul_left _ hlt)
  refine ⟨counted, statN, s1, hq3, fun ⟨_, hp'⟩ => ?_, fun _ => ?_⟩
  · cases hp.symm.trans hp'
  · exact hq.trans_eq (congrArg _ (Regs.countUnit_progress_toNat k.progress).symm)

/-- A unit that is answered ok leaves the statistics within bounds, with the unit counted. -/
theorem workUnit_ok_statsOk {g g' : Regs} {p p' : Platform} (hb : g.busy = true) (h : g.InBounds)
    (hu : workUnit g p = .ok g' p') : g'.countUnit.StatsOk := by
  by_cases hs : g.phase = .sum
  · obtain ⟨⟨v, -, rfl⟩, -⟩ := unitSum_ok (g := g) (by simpa only [workUnit, hs] using hu)
    exact h.addSample hb hs v
  by_cases hv : g.phase = .var
  · obtain ⟨⟨v, -, rfl⟩, -⟩ := unitVar_ok (g := g) (by simpa only [workUnit, hv] using hu)
    exact h.addDeviation hb hv v
  · obtain ⟨-, -, hs1, hq⟩ := workUnit_ok_writes hu
    obtain ⟨hphase, -, -, hN, hstats, -⟩ := workUnit_ok_keeps hu
    refine (h.stats.bounded.congr (h := g'.countUnit) hstats hN (hs1 hs) (hq hv)).statsOk fun _ => ?_
    rw [Regs.countUnit_phase, hphase]
    exact ⟨hs, hv⟩

/-- The engine's invariant speaks of no register that a unit writes. -/
theorem workUnit_ok_engineOk {g g' : Regs} {p p' : Platform} (h : g.EngineOk) (hu : workUnit g p = .ok g' p') :
    g'.EngineOk := by
  rw [workUnit_ok_regs hu]
  exact h

/-! ### A phase ends -/

/-- SUM and VAR have at least one sample (R405). -/
theorem Regs.PositionOk.statN_pos {g : Regs} (k : g.PositionOk) (hp : g.phase = .sum ∨ g.phase = .var) :
    0 < g.statN.toNat := by
  have hlt := k.progress
  rcases hp with e | e
  · rw [(k.sum e).2]
    exact (Nat.zero_le _).trans_lt (e ▸ hlt)
  · exact (Nat.zero_le _).trans_lt (e ▸ hlt)

/-- The end actions of SUM and VAR record statistics over at least one sample (R115, R710, R720). -/
theorem Regs.leavePhase_statsBounded {g : Regs} {ph : Phase} (hs : g.StatsBounded)
    (hN : ph = .sum ∨ ph = .var → 0 < g.statN.toNat) : (g.leavePhase ph).StatsBounded := by
  cases ph
  case sum => exact ⟨fun _ => hN (.inl rfl), hs.statN, hs.s1, hs.q⟩
  case var => exact ⟨fun _ => hN (.inr rfl), hs.statN, hs.s1, hs.q⟩
  all_goals exact hs

/-- Each phase of RUN leaves what the next one needs (R900, R901). -/
theorem Regs.nextPhase_ready {g : Regs} {ph : Phase} (r : g.RegionsOk) (k : g.PositionOk)
    (hn : g.nextPhase g.phase = some ph) :
    (g.countUnit.leavePhase g.phase).Ready ph ∧ ((g.countUnit.leavePhase g.phase).enterPhase ph).phaseFits = true ∧
    (ph = .var ∨ ph = .lutBuild ∨ ph = .remap → g.statN.toNat = g.pixels) := by
  obtain ⟨hop, hcases⟩ := Regs.nextPhase_eq_some hn
  have hN := r.image hop
  obtain ⟨-, hcl⟩ := (Regs.phaseFits_run_iff hop).mp k.fits
  have latched (hn : g.phase ≠ .normalize) (hm : g.phase ≠ .mix) : g.cl = true := by simpa [hn, hm] using hcl
  have hcounted := fun hp => k.counted ⟨hop, hp⟩
  have hsum := fun hp => (k.sum hp).2
  rw [Regs.phaseFits_run_iff (by simpa using hop)]
  rcases hcases with ⟨e, rfl⟩ | ⟨e, hcl, rfl⟩ | ⟨e, rfl⟩ | ⟨e, rfl⟩ | ⟨e, rfl⟩ <;>
    rw [e] at hcounted hsum latched ⊢
  · exact ⟨hN, ⟨nofun, .inr (.inr rfl)⟩, by simp⟩
  · exact ⟨hN, ⟨nofun, .inl hcl⟩, by simp⟩
  · exact ⟨hN.trans_eq (hsum rfl).symm, ⟨nofun, .inl (latched nofun nofun)⟩, fun _ => hsum rfl⟩
  · exact ⟨rfl, ⟨nofun, .inl (latched nofun nofun)⟩, fun _ => hcounted (.inl rfl)⟩
  · exact ⟨hN, ⟨nofun, .inl (latched nofun nofun)⟩, fun _ => hcounted (.inr (.inl rfl))⟩

/-- What follows a completed unit is within the invariants. -/
theorem Regs.advance_inBounds {g : Regs} (hb : g.busy = true) (he : g.EngineOk) (hs : g.countUnit.StatsOk) :
    g.advance.InBounds := by
  obtain ⟨r, k⟩ := he.parts hb
  have left : (g.countUnit.leavePhase g.phase).StatsBounded := Regs.leavePhase_statsBounded hs.bounded k.statN_pos
  rcases g.advance_cases with ⟨hlt, e⟩ | ⟨-, ph, hn, e⟩ | ⟨-, -, e⟩ <;> rw [e]
  · refine ⟨Regs.engineOk_of_parts ⟨r.src, r.dst, r.apart, r.image⟩ ?_, hs⟩
    refine ⟨k.fits, ?_, k.weights, k.sum, k.var, k.lutBuild, k.counted⟩
    rwa [Regs.countUnit_progress_toNat k.progress]
  · obtain ⟨hready, hfits, hN⟩ := Regs.nextPhase_ready r k hn
    refine Regs.enterPhase_inBounds ?_ left hready hfits fun ⟨_, hp⟩ => by simpa using hN hp
    exact r.congr (by constructor <;> simp) fun _ => by simp
  · exact left.inBounds_of_idle rfl rfl rfl rfl rfl

/-! ### Every way a step changes the registers -/

theorem engineStep_inBounds {s t : State} (hok : s.reg.InBounds) (h : engineStep s = .next t) : t.reg.InBounds := by
  have hs := hok.stats.bounded
  rcases engineStep_next h with ⟨-, rfl⟩ | ⟨hb, g, p, hu, rfl⟩ | ⟨-, a, p, -, rfl⟩
  · exact hok
  · exact Regs.advance_inBounds ((workUnit_ok_sameStatus hu).busy.trans hb) (workUnit_ok_engineOk hok.engine hu)
      (workUnit_ok_statsOk hb hok hu)
  · exact hs.inBounds_of_idle rfl rfl rfl rfl rfl

theorem command_inBounds {c : Word} {s t : State} (hok : s.reg.InBounds) (h : command c s = .next t) :
    t.reg.InBounds := by
  have hs := hok.stats.bounded
  cases hb : s.reg.busy
  · cases hd : decode c with
    | ok i =>
      rw [command_of_decode hd] at h
      by_cases hf : firstFailure i s.reg = .none
      · rw [exec_started hb hf] at h
        cases h
        exact Regs.started_inBounds hf hs
      · rw [exec_rejected hb hf] at h
        cases h
        exact hs.inBounds_of_idle hb rfl rfl rfl rfl
    | error e =>
      rw [command_of_decode_error hb hd] at h
      cases h
      exact hs.inBounds_of_idle hb rfl rfl rfl rfl
  · rw [command_busy hb] at h
    cases h
    exact ⟨hok.engine, hok.stats⟩

/-- The host writes neither BUSY nor a statistics register (R103, R408). -/
theorem Regs.writeReg_statistics (d : Word) (g : Regs) (r : Reg) :
    (g.writeReg d r).busy = g.busy ∧ (g.writeReg d r).stats = g.stats ∧ (g.writeReg d r).statN = g.statN ∧
    (g.writeReg d r).s1 = g.s1 ∧ (g.writeReg d r).q = g.q := by
  rcases g.writeReg_cases d r with e | e | e | e | e <;> rw [e]
  · cases r <;> exact ⟨rfl, rfl, rfl, rfl, rfl⟩
  all_goals exact ⟨rfl, rfl, rfl, rfl, rfl⟩

theorem Regs.writeReg_inBounds (d : Word) {g : Regs} (r : Reg) (h : g.InBounds) : (g.writeReg d r).InBounds := by
  cases hb : g.busy
  · obtain ⟨hbusy, hstats, hN, hs1, hq⟩ := g.writeReg_statistics d r
    exact h.stats.bounded.inBounds_of_idle (hbusy.trans hb) hstats hN hs1 hq
  · rw [Regs.writeReg_busy hb]
    exact ⟨h.engine, h.stats⟩

/-- Settles O37: the invariants are kept by each of the ways in which a step changes the registers. -/
theorem engineAndStatisticsStayInBounds : Obligations.EngineAndStatisticsStayInBounds := by
  intro s t he hs h
  obtain ⟨u, hreg, -, hu⟩ := step_reg_cases h
  have hok : u.reg.InBounds := hreg ▸ ⟨he, hs⟩
  have ht : t.reg.InBounds := by
    rcases hu with h | ⟨c, h⟩ | ⟨d, r, h⟩ | ⟨-, h⟩ | h
    · exact engineStep_inBounds hok h
    · exact command_inBounds hok h
    · exact h ▸ Regs.writeReg_inBounds d r hok
    · exact h ▸ ⟨by decide, by decide⟩
    · exact h ▸ hok
  exact ⟨ht.engine, ht.stats⟩

end Sys2Proof.Machine

/-! ## The weight normaliser and NORMALIZE (spec/41_normalize.md) -/

namespace Sys2Proof.Machine

/-! ### The floors, the deficits and the shortfall (R501, R502) -/

/-- T·x is the floored weight's share of S_w and the deficit (R501). -/
theorem Regs.floor_add_deficit (g : Regs) (x : Channel) :
    g.flooredWeight x * g.rawSum + g.deficit x = 256 * g.raw x :=
  Nat.div_add_mod' _ _

theorem Regs.deficit_lt {g : Regs} (hS : g.rawSum ≠ 0) (x : Channel) : g.deficit x < g.rawSum :=
  Nat.mod_lt _ (Nat.pos_of_ne_zero hS)

theorem Regs.raw_sum (g : Regs) : g.raw .red + g.raw .green + g.raw .blue = g.rawSum := rfl

/-- The three ideals sum to T, so the floors' shares and the deficits make up T·S_w (R500). -/
theorem Regs.floors_add_deficits (g : Regs) :
    (g.flooredWeight .red + g.flooredWeight .green + g.flooredWeight .blue) * g.rawSum +
      (g.deficit .red + g.deficit .green + g.deficit .blue) = 256 * g.rawSum := by
  have total := g.raw_sum
  have red := g.floor_add_deficit .red
  have green := g.floor_add_deficit .green
  have blue := g.floor_add_deficit .blue
  rw [Nat.add_mul, Nat.add_mul]
  omega

/-- The floors never sum above T (R502, R504). -/
theorem Regs.floors_add_shortfall {g : Regs} (hS : g.rawSum ≠ 0) :
    g.flooredWeight .red + g.flooredWeight .green + g.flooredWeight .blue + g.shortfall = 256 := by
  have share : (g.flooredWeight .red + g.flooredWeight .green + g.flooredWeight .blue) * g.rawSum ≤ 256 * g.rawSum :=
    g.floors_add_deficits ▸ Nat.le_add_right _ _
  exact Nat.add_sub_cancel' (Nat.le_of_mul_le_mul_right share (Nat.pos_of_ne_zero hS))

/-- D·S_w is the sum of the deficits (R502). -/
theorem Regs.shortfall_mul_rawSum {g : Regs} (hS : g.rawSum ≠ 0) :
    g.shortfall * g.rawSum = g.deficit .red + g.deficit .green + g.deficit .blue := by
  have shares := g.floors_add_deficits
  rw [← Regs.floors_add_shortfall hS, Nat.add_mul _ g.shortfall] at shares
  exact (Nat.add_left_cancel shares).symm

/-- Three deficits below S_w leave room for two nudges (R502). -/
theorem Regs.shortfall_le_two {g : Regs} (hS : g.rawSum ≠ 0) : g.shortfall ≤ 2 := by
  have bound : g.shortfall * g.rawSum < 3 * g.rawSum := by
    have red := Regs.deficit_lt hS .red
    have green := Regs.deficit_lt hS .green
    have blue := Regs.deficit_lt hS .blue
    rw [Regs.shortfall_mul_rawSum hS]
    omega
  exact Nat.le_of_lt_succ (Nat.lt_of_mul_lt_mul_right bound)

/-! ### The order of the nudges (R503) -/

/-- One channel comes before another: its key is larger, or the keys are equal and `tie` puts it first. -/
def Channel.Before (key : Channel → Nat) (tie : Channel → Channel → Prop) (x y : Channel) : Prop :=
  key y < key x ∨ (key y = key x ∧ tie x y)

/-- The order of ties: R, then B, then G (R503). -/
def Channel.TieBefore (x y : Channel) : Prop := x = .red ∨ (x = .blue ∧ y = .green)

section
variable (key : Channel → Nat)

theorem insertDescending_perm (x : Channel) (l : List Channel) : (insertDescending key x l).Perm (x :: l) := by
  induction l with
  | nil => exact .refl _
  | cons y rest ih =>
    unfold insertDescending
    split
    · exact (ih.cons y).trans (.swap x y rest)
    · exact .refl _

theorem stableSortDescending_perm (sorted l : List Channel) :
    (stableSortDescending key sorted l).Perm (sorted ++ l) := by
  induction l generalizing sorted with
  | nil => exact .of_eq (List.append_nil _).symm
  | cons x rest ih =>
    exact (ih _).trans (((insertDescending_perm key x sorted).append_right rest).trans List.perm_middle.symm)

variable {key} {tie : Channel → Channel → Prop}

/-- A channel that ties put behind every channel of an ordered list is inserted in its place. -/
theorem insertDescending_pairwise {x : Channel} {l : List Channel} (hl : l.Pairwise (Channel.Before key tie))
    (hx : ∀ y ∈ l, tie y x) : (insertDescending key x l).Pairwise (Channel.Before key tie) := by
  induction l with
  | nil => exact List.pairwise_singleton _ _
  | cons y rest ih =>
    obtain ⟨hy, hrest⟩ := List.pairwise_cons.mp hl
    obtain ⟨tie_y, tie_rest⟩ := List.forall_mem_cons.mp hx
    unfold insertDescending
    split
    case isTrue hle =>
      refine List.pairwise_cons.mpr ⟨fun z hz => ?_, ih hrest tie_rest⟩
      rcases List.mem_cons.mp ((insertDescending_perm key x rest).mem_iff.mp hz) with rfl | hz
      · exact (Nat.lt_or_eq_of_le hle).imp_right fun e => ⟨e, tie_y⟩
      · exact hy z hz
    case isFalse hlt =>
      refine List.pairwise_cons.mpr ⟨List.forall_mem_cons.mpr ⟨.inl (by omega), fun z hz => .inl ?_⟩, hl⟩
      rcases hy z hz with h | ⟨h, -⟩ <;> omega

/-- The sort is stable: equal keys stay in the order in which they came. -/
theorem stableSortDescending_pairwise {sorted l : List Channel} (hs : sorted.Pairwise (Channel.Before key tie))
    (hl : l.Pairwise tie) (hsl : ∀ x ∈ sorted, ∀ y ∈ l, tie x y) :
    (stableSortDescending key sorted l).Pairwise (Channel.Before key tie) := by
  induction l generalizing sorted with
  | nil => exact hs
  | cons x rest ih =>
    obtain ⟨hx, hrest⟩ := List.pairwise_cons.mp hl
    refine ih (insertDescending_pairwise hs fun y hy => hsl y hy x List.mem_cons_self) hrest fun y hy z hz => ?_
    rcases List.mem_cons.mp ((insertDescending_perm key x sorted).mem_iff.mp hy) with rfl | hy
    · exact hx z hz
    · exact hsl y hy z (List.mem_cons_of_mem x hz)

end

theorem Regs.nudgeOrder_perm (g : Regs) : g.nudgeOrder.Perm [.red, .blue, .green] :=
  stableSortDescending_perm g.deficit [] _

@[simp] theorem Regs.length_nudgeOrder (g : Regs) : g.nudgeOrder.length = 3 := g.nudgeOrder_perm.length_eq

theorem Regs.nudgeOrder_nodup (g : Regs) : g.nudgeOrder.Nodup := g.nudgeOrder_perm.nodup_iff.mpr (by decide)

@[simp] theorem Regs.mem_nudgeOrder (g : Regs) (x : Channel) : x ∈ g.nudgeOrder := by
  rw [g.nudgeOrder_perm.mem_iff]
  cases x <;> decide

/-- The order is by deficit, largest first, ties R, B, G (R503). -/
theorem Regs.nudgeOrder_pairwise (g : Regs) : g.nudgeOrder.Pairwise (Channel.Before g.deficit Channel.TieBefore) :=
  stableSortDescending_pairwise .nil (by simp [Channel.TieBefore]) (by simp)

/-- A sum along the order is the sum over the channels. -/
theorem Regs.sum_map_nudgeOrder (g : Regs) (f : Channel → Nat) :
    (g.nudgeOrder.map f).sum = f .red + f .green + f .blue := by
  rw [(g.nudgeOrder_perm.map f).sum_eq]
  simp only [List.map_cons, List.map_nil, List.sum_cons, List.sum_nil]
  omega

/-! ### The nudged channels -/

/-- The nudged channels: the first D of the order (R503). -/
def Regs.nudged (g : Regs) : List Channel := g.nudgeOrder.take g.shortfall

/-- The channels left at their floor (R503). -/
def Regs.unnudged (g : Regs) : List Channel := g.nudgeOrder.drop g.shortfall

theorem Regs.nudged_append_unnudged (g : Regs) : g.nudged ++ g.unnudged = g.nudgeOrder := List.take_append_drop _ _

theorem Regs.length_nudged {g : Regs} (hS : g.rawSum ≠ 0) : g.nudged.length = g.shortfall := by
  have := Regs.shortfall_le_two hS
  rw [Regs.nudged, List.length_take, g.length_nudgeOrder]
  omega

theorem Regs.mem_unnudged {g : Regs} {x : Channel} : x ∈ g.unnudged ↔ x ∉ g.nudged := by
  refine ⟨fun hu hn => List.disjoint_take_drop g.nudgeOrder_nodup le_rfl hn hu, fun hn => ?_⟩
  have hx := g.mem_nudgeOrder x
  rw [← g.nudged_append_unnudged, List.mem_append] at hx
  exact hx.resolve_left hn

/-- Nudges go to the largest deficits, ties in the order R, B, G (R503). -/
theorem Regs.nudged_before {g : Regs} {x y : Channel} (hx : x ∈ g.nudged) (hy : y ∉ g.nudged) :
    Channel.Before g.deficit Channel.TieBefore x y := by
  have sorted := g.nudgeOrder_pairwise
  rw [← g.nudged_append_unnudged, List.pairwise_append] at sorted
  exact sorted.2.2 x hx y (Regs.mem_unnudged.mpr hy)

/-- A sum over the channels, nudged and not. -/
theorem Regs.sum_nudged_add_unnudged (g : Regs) (f : Channel → Nat) :
    (g.nudged.map f).sum + (g.unnudged.map f).sum = f .red + f .green + f .blue := by
  rw [← g.sum_map_nudgeOrder, ← g.nudged_append_unnudged, List.map_append, List.sum_append]

/-- The deficits of the D nudged channels fall short of D·S_w, so some other channel's deficit is positive; a nudged one's is
no smaller (R505). -/
theorem Regs.deficit_pos_of_nudged {g : Regs} {x : Channel} (hS : g.rawSum ≠ 0) (hx : x ∈ g.nudged) :
    0 < g.deficit x := by
  have short : (g.nudged.map g.deficit).sum < g.shortfall * g.rawSum := by
    have below := List.sum_lt_sum_of_ne_nil (List.ne_nil_of_mem hx) g.deficit (fun _ => g.rawSum)
      fun y _ => Regs.deficit_lt hS y
    rwa [List.map_const', List.sum_replicate, Regs.length_nudged hS, smul_eq_mul] at below
  have left : (g.unnudged.map g.deficit).sum ≠ 0 := by
    have parts := g.sum_nudged_add_unnudged g.deficit
    rw [← Regs.shortfall_mul_rawSum hS] at parts
    omega
  obtain ⟨y, hy, hpos⟩ : ∃ y ∈ g.unnudged, g.deficit y ≠ 0 := by
    simpa [List.sum_eq_zero_iff] using left
  rcases Regs.nudged_before hx (Regs.mem_unnudged.mp hy) with h | ⟨h, -⟩ <;> omega

/-! ### The normalised weights (R503, R505) -/

theorem Regs.weight_eq (g : Regs) (x : Channel) :
    g.weight x = g.flooredWeight x + if x ∈ g.nudged then 1 else 0 := rfl

theorem Regs.weight_of_nudged {g : Regs} {x : Channel} (h : x ∈ g.nudged) : g.weight x = g.flooredWeight x + 1 := by
  rw [g.weight_eq, if_pos h]

theorem Regs.weight_of_not_nudged {g : Regs} {x : Channel} (h : x ∉ g.nudged) : g.weight x = g.flooredWeight x := by
  rw [g.weight_eq, if_neg h, Nat.add_zero]

/-- The nudges make up the shortfall (R503). -/
theorem Regs.sum_weight {g : Regs} (hS : g.rawSum ≠ 0) :
    g.weight .red + g.weight .green + g.weight .blue =
      g.flooredWeight .red + g.flooredWeight .green + g.flooredWeight .blue + g.shortfall := by
  have nudged : (g.nudged.map g.weight).sum = (g.nudged.map g.flooredWeight).sum + g.shortfall := by
    rw [List.map_congr_left fun x hx => Regs.weight_of_nudged hx, List.sum_map_add, List.map_const', List.sum_replicate,
      Regs.length_nudged hS, smul_eq_mul, Nat.mul_one]
  have unnudged : (g.unnudged.map g.weight).sum = (g.unnudged.map g.flooredWeight).sum := by
    rw [List.map_congr_left fun x hx => Regs.weight_of_not_nudged (Regs.mem_unnudged.mp hx)]
  rw [← g.sum_nudged_add_unnudged g.weight, ← g.sum_nudged_add_unnudged g.flooredWeight, nudged, unnudged,
    Nat.add_right_comm]

theorem Regs.sum_weight_eq {g : Regs} (hS : g.rawSum ≠ 0) : g.weight .red + g.weight .green + g.weight .blue = 256 :=
  (Regs.sum_weight hS).trans (Regs.floors_add_shortfall hS)

theorem Regs.weight_le {g : Regs} (hS : g.rawSum ≠ 0) (x : Channel) : g.weight x ≤ 256 := by
  have total := Regs.sum_weight_eq hS
  cases x <;> omega

/-- A weight is within 1 of its ideal T·x / S_w, in units of 1/S_w (R505). -/
theorem Regs.weight_near_ideal {g : Regs} (hS : g.rawSum ≠ 0) (x : Channel) :
    g.weight x * g.rawSum < g.rawSum + 256 * g.raw x ∧ 256 * g.raw x < (1 + g.weight x) * g.rawSum := by
  have ideal := g.floor_add_deficit x
  have below := Regs.deficit_lt hS x
  by_cases hx : x ∈ g.nudged
  · have positive := Regs.deficit_pos_of_nudged hS hx
    simp only [Regs.weight_of_nudged hx, Nat.add_mul, Nat.one_mul]
    omega
  · simp only [Regs.weight_of_not_nudged hx, Nat.add_mul, Nat.one_mul]
    omega

/-- A raw weight of 0 has floor 0 and deficit 0, and is not nudged (R505). -/
theorem Regs.weight_eq_zero {g : Regs} {x : Channel} (hS : g.rawSum ≠ 0) (hx : g.raw x = 0) : g.weight x = 0 := by
  have floor : g.flooredWeight x = 0 := by simp [Regs.flooredWeight, hx]
  have deficit : g.deficit x = 0 := by simp [Regs.deficit, hx]
  rw [Regs.weight_of_not_nudged fun h => (Regs.deficit_pos_of_nudged hS h).ne' deficit, floor]

/-- A weight fits the 9 bits of its register (R505). -/
theorem Regs.weight_toNat_ofNat {g : Regs} (hS : g.rawSum ≠ 0) (x : Channel) :
    (BitVec.ofNat 9 (g.weight x)).toNat = g.weight x := by
  have := Regs.weight_le hS x
  rw [BitVec.toNat_ofNat, Nat.mod_eq_of_lt (by omega)]

/-! ### Settled: NORMALIZE and its weights -/

/-- Settles O52: the floors and the deficits make up T·S_w, and each deficit is below S_w. -/
theorem shortfallIsAtMostTwo : Obligations.ShortfallIsAtMostTwo :=
  fun _ hS => ⟨Regs.shortfall_mul_rawSum hS, Regs.shortfall_le_two hS, Regs.floors_add_shortfall hS⟩

/-- Settles O53: the nudges make up the shortfall, and only a positive deficit is nudged. -/
theorem normalizedWeightsInvariant : Obligations.NormalizedWeightsInvariant := by
  refine fun g hS => ⟨Regs.sum_weight_eq hS, fun x => ⟨?_, Regs.weight_le hS x, Regs.weight_eq_zero hS⟩⟩
  have positive : (0 : ℚ) < g.rawSum := mod_cast Nat.pos_of_ne_zero hS
  rw [abs_sub_lt_iff, sub_lt_iff_lt_add, sub_lt_iff_lt_add, add_div' _ _ _ positive.ne', lt_div_iff₀ positive,
    div_lt_iff₀ positive, one_mul]
  exact_mod_cast Regs.weight_near_ideal hS x

/-- Settles O54: the nudged channels are the first D of a list that is sorted by deficit with ties in the order R, B, G. -/
theorem nudgesFollowDeficits : Obligations.NudgesFollowDeficits := by
  refine fun g hS => ⟨fun x => ?_, Regs.sum_weight hS, fun x y hx hy => Regs.nudged_before ?_ fun h => ?_⟩
  · by_cases h : x ∈ g.nudged
    · exact .inr (Regs.weight_of_nudged h)
    · exact .inl (Regs.weight_of_not_nudged h)
  · by_contra h
    rw [Regs.weight_of_not_nudged h] at hx
    omega
  · rw [Regs.weight_of_nudged h] at hy
    omega

/-- Settles O20: the one unit of NORMALIZE writes the weights, each of which fits its register, and ends the command. -/
theorem normalizeCompletes : Obligations.NormalizeCompletes := by
  intro s hb hS
  have passes : firstFailure .normalize s.reg = .none := firstFailure_eq_none_iff.mpr (by simp [hS])
  refine ⟨exec_started hb passes, _, by rw [engineRun_succ (engineStep_ok rfl rfl), engineRun_zero], rfl,
    Regs.weight_toNat_ofNat hS .red, Regs.weight_toNat_ofNat hS .green, Regs.weight_toNat_ofNat hS .blue⟩

end Sys2Proof.Machine

/-! ## The mixer and the brightness saturator (spec/42_mix.md R600 to R604) -/

namespace Sys2Proof.Machine

/-! ### The mixer and the saturator (R600 to R602) -/

/-- The mixer's sum is at most 255 times the sum of the weights (R600). -/
theorem Regs.mixSum_le (g : Regs) (r gr b : Byte) :
    g.mixSum r gr b ≤ (g.wR.toNat + g.wG.toNat + g.wB.toNat) * 255 := by
  have le255 (v : Byte) : v.toNat ≤ 255 := Nat.le_of_lt_succ v.isLt
  rw [Nat.add_mul, Nat.add_mul]
  exact Nat.add_le_add (Nat.add_le_add (Nat.mul_le_mul_left _ (le255 r)) (Nat.mul_le_mul_left _ (le255 gr)))
    (Nat.mul_le_mul_left _ (le255 b))

/-- The 8-bit clamp does not act on weights that sum to at most 256 (R602). -/
theorem Regs.gray_eq_of_weights_le {g : Regs} (h : g.wR.toNat + g.wG.toNat + g.wB.toNat ≤ 256) (r gr b : Byte) :
    g.gray r gr b = g.mixSum r gr b / 256 := by
  have bound := g.mixSum_le r gr b
  exact min_eq_right (by omega)

/-- The mixer's sum under the weights of NORMALIZE (R510, R600). -/
theorem Regs.normalized_mixSum {g : Regs} (hS : g.rawSum ≠ 0) (r gr b : Byte) :
    g.normalized.mixSum r gr b =
      g.weight .red * r.toNat + g.weight .green * gr.toNat + g.weight .blue * b.toNat := by
  simp only [Regs.mixSum, Regs.normalized_wR, Regs.normalized_wG, Regs.normalized_wB, Regs.weight_toNat_ofNat hS]

/-- The clamp does not act on the weights of NORMALIZE, which sum to 256 (R602). -/
theorem Regs.normalized_gray {g : Regs} (hS : g.rawSum ≠ 0) (r gr b : Byte) :
    g.normalized.gray r gr b = g.normalized.mixSum r gr b / 256 := by
  refine Regs.gray_eq_of_weights_le ?_ r gr b
  simp only [Regs.normalized_wR, Regs.normalized_wG, Regs.normalized_wB, Regs.weight_toNat_ofNat hS]
  exact (Regs.sum_weight_eq hS).le

/-- The clamp's value, as a number (R10). -/
theorem clampByte_toNat (x : Int) : ((clampByte x).toNat : Int) = min 255 (max 0 x) := by
  rw [clampByte, BitVec.toNat_ofNat]
  omega

/-! ### The gray against the exact weighted mean (R604) -/

/-- Floors of quotients that differ by at most 1 differ by at most 1. -/
theorem div_le_div_add_one {a b m n : Nat} (hm : 0 < m) (hn : 0 < n) (h : a * n ≤ b * m + m * n) : a / m ≤ b / n + 1 := by
  calc a / m = a * n / (m * n) := (Nat.mul_div_mul_right a m hn).symm
    _ ≤ (b + n) * m / (n * m) := by rw [Nat.mul_comm n m]; exact Nat.div_le_div_right (by rwa [Nat.add_mul, Nat.mul_comm n m])
    _ = b / n + 1 := by rw [Nat.mul_div_mul_right _ _ hm, Nat.add_div_right b hn]

/-- Deviations that cancel out move a sum of bytes by at most 255 times their bound: the positive ones are one alone, or sum to
the opposite of the third. -/
theorem weighted_cancelling_le {a b c M : Int} (hsum : a + b + c = 0) (ha : |a| ≤ M) (hb : |b| ≤ M) (hc : |c| ≤ M)
    (x y z : Byte) : a * x.toNat + b * y.toNat + c * z.toNat ≤ 255 * M := by
  have positive (d : Int) (v : Byte) : d * v.toNat ≤ 255 * max d 0 := by
    have hv : (v.toNat : Int) ≤ 255 := by have := v.isLt; omega
    calc d * v.toNat ≤ max d 0 * v.toNat := Int.mul_le_mul_of_nonneg_right (le_max_left d 0) (Int.natCast_nonneg _)
      _ ≤ max d 0 * 255 := Int.mul_le_mul_of_nonneg_left hv (le_max_right d 0)
      _ = 255 * max d 0 := Int.mul_comm _ _
  have hx := positive a x
  have hy := positive b y
  have hz := positive c z
  rw [abs_le] at ha hb hc
  have total : max a 0 + max b 0 + max c 0 ≤ M := by omega
  omega

/-- The deviation of a normalised weight from its ideal, in units of 1/S_w (R505). -/
def Regs.weightError (g : Regs) (x : Channel) : Int := g.weight x * g.rawSum - 256 * g.raw x

theorem Regs.abs_weightError_le {g : Regs} (hS : g.rawSum ≠ 0) (x : Channel) : |g.weightError x| ≤ g.rawSum := by
  obtain ⟨above, below⟩ := Regs.weight_near_ideal hS x
  zify at above below
  rw [Regs.weightError, abs_le]
  constructor <;> linarith

theorem Regs.weightErrors_cancel {g : Regs} (hS : g.rawSum ≠ 0) :
    g.weightError .red + g.weightError .green + g.weightError .blue = 0 := by
  have weights := Regs.sum_weight_eq hS
  have raws := g.raw_sum
  zify at weights raws
  simp only [Regs.weightError]
  linear_combination (g.rawSum : Int) * weights - 256 * raws

/-! ### Settled: the arithmetic of a pixel -/

/-- Settles O55: a sum of products of bytes is bounded by 255 times its weights, which the register widths and NORMALIZE
bound. -/
theorem pixelArithmeticSaturates : Obligations.PixelArithmeticSaturates := by
  refine ⟨fun g r gr b => ⟨rfl, ?_, rfl, fun h => Regs.gray_eq_of_weights_le h r gr b,
    fun hS => Regs.normalized_gray hS r gr b⟩, fun g v => clampByte_toNat _, fun g v h => ?_⟩
  · have bound := g.mixSum_le r gr b
    have hR := g.wR.isLt
    have hG := g.wG.isLt
    have hB := g.wB.isLt
    omega
  · have clamp : ((g.bright v.toNat).toNat : Int) = min 255 (max 0 (v.toNat + g.brBits.toInt)) := clampByte_toNat _
    rw [h, BitVec.toInt_zero] at clamp
    refine BitVec.eq_of_toNat_eq ?_
    have := v.isLt
    omega

/-- Settles O56: the weights' deviations from their ideals cancel out and are each below 1, so over the 256 of the mixer's
division they move the mean by less than 1. -/
theorem grayWithinOneOfExactMean : Obligations.GrayWithinOneOfExactMean := by
  intro g r gr b hS
  have cancel := Regs.weightErrors_cancel hS
  have bound := Regs.abs_weightError_le hS
  have above := weighted_cancelling_le cancel (bound _) (bound _) (bound _) r gr b
  have negated x : |-g.weightError x| ≤ g.rawSum := (abs_neg _).trans_le (bound x)
  have below := weighted_cancelling_le (by linarith) (negated .red) (negated .green) (negated .blue) r gr b
  simp only [Regs.weightError, Regs.raw] at above below
  have positive := Nat.pos_of_ne_zero hS
  rw [Regs.normalized_gray hS, Regs.normalized_mixSum hS]
  constructor
  · refine div_le_div_add_one (by decide) positive ?_
    zify
    linarith
  · refine div_le_div_add_one positive (by decide) ?_
    zify
    linarith

end Sys2Proof.Machine

/-! ## A phase that fills the destination region, and MIX (spec/42_mix.md R603, R605) -/

namespace Sys2Proof.Machine

/-! ### Regions, and what is granted over them -/

theorem inRegion_eq_false {base len a : Nat} : inRegion base len a = false ↔ a < base ∨ base + len ≤ a := by
  simp only [inRegion, decide_eq_false_iff_not]
  omega

theorem inRegion_mono {base len base' len' a : Nat} (hlo : base' ≤ base) (hhi : base + len ≤ base' + len')
    (h : inRegion base len a = true) : inRegion base' len' a = true := by
  simp only [inRegion, decide_eq_true_eq] at h ⊢
  omega

theorem Platform.serves.mono {p : Platform} {kind : AccessKind} {base len base' len' : Nat} (h : p.serves kind base len)
    (hlo : base ≤ base') (hhi : base' + len' ≤ base + len) : p.serves kind base' len' :=
  fun a ha => h a (inRegion_mono hlo hhi ha)

theorem Platform.uncontested.mono {p : Platform} {base len base' len' : Nat} (h : p.uncontested base len)
    (hlo : base ≤ base') (hhi : base' + len' ≤ base + len) : p.uncontested base' len' :=
  fun a ha => h a (inRegion_mono hlo hhi ha)

theorem Platform.grants.mono {p : Platform} {kind : AccessKind} {base len base' len' : Nat} (h : p.grants kind base len)
    (hlo : base ≤ base') (hhi : base' + len' ≤ base + len) : p.grants kind base' len' :=
  ⟨h.1.mono hlo hhi, h.2.mono hlo hhi⟩

theorem Platform.SameMemory.grants {p q : Platform} {kind : AccessKind} {base len : Nat} (h : p.SameMemory q)
    (hg : p.grants kind base len) : q.grants kind base len :=
  ⟨fun a ha => (h.busErr kind a).trans (hg.1 a ha), fun a ha => (h.anyValue a).trans (hg.2 a ha)⟩

section
variable {p q : Platform} {base len a : Nat}

/-- A granted read after other reads gives the byte that was in memory before them (R201). -/
theorem dmaRead_granted_after (same : p.SameMemory q) (hg : p.grants .read base len) (hlo : base ≤ a)
    (hhi : a < base + len) (hrange : base + len ≤ 2 ^ 32) :
    ∃ r, dmaRead a q = .ok (p.mem.read (BitVec.ofNat 32 a)) r ∧ p.SameMemory r ∧
      r.dmaLog = ⟨.read, BitVec.ofNat 32 a, true⟩ :: q.dmaLog := by
  have e := dmaRead_granted (same.grants hg) (decide_eq_true ⟨hlo, hhi⟩) (by omega)
  rw [same.mem] at e
  exact ⟨_, e, same.trans (Platform.note_sameMemory _ _ _ _), rfl⟩

/-- A granted write after reads writes its byte (R201). -/
theorem dmaWrite_granted_after (same : p.SameMemory q) (hg : p.grants .write base len) (hlo : base ≤ a)
    (hhi : a < base + len) (hrange : base + len ≤ 2 ^ 32) (hw : p.mem.wf) (v : Byte) :
    ∃ r, dmaWrite a v q = .ok () r ∧ p.SameBut (BitVec.ofNat 32 a) r ∧ r.mem.read (BitVec.ofNat 32 a) = v ∧
      r.dmaLog = ⟨.write, BitVec.ofNat 32 a, true⟩ :: q.dmaLog := by
  have e := dmaWrite_granted v (same.grants hg) (decide_eq_true ⟨hlo, hhi⟩) (by omega)
  exact ⟨_, e, same.then (dmaWrite_ok_frame e).2.2, Memory.read_write_same (by rwa [same.mem]) _ _, rfl⟩

end

/-! ### A region filled byte by byte -/

/-- From `p`, a phase has performed its first `n` units, each of which makes its own accesses and writes its own byte of the
region at `base`: `q` holds these bytes and no other change, and the platform answers as before. -/
structure Platform.Filled (p : Platform) (base : Nat) (byte : Nat → Byte) (accesses : Nat → List DmaAccess) (n : Nat)
    (q : Platform) : Prop where
  bytes : ∀ i < n, q.mem.regionByte base i = byte i
  other : ∀ a : Word, inRegion base n a.toNat = false → q.mem.read a = p.mem.read a
  wf : q.mem.wf
  busErrs : q.busErrs = p.busErrs
  raced : q.raced = p.raced
  unclean : q.unclean = p.unclean
  log : q.dmaLog = ((List.range n).flatMap accesses).reverse ++ p.dmaLog

section
variable {p q r : Platform} {base n : Nat} {byte : Nat → Byte} {accesses : Nat → List DmaAccess}

theorem Platform.filled_zero (hw : p.mem.wf) : p.Filled base byte accesses 0 p :=
  ⟨nofun, fun _ _ => rfl, hw, rfl, rfl, rfl, rfl⟩

/-- The next unit writes the next byte of the region, which none of those before it wrote. -/
theorem Platform.Filled.succ (h : p.Filled base byte accesses n q) (ha : base + n < 2 ^ 32)
    (same : q.SameBut (BitVec.ofNat 32 (base + n)) r) (written : r.mem.regionByte base n = byte n)
    (logged : r.dmaLog = (accesses n).reverse ++ q.dmaLog) : p.Filled base byte accesses (n + 1) r where
  bytes i hi := by
    obtain hi | rfl : i < n ∨ i = n := by omega
    · refine (same.read _ fun e => ?_).trans (h.bytes i hi)
      have := congrArg BitVec.toNat e
      simp only [BitVec.toNat_ofNat] at this
      omega
    · exact written
  other a houtside := by
    rw [inRegion_eq_false] at houtside
    refine (same.read a ?_).trans (h.other a (inRegion_eq_false.mpr (by omega)))
    rintro rfl
    rw [BitVec.toNat_ofNat] at houtside
    omega
  wf := same.wf h.wf
  busErrs := same.busErrs.trans h.busErrs
  raced := same.raced.trans h.raced
  unclean := same.unclean.trans h.unclean
  log := by
    rw [logged, h.log, List.range_succ, List.flatMap_append, List.reverse_append, List.flatMap_singleton,
      List.append_assoc]

theorem Platform.Filled.busErr_eq (h : p.Filled base byte accesses n q) (kind : AccessKind) (a : Word) :
    q.busErr kind a = p.busErr kind a := by
  rw [Platform.busErr, Platform.busErr, h.busErrs]

theorem Platform.Filled.serves {kind : AccessKind} {b len : Nat} (h : p.Filled base byte accesses n q)
    (hs : p.serves kind b len) : q.serves kind b len :=
  fun a ha => (h.busErr_eq kind a).trans (hs a ha)

theorem Platform.Filled.uncontested {b len : Nat} (h : p.Filled base byte accesses n q) (hc : p.uncontested b len) :
    q.uncontested b len := by
  intro a ha
  rw [Platform.anyValue, h.raced, h.unclean]
  exact hc a ha

theorem Platform.Filled.grants {kind : AccessKind} {b len : Nat} (h : p.Filled base byte accesses n q)
    (hg : p.grants kind b len) : q.grants kind b len :=
  ⟨h.serves hg.1, h.uncontested hg.2⟩

/-- A byte outside the region filled so far, as the units after it read it. -/
theorem Platform.Filled.regionByte_outside {b i : Nat} (h : p.Filled base byte accesses n q) (ha : b + i < 2 ^ 32)
    (houtside : b + i < base ∨ base + n ≤ b + i) : q.mem.regionByte b i = p.mem.regionByte b i := by
  refine h.other _ (inRegion_eq_false.mpr ?_)
  rwa [BitVec.toNat_ofNat, Nat.mod_eq_of_lt ha]

end

/-! ### Units in a row -/

/-- The registers with PROGRESS at unit `n` of the phase (R127). -/
def Regs.atUnit (n : Nat) (g : Regs) : Regs := { g with progress := BitVec.ofNat 32 n }

@[simp] theorem Regs.atUnit_src (n : Nat) (g : Regs) : (g.atUnit n).src = g.src := rfl
@[simp] theorem Regs.atUnit_dst (n : Nat) (g : Regs) : (g.atUnit n).dst = g.dst := rfl
@[simp] theorem Regs.atUnit_phase (n : Nat) (g : Regs) : (g.atUnit n).phase = g.phase := rfl

theorem Regs.atUnit_of_progress {g : Regs} {n : Nat} (h : g.progress = BitVec.ofNat 32 n) : g.atUnit n = g := by
  rw [Regs.atUnit, ← h]

theorem Regs.atUnit_progress_toNat (g : Regs) {n : Nat} (h : n < 2 ^ 32) : (g.atUnit n).progress.toNat = n :=
  Nat.mod_eq_of_lt h

theorem Regs.countUnit_atUnit (g : Regs) {n : Nat} (h : n < 2 ^ 32) : (g.atUnit n).countUnit = g.atUnit (n + 1) := by
  rw [Regs.countUnit, Regs.atUnit_progress_toNat g h]
  rfl

/-- Before the last unit of a phase, the next unit follows (R405). -/
theorem Regs.advance_atUnit {g : Regs} {n : Nat} (h : n + 1 < g.unitCount g.phase) :
    (g.atUnit n).advance = g.atUnit (n + 1) := by
  have hn : n < 2 ^ 32 := by have := g.unitCount_lt g.phase; omega
  rcases (g.atUnit n).advance_cases with ⟨-, e⟩ | ⟨hlast, -⟩ | ⟨hlast, -⟩
  · rw [e, Regs.countUnit_atUnit g hn]
  all_goals
    rw [Regs.atUnit_progress_toNat g hn] at hlast
    exact absurd hlast (Nat.not_le.mpr h)

/-- The last unit of a command's last phase ends the command (R406). -/
theorem Regs.advance_atUnit_last {g : Regs} {n : Nat} (h : n + 1 = g.unitCount g.phase) (hnext : g.nextPhase g.phase = none) :
    (g.atUnit n).advance = ((g.atUnit (n + 1)).leavePhase g.phase).complete := by
  have hn : n < 2 ^ 32 := by have := g.unitCount_lt g.phase; omega
  rcases (g.atUnit n).advance_cases with ⟨hmore, -⟩ | ⟨-, ph, hsome, -⟩ | ⟨-, -, e⟩
  · rw [Regs.atUnit_progress_toNat g hn] at hmore
    exact absurd h hmore.ne
  · cases hsome.symm.trans hnext
  · rw [e, Regs.countUnit_atUnit g hn]
    rfl

/-- A phase whose units leave the registers alone runs up to any unit of its own, each unit keeping what `R` says of the units
done so far (R405). -/
theorem engineRun_units {s : State} {R : Nat → Platform → Prop} {n : Nat} (hb : s.reg.busy = true)
    (hstart : s.reg.progress = 0#32) (hn : n < s.reg.unitCount s.reg.phase) (hzero : R 0 s.plat)
    (hunit : ∀ i < n, ∀ p, R i p → ∃ q, workUnit (s.reg.atUnit i) p = .ok (s.reg.atUnit i) q ∧ R (i + 1) q) :
    ∃ p, engineRun n s = .next { s with reg := s.reg.atUnit n, plat := p } ∧ R n p := by
  induction n with
  | zero => exact ⟨s.plat, by rw [Regs.atUnit_of_progress hstart]; rfl, hzero⟩
  | succ n ih =>
    obtain ⟨p, hrun, hp⟩ := ih (by omega) fun i hi => hunit i (by omega)
    obtain ⟨q, hu, hq⟩ := hunit n (by omega) p hp
    refine ⟨q, ?_, hq⟩
    rw [engineRun_add hrun, engineRun_succ (engineStep_ok (s := { s with reg := s.reg.atUnit n, plat := p }) hb hu),
      engineRun_zero, Regs.advance_atUnit hn]
    simp only [settleWhenIdle, Regs.atUnit, hb, if_true]

/-! ### The units of MIX -/

/-- The image of a MIX or a RUN that has passed its checks: at least one pixel, and regions in range and apart (R203, R213). -/
structure Regs.ImageOk (g : Regs) : Prop where
  pixels : 0 < g.pixels
  src : g.src.toNat + 3 * g.pixels ≤ 2 ^ 32
  dst : g.dst.toNat + g.pixels ≤ 2 ^ 32
  apart : regionsOverlap g.src.toNat (3 * g.pixels) g.dst.toNat g.pixels = false

theorem Regs.imageOk_of_passes {i : Instr} {g : Regs} (hi : i ∈ [.mix, .run]) (hf : firstFailure i g = .none) :
    g.ImageOk := by
  obtain ⟨-, -, hdim, -, hsrc, hdst, -, hapart⟩ := firstFailure_eq_none_iff.mp hf
  have himage : i ∈ [.mix, .sum, .remap, .run] := (by decide : [Instr.mix, .run] ⊆ [.mix, .sum, .remap, .run]) hi
  exact ⟨Regs.pixels_pos (hdim himage).1 (hdim himage).2, hsrc hi, hdst himage, hapart hi⟩

/-- The regions are apart: no destination byte of a pixel is a source byte (R1000). -/
theorem Regs.ImageOk.outside {g : Regs} (h : g.ImageOk) {n k : Nat} (hn : n ≤ g.pixels) (hk : k < 3 * g.pixels) :
    g.src.toNat + k < g.dst.toNat ∨ g.dst.toNat + n ≤ g.src.toNat + k := by
  have := h.apart
  simp only [regionsOverlap, decide_eq_false_iff_not] at this
  omega

/-- A granted MIX unit writes the pixel's byte and makes its four accesses (R603, R605). -/
theorem unitMix_granted {g : Regs} {p : Platform} {i : Nat} (hi : g.progress.toNat = i) (hw : p.mem.wf)
    (hsrc : g.src.toNat + 3 * i + 3 ≤ 2 ^ 32) (hdst : g.dst.toNat + i < 2 ^ 32)
    (hr : p.grants .read (g.src.toNat + 3 * i) 3) (hwr : p.grants .write (g.dst.toNat + i) 1) :
    ∃ q, unitMix g p = .ok g q ∧ p.SameBut (BitVec.ofNat 32 (g.dst.toNat + i)) q ∧
      q.mem.regionByte g.dst.toNat i = g.mixOutput p.mem i ∧ q.dmaLog = (g.mixAccesses i).reverse ++ p.dmaLog := by
  obtain ⟨_, red, same, log₁⟩ := dmaRead_granted_after (.refl p) hr le_rfl (by omega) hsrc
  obtain ⟨_, green, same, log₂⟩ := dmaRead_granted_after same hr (Nat.le_add_right _ 1) (by omega) hsrc
  obtain ⟨_, blue, same, log₃⟩ := dmaRead_granted_after same hr (Nat.le_add_right _ 2) (by omega) hsrc
  obtain ⟨q, write, same, byte, log₄⟩ :=
    dmaWrite_granted_after same hwr le_rfl (by omega) hdst hw (g.mixOutput p.mem i)
  refine ⟨q, ?_, same, byte, by rw [log₄, log₃, log₂, log₁]; rfl⟩
  rw [unitMix, hi, red, Dma.bind_ok, green, Dma.bind_ok, blue, Dma.bind_ok]
  exact congrArg (Dma.bind · fun _ p => .ok g p) write

/-- From `p`, MIX has done its first `n` pixels: their grays stand in the destination region, and nothing else has changed
(R603, R605). -/
abbrev Regs.Mixed (g : Regs) (p : Platform) (n : Nat) (q : Platform) : Prop :=
  p.Filled g.dst.toNat (g.mixOutput p.mem) g.mixAccesses n q

/-- The pixels done so far leave the source bytes of every pixel, which the destination region does not meet (R1000). -/
theorem Regs.Mixed.mixOutput_eq {g : Regs} {p q : Platform} {n i : Nat} (h : g.Mixed p n q) (hg : g.ImageOk)
    (hn : n ≤ g.pixels) (hi : i < g.pixels) : g.mixOutput q.mem i = g.mixOutput p.mem i := by
  have unchanged {k : Nat} (hk : k < 3 * g.pixels) : q.mem.regionByte g.src.toNat k = p.mem.regionByte g.src.toNat k :=
    h.regionByte_outside (by have := hg.src; omega) (hg.outside hn hk)
  simp only [Regs.mixOutput, unchanged (show 3 * i < _ by omega), unchanged (show 3 * i + 1 < _ by omega),
    unchanged (show 3 * i + 2 < _ by omega)]

/-- Work unit `n` of MIX does pixel `n` (R603). -/
theorem workUnit_mix {g : Regs} {p q : Platform} {n : Nat} (hp : g.phase = .mix) (hg : g.ImageOk) (hn : n < g.pixels)
    (hr : p.grants .read g.src.toNat (3 * (n + 1))) (hwr : p.grants .write g.dst.toNat (n + 1)) (h : g.Mixed p n q) :
    ∃ r, workUnit (g.atUnit n) q = .ok (g.atUnit n) r ∧ g.Mixed p (n + 1) r := by
  have hsrc := hg.src
  have hdst := hg.dst
  obtain ⟨r, hu, same, byte, log⟩ := unitMix_granted (g := g.atUnit n)
    (g.atUnit_progress_toNat (hn.trans g.pixels_lt)) h.wf (by rw [g.atUnit_src]; omega) (by rw [g.atUnit_dst]; omega)
    (h.grants (hr.mono (Nat.le_add_right _ _) (by rw [g.atUnit_src]; omega)))
    (h.grants (hwr.mono (Nat.le_add_right _ _) le_rfl))
  refine ⟨r, ?_, h.succ (by omega) same (byte.trans (h.mixOutput_eq hg hn.le hn)) log⟩
  rwa [workUnit, g.atUnit_phase, hp]

/-- Work unit `i` of MIX ends at the first source byte of pixel `i` that gets buserr, and has written nothing (R407, R603). -/
theorem unitMix_failsAt_source {g : Regs} {p : Platform} {i k : Nat} (hk : k < 3) (ha : g.src.toNat + 3 * i + k < 2 ^ 32)
    (hs : p.serves .read g.src.toNat (3 * i + k)) (hb : p.busErr .read (BitVec.ofNat 32 (g.src.toNat + 3 * i + k)) = true) :
    (unitMix (g.atUnit i) p).FailsAt (BitVec.ofNat 32 (g.src.toNat + 3 * i + k)) p.SameMemory := by
  have fails := unitMix_failsAt_read (g := g.atUnit i) (p := p) ha
  rw [Regs.atUnit_progress_toNat g (by omega), Regs.atUnit_src] at fails
  exact fails (Nat.le_add_right _ k) (Nat.add_lt_add_left hk _) (hs.mono (Nat.le_add_right _ _) (by omega)) hb

/-- The pixels before the last, done in as many turns (R405, R603). -/
theorem engineRun_mix_units {s : State} {n : Nat} (hb : s.reg.busy = true) (hp : s.reg.phase = .mix)
    (hstart : s.reg.progress = 0#32) (hg : s.reg.ImageOk) (hw : s.plat.mem.wf) (hn : n < s.reg.pixels)
    (hr : s.plat.grants .read s.reg.src.toNat (3 * n)) (hwr : s.plat.grants .write s.reg.dst.toNat n) :
    ∃ p, engineRun n s = .next { s with reg := s.reg.atUnit n, plat := p } ∧ s.reg.Mixed s.plat n p :=
  engineRun_units hb hstart (by rwa [hp]) (Platform.filled_zero hw) fun _ hi _ h =>
    workUnit_mix hp hg (by omega) (hr.mono le_rfl (by omega)) (hwr.mono le_rfl (by omega)) h

/-- The whole phase: every pixel is done, and the last unit ends the phase (R405, R603). -/
theorem engineRun_mix_phase {s : State} (hb : s.reg.busy = true) (hp : s.reg.phase = .mix)
    (hstart : s.reg.progress = 0#32) (hg : s.reg.ImageOk) (hw : s.plat.mem.wf)
    (hr : s.plat.grants .read s.reg.src.toNat (3 * s.reg.pixels))
    (hwr : s.plat.grants .write s.reg.dst.toNat s.reg.pixels) :
    ∃ p, engineRun s.reg.pixels s = .next { s with
        reg := (s.reg.atUnit (s.reg.pixels - 1)).advance
        plat := settleWhenIdle (s.reg.atUnit (s.reg.pixels - 1)).advance p } ∧
      s.reg.Mixed s.plat s.reg.pixels p := by
  obtain ⟨n, hn⟩ := Nat.exists_eq_add_one.mpr hg.pixels
  have hlt : n < s.reg.pixels := by omega
  rw [hn] at hr hwr ⊢
  obtain ⟨p, hrun, hmixed⟩ := engineRun_mix_units hb hp hstart hg hw hlt (hr.mono le_rfl (by omega))
    (hwr.mono le_rfl (by omega))
  obtain ⟨q, hu, hmixed⟩ := workUnit_mix hp hg hlt hr hwr hmixed
  refine ⟨q, ?_, hmixed⟩
  rw [engineRun_add hrun, engineRun_succ (engineStep_ok (s := { s with reg := s.reg.atUnit n, plat := p }) hb hu)]
  rfl

/-! ### The command MIX -/

/-- A command that passes its checks takes its turns from its start (R404, R405). -/
theorem issue_started {i : Instr} {s : State} (hb : s.reg.busy = false) (hf : firstFailure i s.reg = .none) (n : Nat) :
    issue i n s = engineRun n (s.started i) := by
  simp only [issue, exec_started hb hf]

theorem Regs.started_mix_imageOk {g : Regs} (hf : firstFailure .mix g = .none) : (g.started .mix).ImageOk := by
  obtain ⟨hpixels, hsrc, hdst, hapart⟩ := Regs.imageOk_of_passes (by decide) hf
  exact ⟨hpixels, hsrc, hdst, hapart⟩

/-- MIX with its accesses granted: N turns do every pixel and complete the command (R406, R603). -/
theorem engineRun_started_mix {s : State} (hf : firstFailure .mix s.reg = .none) (hw : s.plat.mem.wf)
    (hr : s.plat.grants .read s.reg.src.toNat (3 * s.reg.pixels))
    (hwr : s.plat.grants .write s.reg.dst.toNat s.reg.pixels) :
    ∃ p, engineRun s.reg.pixels (s.started .mix) = .next { s with
        reg := { s.reg.started .mix with busy := false, done := true, progress := BitVec.ofNat 32 s.reg.pixels }
        plat := p.settle } ∧
      s.reg.Mixed s.plat s.reg.pixels p := by
  have hg := Regs.started_mix_imageOk hf
  obtain ⟨p, hrun, hmixed⟩ := engineRun_mix_phase (s := s.started .mix) rfl rfl rfl hg hw hr hwr
  have last : (s.started .mix).reg.pixels - 1 + 1 = s.reg.pixels := Nat.sub_add_cancel hg.pixels
  have ends : ((s.started .mix).reg.atUnit ((s.started .mix).reg.pixels - 1)).advance =
      { s.reg.started .mix with busy := false, done := true, progress := BitVec.ofNat 32 s.reg.pixels } := by
    rw [Regs.advance_atUnit_last last rfl, last]
    rfl
  exact ⟨p, hrun.trans (by rw [ends]; rfl), hmixed⟩

/-! ### Settled: MIX -/

/-- Settles O21: each unit does its pixel, and the last ends the command. -/
theorem mixCompletes : Obligations.MixCompletes := by
  intro s hb hf hw hr hwr
  obtain ⟨p, hrun, hmixed⟩ := engineRun_started_mix hf hw hr hwr
  exact ⟨exec_started hb hf, _, hrun, rfl, hmixed.bytes, hmixed.other, rfl, rfl⟩

/-- Settles O46: each unit makes its pixel's four accesses, after those of the pixels before it. -/
theorem mixAccessOrder : Obligations.MixAccessOrder := by
  intro s u hb hf hw hr hwr h
  obtain ⟨p, hrun, hmixed⟩ := engineRun_started_mix hf hw hr hwr
  obtain rfl := Host.Outcome.next.inj (hrun.symm.trans ((issue_started hb hf _).symm.trans h))
  exact ⟨hmixed.log, hmixed.bytes⟩

/-- Settles O32: the units before the failing one do their pixels, and the failing one ends at its read. -/
theorem mixBusErrorKeepsEarlierPixels : Obligations.MixBusErrorKeepsEarlierPixels := by
  intro s i k hb hf hw hi hk hreads hsrc hwrites hdst herr
  have hg := Regs.started_mix_imageOk hf
  have reads : s.plat.grants .read s.reg.src.toNat (3 * i) :=
    ⟨hreads.mono le_rfl (by omega), hsrc.mono le_rfl (by omega)⟩
  have writes : s.plat.grants .write s.reg.dst.toNat i := ⟨hwrites, hdst.mono le_rfl (by omega)⟩
  obtain ⟨p, hrun, hmixed⟩ := engineRun_mix_units (s := s.started .mix) rfl rfl rfl hg hw hi reads writes
  have hrange : s.reg.src.toNat + 3 * s.reg.pixels ≤ 2 ^ 32 := hg.src
  have fails := unitMix_failsAt_source (g := s.reg.started .mix) (i := i) hk (show s.reg.src.toNat + 3 * i + k < _ by omega)
    (hmixed.serves hreads) ((hmixed.busErr_eq _ _).trans herr)
  obtain ⟨q, hfail, same⟩ := engineStep_failsAt
    (s := { s.started .mix with reg := (s.reg.started .mix).atUnit i, plat := p }) rfl fails
  have hissue := (issue_started hb hf (i + 1)).trans ((engineRun_add hrun).trans (engineRun_succ hfail))
  exact ⟨_, hissue, rfl, fun j hj => (congrArg (Memory.regionByte · _ _) same.mem).trans (hmixed.bytes j hj),
    fun a ha => (congrArg (Memory.read · a) same.mem).trans (hmixed.other a ha)⟩

end Sys2Proof.Machine

/-! ## A phase that accumulates over the destination region: SUM, VAR and their statistics (spec/43_statistics.md) -/

namespace Sys2Proof.Machine

/-! ### Sums over the samples of a region (R701) -/

section
variable (m : Memory) (base n ns s1 : Nat)

theorem Memory.sampleSum_eq : m.sampleSum base n = ∑ i ∈ Finset.range n, (m.regionByte base i).toNat := rfl

theorem Memory.deviationSum_eq :
    m.deviationSum base n ns s1 = ∑ i ∈ Finset.range n, squareOfDeviation ns s1 (m.regionByte base i).toNat := rfl

@[simp] theorem Memory.sampleSum_zero : m.sampleSum base 0 = 0 := rfl

@[simp] theorem Memory.deviationSum_zero : m.deviationSum base 0 ns s1 = 0 := rfl

theorem Memory.sampleSum_succ : m.sampleSum base (n + 1) = m.sampleSum base n + (m.regionByte base n).toNat :=
  List.sum_range_succ _ n

theorem Memory.deviationSum_succ : m.deviationSum base (n + 1) ns s1 =
    m.deviationSum base n ns s1 + squareOfDeviation ns s1 (m.regionByte base n).toNat :=
  List.sum_range_succ _ n

/-- A sample is at most 255 (R704). -/
theorem Memory.sampleSum_le : m.sampleSum base n ≤ 255 * n := by
  rw [Memory.sampleSum_eq, Nat.mul_comm]
  simpa using Finset.sum_le_card_nsmul (Finset.range n) _ 255 fun i _ => Nat.le_of_lt_succ (m.regionByte base i).isLt

end

/-- A pass of VAR adds at most 65025·STAT_N² to Q for each sample (R704). -/
theorem Memory.deviationSum_le (m : Memory) {g : Regs} (h : g.s1.toNat ≤ 255 * g.statN.toNat) (n : Nat) :
    m.deviationSum g.dst.toNat n g.statN.toNat g.s1.toNat ≤ 65025 * g.statN.toNat ^ 2 * n := by
  rw [Memory.deviationSum_eq, Nat.mul_comm]
  have each (i : Nat) : squareOfDeviation g.statN.toNat g.s1.toNat (m.regionByte g.dst.toNat i).toNat ≤
      65025 * g.statN.toNat ^ 2 := Regs.squaredDeviation_le h _
  simpa using Finset.sum_le_card_nsmul (Finset.range n) _ _ fun i _ => each i

/-! ### The bounds of the accumulators (R704, R125, R126) -/

/-- The largest S1 fits its 40 bits (R125). -/
theorem s1_le_of_n_le {s1 n : Nat} (h : s1 ≤ 255 * n) (hn : n ≤ 65535 ^ 2) : s1 ≤ 1095183237375 := by omega

/-- The largest Q fits 112 bits (R126). -/
theorem q_lt_of_n_le {q n : Nat} (h : q ≤ 65025 * n ^ 3) (hn : n ≤ 65535 ^ 2) : q < 2 ^ 112 :=
  calc q ≤ 65025 * (65535 ^ 2) ^ 3 := h.trans (Nat.mul_le_mul_left _ (Nat.pow_le_pow_left hn 3))
    _ < 2 ^ 112 := by norm_num

/-- STAT_Q3 holds bits 127 to 96 of Q (R126). -/
theorem Regs.readReg_statQ3_lt {g : Regs} (h : g.q.toNat < 2 ^ 112) : (g.readReg .statQ3).toNat < 2 ^ 16 := by
  rw [Regs.readReg, BitVec.extractLsb'_toNat, Nat.shiftRight_eq_div_pow]
  omega

/-- Settles O38: the bounds of R704 at the largest N. -/
theorem accumulatorsNeverOverflow : Obligations.AccumulatorsNeverOverflow := by
  rintro g ⟨-, hn, hs1, hq, -, -⟩
  have hq := q_lt_of_n_le hq hn
  exact ⟨hq, s1_le_of_n_le hs1 hn, Regs.readReg_statQ3_lt hq⟩

/-! ### Units that accumulate in the registers -/

/-- The unit at a count held in a register. -/
theorem Regs.atUnit_toNat (w : Word) (g : Regs) : g.atUnit w.toNat = { g with progress := w } := by
  rw [Regs.atUnit, BitVec.ofNat_toNat, BitVec.setWidth_eq]

section
variable {s : State} {G : Nat → Regs} {R : Nat → Platform → Prop} {n : Nat}
  (hb : ∀ i, (G i).busy = true) (hstart : s.reg = (G 0).atUnit 0) (hzero : R 0 s.plat)
  (hunit : ∀ i < n, ∀ p, R i p → ∃ q, workUnit ((G i).atUnit i) p = .ok ((G (i + 1)).atUnit i) q ∧ R (i + 1) q)
include hb hstart hzero hunit

/-- A phase whose registers after `i` units are `G i`, but for PROGRESS, runs up to any unit of its own, each unit keeping
what `R` says of the platform after the units done so far (R405). -/
theorem engineRun_pass (hn : ∀ i, n < (G i).unitCount (G i).phase) :
    ∃ p, engineRun n s = .next { s with reg := (G n).atUnit n, plat := p } ∧ R n p := by
  induction n with
  | zero => exact ⟨s.plat, by rw [← hstart]; rfl, hzero⟩
  | succ n ih =>
    obtain ⟨p, hrun, hp⟩ := ih (fun i hi => hunit i (by omega)) fun i => (Nat.lt_succ_self n).trans (hn i)
    obtain ⟨q, hu, hq⟩ := hunit n (Nat.lt_succ_self n) p hp
    refine ⟨q, ?_, hq⟩
    rw [engineRun_add hrun, engineRun_succ (engineStep_ok (s := { s with reg := (G n).atUnit n, plat := p }) (hb n) hu),
      engineRun_zero, Regs.advance_atUnit (hn (n + 1))]
    simp only [settleWhenIdle, Regs.atUnit, hb, if_true]

/-- The last unit of such a phase ends it (R405). -/
theorem engineRun_pass_phase (hpos : 0 < n) (hn : ∀ i, (G i).unitCount (G i).phase = n) :
    ∃ p, engineRun n s = .next { s with
        reg := ((G n).atUnit (n - 1)).advance, plat := settleWhenIdle ((G n).atUnit (n - 1)).advance p } ∧ R n p := by
  obtain ⟨n, rfl⟩ := Nat.exists_eq_add_one.mpr hpos
  obtain ⟨p, hrun, hp⟩ := engineRun_pass hb hstart hzero (fun i hi => hunit i (by omega))
    fun i => (Nat.lt_succ_self n).trans_eq (hn i).symm
  obtain ⟨q, hu, hq⟩ := hunit n (Nat.lt_succ_self n) p hp
  refine ⟨q, ?_, hq⟩
  rw [engineRun_add hrun, engineRun_succ (engineStep_ok (s := { s with reg := (G n).atUnit n, plat := p }) (hb n) hu)]
  rfl

end

/-- Where the phase that ends is the command's last, the command completes and its races are over (R406, R223). -/
theorem engineRun_completes {s : State} {g : Regs} {p : Platform} {n k : Nat} (hpos : 0 < n)
    (hn : g.unitCount g.phase = n) (hnext : g.nextPhase g.phase = none)
    (hrun : engineRun k s = .next { s with
      reg := (g.atUnit (n - 1)).advance, plat := settleWhenIdle (g.atUnit (n - 1)).advance p }) :
    engineRun k s = .next { s with reg := ((g.atUnit n).leavePhase g.phase).complete, plat := p.settle } := by
  have last : n - 1 + 1 = n := Nat.sub_add_cancel hpos
  rw [hrun, Regs.advance_atUnit_last (last.trans hn.symm) hnext, last]
  rfl

/-- Unit `n` of SUM, VAR or REMAP that gets buserr at its read of byte `n` ends the command there (R407). -/
theorem engineStep_failsAt_dst_read {s : State} {g : Regs} {p : Platform} {n : Nat} (hb : g.busy = true)
    (hp : g.phase ∈ [.sum, .var, .remap]) (ha : g.dst.toNat + n < 2 ^ 32)
    (herr : p.busErr .read (BitVec.ofNat 32 (g.dst.toNat + n)) = true) :
    ∃ q, engineStep { s with reg := g.atUnit n, plat := p } = .next { s with
        reg := (g.atUnit n).busFault (BitVec.ofNat 32 (g.dst.toNat + n)), plat := q.settle } ∧ p.SameMemory q := by
  have fails := workUnit_failsAt_dst_read (g := g.atUnit n) (p := p) hp
  rw [Regs.unitDst, g.atUnit_progress_toNat (by omega), g.atUnit_dst] at fails
  exact engineStep_failsAt (s := { s with reg := g.atUnit n, plat := p }) hb (fails ha herr)

/-! ### The units of SUM and VAR -/

/-- The registers with S1 the sum of the first `n` destination bytes of `m` (R710). -/
def Regs.summed (m : Memory) (n : Nat) (g : Regs) : Regs := { g with s1 := BitVec.ofNat 40 (m.sampleSum g.dst.toNat n) }

/-- The registers with Q the deviation sum of the first `n` destination bytes of `m` (R720). -/
def Regs.deviated (m : Memory) (n : Nat) (g : Regs) : Regs :=
  { g with q := BitVec.ofNat 128 (m.deviationSum g.dst.toNat n g.statN.toNat g.s1.toNat) }

theorem Regs.eq_summed_zero {g : Regs} (h : g.s1 = 0#40) (hp : g.progress = 0#32) (m : Memory) :
    g = (g.summed m 0).atUnit 0 := by
  rw [Regs.summed, Regs.atUnit, Memory.sampleSum_zero, ← h, ← hp]

theorem Regs.eq_deviated_zero {g : Regs} (h : g.q = 0#128) (hp : g.progress = 0#32) (m : Memory) :
    g = (g.deviated m 0).atUnit 0 := by
  rw [Regs.deviated, Regs.atUnit, Memory.deviationSum_zero, ← h, ← hp]

/-- An accumulator that wraps has lost nothing of the sum modulo its width. -/
theorem ofNat_toNat_ofNat_add (w x y : Nat) : BitVec.ofNat w ((BitVec.ofNat w x).toNat + y) = BitVec.ofNat w (x + y) := by
  rw [BitVec.ofNat_add, BitVec.ofNat_add, BitVec.ofNat_toNat, BitVec.setWidth_eq]

theorem Regs.addSample_summed (m : Memory) (n : Nat) (g : Regs) :
    ((g.summed m n).atUnit n).addSample (m.regionByte g.dst.toNat n) = (g.summed m (n + 1)).atUnit n := by
  rw [Regs.summed, Regs.summed, Memory.sampleSum_succ, ← ofNat_toNat_ofNat_add]
  rfl

theorem Regs.addDeviation_deviated (m : Memory) (n : Nat) (g : Regs) :
    ((g.deviated m n).atUnit n).addDeviation (m.regionByte g.dst.toNat n) = (g.deviated m (n + 1)).atUnit n := by
  rw [Regs.deviated, Regs.deviated, Memory.deviationSum_succ, ← ofNat_toNat_ofNat_add]
  rfl

theorem workUnit_sum_of_read {g : Regs} {p q : Platform} {v : Byte} (hp : g.phase = .sum)
    (h : dmaRead (g.dst.toNat + g.progress.toNat) p = .ok v q) : workUnit g p = .ok (g.addSample v) q := by
  simp only [workUnit, hp, unitSum, h, Dma.bind_ok]

theorem workUnit_var_of_read {g : Regs} {p q : Platform} {v : Byte} (hp : g.phase = .var)
    (h : dmaRead (g.dst.toNat + g.progress.toNat) p = .ok v q) : workUnit g p = .ok (g.addDeviation v) q := by
  simp only [workUnit, hp, unitVar, h, Dma.bind_ok]

section
variable {g : Regs} {p q : Platform} {n len : Nat}

/-- Unit `n` of a pass reads byte `n` of the destination region (R204). -/
theorem dmaRead_atUnit (ha : g.dst.toNat + len ≤ 2 ^ 32) (hr : p.grants .read g.dst.toNat len) (hn : n < len)
    (hlen : len < 2 ^ 32) (same : p.SameMemory q) :
    ∃ r, dmaRead ((g.atUnit n).dst.toNat + (g.atUnit n).progress.toNat) q = .ok (p.mem.regionByte g.dst.toNat n) r ∧
      p.SameMemory r := by
  obtain ⟨r, hread, hsame, -⟩ :=
    dmaRead_granted_after (a := g.dst.toNat + n) same hr (Nat.le_add_right _ n) (Nat.add_lt_add_left hn _) ha
  exact ⟨r, by rwa [g.atUnit_dst, g.atUnit_progress_toNat (hn.trans hlen)], hsame⟩

/-- Work unit `n` of SUM adds byte `n` to S1 (R710). -/
theorem workUnit_sum (hp : g.phase = .sum) (ha : g.dst.toNat + len ≤ 2 ^ 32) (hr : p.grants .read g.dst.toNat len)
    (hn : n < len) (hlen : len < 2 ^ 32) (same : p.SameMemory q) :
    ∃ r, workUnit ((g.summed p.mem n).atUnit n) q = .ok ((g.summed p.mem (n + 1)).atUnit n) r ∧ p.SameMemory r := by
  obtain ⟨r, hread, hsame⟩ := dmaRead_atUnit (g := g.summed p.mem n) ha hr hn hlen same
  have hunit := workUnit_sum_of_read (g := (g.summed p.mem n).atUnit n) hp hread
  exact ⟨r, hunit.trans (congrArg (Dma.ok · r) (Regs.addSample_summed p.mem n g)), hsame⟩

/-- Work unit `n` of VAR adds the squared deviation of byte `n` to Q (R720). -/
theorem workUnit_var (hp : g.phase = .var) (ha : g.dst.toNat + len ≤ 2 ^ 32) (hr : p.grants .read g.dst.toNat len)
    (hn : n < len) (hlen : len < 2 ^ 32) (same : p.SameMemory q) :
    ∃ r, workUnit ((g.deviated p.mem n).atUnit n) q = .ok ((g.deviated p.mem (n + 1)).atUnit n) r ∧ p.SameMemory r := by
  obtain ⟨r, hread, hsame⟩ := dmaRead_atUnit (g := g.deviated p.mem n) ha hr hn hlen same
  have hunit := workUnit_var_of_read (g := (g.deviated p.mem n).atUnit n) hp hread
  exact ⟨r, hunit.trans (congrArg (Dma.ok · r) (Regs.addDeviation_deviated p.mem n g)), hsame⟩

end

/-! ### The phases SUM and VAR -/

section
variable {s : State} (hb : s.reg.busy = true) (hstart : s.reg.progress = 0#32)
include hb hstart

/-- The samples before the last, added to S1 in as many turns (R405, R710). -/
theorem engineRun_sum_units {n : Nat} (hp : s.reg.phase = .sum) (hs1 : s.reg.s1 = 0#40) (hn : n < s.reg.pixels)
    (ha : s.reg.dst.toNat + n ≤ 2 ^ 32) (hr : s.plat.grants .read s.reg.dst.toNat n) :
    ∃ p, engineRun n s = .next { s with reg := (s.reg.summed s.plat.mem n).atUnit n, plat := p } ∧
      s.plat.SameMemory p :=
  engineRun_pass (G := (s.reg.summed s.plat.mem ·)) (R := fun _ => s.plat.SameMemory) (fun _ => hb)
    (Regs.eq_summed_zero hs1 hstart _) (.refl _) (fun _ hi _ => workUnit_sum hp ha hr hi (hn.trans s.reg.pixels_lt))
    fun _ => by simpa only [Regs.summed, hp]

/-- The whole phase SUM: every sample is added, and the last unit ends the phase (R405, R710). -/
theorem engineRun_sum_phase (hp : s.reg.phase = .sum) (hs1 : s.reg.s1 = 0#40) (hpos : 0 < s.reg.pixels)
    (ha : s.reg.dst.toNat + s.reg.pixels ≤ 2 ^ 32) (hr : s.plat.grants .read s.reg.dst.toNat s.reg.pixels) :
    ∃ p, engineRun s.reg.pixels s = .next { s with
        reg := ((s.reg.summed s.plat.mem s.reg.pixels).atUnit (s.reg.pixels - 1)).advance
        plat := settleWhenIdle ((s.reg.summed s.plat.mem s.reg.pixels).atUnit (s.reg.pixels - 1)).advance p } ∧
      s.plat.SameMemory p :=
  engineRun_pass_phase (G := (s.reg.summed s.plat.mem ·)) (R := fun _ => s.plat.SameMemory) (fun _ => hb)
    (Regs.eq_summed_zero hs1 hstart _) (.refl _) (fun _ hi _ => workUnit_sum hp ha hr hi s.reg.pixels_lt) hpos
    fun _ => by simp only [Regs.summed, hp]; rfl

/-- The whole phase VAR: every squared deviation is added, and the last unit ends the phase (R405, R720). -/
theorem engineRun_var_phase (hp : s.reg.phase = .var) (hq : s.reg.q = 0#128) (hpos : 0 < s.reg.statN.toNat)
    (ha : s.reg.dst.toNat + s.reg.statN.toNat ≤ 2 ^ 32)
    (hr : s.plat.grants .read s.reg.dst.toNat s.reg.statN.toNat) :
    ∃ p, engineRun s.reg.statN.toNat s = .next { s with
        reg := ((s.reg.deviated s.plat.mem s.reg.statN.toNat).atUnit (s.reg.statN.toNat - 1)).advance
        plat := settleWhenIdle
          ((s.reg.deviated s.plat.mem s.reg.statN.toNat).atUnit (s.reg.statN.toNat - 1)).advance p } ∧
      s.plat.SameMemory p :=
  engineRun_pass_phase (G := (s.reg.deviated s.plat.mem ·)) (R := fun _ => s.plat.SameMemory) (fun _ => hb)
    (Regs.eq_deviated_zero hq hstart _) (.refl _) (fun _ hi _ => workUnit_var hp ha hr hi s.reg.statN.isLt) hpos
    fun _ => by simp only [Regs.deviated, hp]; rfl

end

/-! ### The accumulators at the end of a pass -/

/-- S1 has not wrapped over the samples of an image (R704). -/
theorem Regs.summed_s1_toNat (m : Memory) {n : Nat} {g : Regs} (hn : n ≤ g.pixels) :
    (g.summed m n).s1.toNat = m.sampleSum g.dst.toNat n := by
  have := s1_le_of_n_le (m.sampleSum_le g.dst.toNat n) (hn.trans g.pixels_le)
  exact Nat.mod_eq_of_lt (by omega)

/-- Q has not wrapped over the samples that STAT_N counts (R704). -/
theorem Regs.deviated_q_toNat (m : Memory) {g : Regs} (hN : g.statN.toNat ≤ 65535 ^ 2)
    (hs1 : g.s1.toNat ≤ 255 * g.statN.toNat) :
    (g.deviated m g.statN.toNat).q.toNat =
      m.deviationSum g.dst.toNat g.statN.toNat g.statN.toNat g.s1.toNat := by
  have := q_lt_of_n_le ((m.deviationSum_le hs1 _).trans_eq (by ring)) hN
  exact Nat.mod_eq_of_lt (by omega)

/-! ### The commands SUM and VAR -/

/-- A command over an image that has passed its checks has at least one pixel and its destination region in range
(R1000). -/
theorem Regs.dst_of_passes {i : Instr} {g : Regs} (hi : i ∈ [.mix, .sum, .remap, .run])
    (hf : firstFailure i g = .none) : 0 < g.pixels ∧ g.dst.toNat + g.pixels ≤ 2 ^ 32 := by
  obtain ⟨-, -, hdim, -, -, hdst, -, -⟩ := firstFailure_eq_none_iff.mp hf
  exact ⟨Regs.pixels_pos (hdim hi).1 (hdim hi).2, hdst hi⟩

/-- Settles O22: each unit adds its sample, and the last ends the command with STATS = 1. -/
theorem sumCompletes : Obligations.SumCompletes := by
  intro s hb hf hr
  obtain ⟨hpos, ha⟩ := Regs.dst_of_passes (by decide) hf
  obtain ⟨p, hrun, same⟩ := engineRun_sum_phase (s := s.started .sum) rfl rfl rfl rfl hpos ha hr
  have hS1 := Regs.summed_s1_toNat s.plat.mem (g := s.reg.started .sum) le_rfl
  exact ⟨exec_started hb hf, _, engineRun_completes hpos rfl rfl hrun, rfl, hS1, Nat.mod_eq_of_lt s.reg.pixels_lt, rfl,
    same.mem⟩

/-- Settles O23: each unit adds its squared deviation, and the last ends the command with STATS = 2. -/
theorem varCompletes : Obligations.VarCompletes := by
  intro s hb hf hok hr
  obtain ⟨hstats, -, -, -, -, -, ha, -⟩ := firstFailure_eq_none_iff.mp hf
  obtain ⟨hcounted, hN, hs1, -, -, -⟩ := hok
  have hpos := hcounted (hstats rfl)
  obtain ⟨p, hrun, same⟩ := engineRun_var_phase (s := s.started .var) rfl rfl rfl rfl hpos (ha rfl) hr
  have hQ := Regs.deviated_q_toNat s.plat.mem (g := s.reg.started .var) hN hs1
  have hdone := engineRun_completes hpos rfl rfl hrun
  rw [Regs.atUnit_toNat] at hdone
  exact ⟨exec_started hb hf, _, hdone, rfl, hQ, same.mem⟩

/-- Settles O33: the units before the failing one add their samples, and the failing one ends at its read. -/
theorem sumBusErrorKeepsPartialSum : Obligations.SumBusErrorKeepsPartialSum := by
  intro s i hb hf hi hserved hquiet herr
  obtain ⟨-, ha⟩ := Regs.dst_of_passes (by decide) hf
  have reads : s.plat.grants .read s.reg.dst.toNat i := ⟨hserved, hquiet.mono le_rfl (by omega)⟩
  have hi' : s.reg.dst.toNat + i < 2 ^ 32 := by omega
  obtain ⟨p, hrun, same⟩ := engineRun_sum_units (s := s.started .sum) rfl rfl rfl rfl hi hi'.le reads
  obtain ⟨q, hfail, same'⟩ := engineStep_failsAt_dst_read (s := s.started .sum) (p := p) (n := i)
    (g := (s.reg.started .sum).summed s.plat.mem i) rfl (List.mem_cons_self ..) hi'
    ((same.busErr _ _).trans herr)
  have hissue := (issue_started hb hf (i + 1)).trans ((engineRun_add hrun).trans (engineRun_succ hfail))
  exact ⟨_, hissue, rfl, Regs.summed_s1_toNat s.plat.mem (g := s.reg.started .sum) hi.le, (same.trans same').mem⟩

/-! ### Variance (R701, R703) -/

theorem squareOfDeviation_cast (ns s1 v : Nat) : (squareOfDeviation ns s1 v : ℚ) = ((ns : ℚ) * v - s1) ^ 2 := by
  have h : ((squareOfDeviation ns s1 v : Nat) : Int) = ((ns : Int) * v - s1) ^ 2 := Int.toNat_of_nonneg (sq_nonneg _)
  exact_mod_cast congrArg (Int.cast : Int → ℚ) h

theorem squareOfDeviation_eq_zero_iff {ns s1 v : Nat} : squareOfDeviation ns s1 v = 0 ↔ ns * v = s1 := by
  rw [← Nat.cast_eq_zero (R := ℚ), squareOfDeviation_cast, sq_eq_zero_iff, sub_eq_zero]
  norm_cast

/-- A deviation scaled by N_s, as a share of N_s³, is the deviation from the mean S1 / N_s, as a share of N_s (R701). -/
theorem squareOfDeviation_div {n : Nat} (hn : 0 < n) (s1 v : Nat) :
    (squareOfDeviation n s1 v : ℚ) / (n : ℚ) ^ 3 = ((v : ℚ) - (s1 : ℚ) / n) ^ 2 / n := by
  rw [squareOfDeviation_cast]
  field_simp

section
variable {m : Memory} {base n : Nat}

theorem Memory.deviationSum_div (hn : 0 < n) (s1 : Nat) :
    (m.deviationSum base n n s1 : ℚ) / (n : ℚ) ^ 3 =
      ((List.range n).map fun i => (((m.regionByte base i).toNat : ℚ) - (s1 : ℚ) / n) ^ 2).sum / n := by
  rw [Memory.deviationSum_eq, Nat.cast_sum, Finset.sum_div]
  simp only [squareOfDeviation_div hn]
  rw [← Finset.sum_div]
  rfl

theorem Memory.deviationSum_eq_zero_iff {ns s1 : Nat} :
    m.deviationSum base n ns s1 = 0 ↔ ∀ i < n, ns * (m.regionByte base i).toNat = s1 := by
  simp only [Memory.deviationSum_eq, Finset.sum_eq_zero_iff, Finset.mem_range, squareOfDeviation_eq_zero_iff]

theorem Memory.sampleSum_of_equal {v : Byte} (h : ∀ i < n, m.regionByte base i = v) :
    m.sampleSum base n = n * v.toNat := by
  rw [Memory.sampleSum_eq, Finset.sum_congr rfl fun i hi => congrArg BitVec.toNat (h i (Finset.mem_range.mp hi)),
    Finset.sum_const, Finset.card_range, smul_eq_mul]

/-- The deviations about the sum vanish exactly where the samples are equal (R703). -/
theorem Memory.deviationSum_sampleSum_eq_zero_iff (hn : 0 < n) : m.deviationSum base n n (m.sampleSum base n) = 0 ↔
    ∀ i j, i < n → j < n → m.regionByte base i = m.regionByte base j := by
  rw [Memory.deviationSum_eq_zero_iff]
  constructor
  · intro h i j hi hj
    exact BitVec.eq_of_toNat_eq (Nat.eq_of_mul_eq_mul_left hn ((h i hi).trans (h j hj).symm))
  · intro h i hi
    exact (Memory.sampleSum_of_equal fun j hj => h j i hj hi).symm

end

/-- Settles O57: each scaled deviation is N_s times the deviation from the mean. -/
theorem deviationSumIsPopulationVariance : Obligations.DeviationSumIsPopulationVariance := by
  intro m base n hn
  have hn' : (n : ℚ) ≠ 0 := Nat.cast_ne_zero.mpr hn.ne'
  refine ⟨Memory.deviationSum_div hn _, ?_, Memory.deviationSum_sampleSum_eq_zero_iff hn, fun hq => ?_⟩
  · rw [div_eq_zero_iff, or_iff_left (pow_ne_zero 3 hn'), Nat.cast_eq_zero]
  · have hmean := Memory.deviationSum_eq_zero_iff.mp hq 0 hn
    refine ⟨hmean.symm, ?_⟩
    rw [← hmean, Nat.cast_mul, mul_div_cancel_left₀ _ hn']

end Sys2Proof.Machine

/-! ## The contrast law (spec/44_contrast.md R800 to R805) -/

namespace Sys2Proof.Machine

/-! ### The real law (R800) -/

/-- σ, the standard deviation (R701, R800). -/
noncomputable def contrastSigma (n q : Nat) : ℝ := Real.sqrt ((q : ℝ) / (n : ℝ) ^ 3)

/-- k, the rescale factor (R800). -/
noncomputable def contrastSlope (n q : Nat) (c : Int) : ℝ := if q = 0 then 0 else (c : ℝ) / contrastSigma n q

/-- X(v), as an affine function about the mean S1 / N (R800, R803). -/
noncomputable def contrastValue (n s1 q : Nat) (c : Int) (v : Nat) : ℝ :=
  (s1 : ℝ) / n + contrastSlope n q c * ((v : ℝ) - (s1 : ℝ) / n)

/-- clamp(⌊x⌋, 0, 255) (R800). -/
noncomputable def clampFloor (x : ℝ) : Int := min 255 (max 0 ⌊x⌋)

theorem clampFloor_mono : Monotone clampFloor :=
  fun _ _ h => min_le_min_left 255 (max_le_max_left 0 (Int.floor_mono h))

theorem clampFloor_natCast {m : Nat} (h : m ≤ 255) : clampFloor m = m := by
  rw [clampFloor, Int.floor_natCast]
  omega

section
variable {n q : Nat} (hn : 0 < n)
include hn

theorem contrastSigma_pos (hq : 0 < q) : 0 < contrastSigma n q := by
  unfold contrastSigma
  positivity

theorem cube_mul_contrastSigma_sq : (n : ℝ) ^ 3 * contrastSigma n q ^ 2 = q := by
  rw [contrastSigma, Real.sq_sqrt (by positivity), mul_div_cancel₀ _ (by positivity)]

/-- Q·a² is N³ times the square of a·σ (R802, step 5). -/
theorem q_mul_sq_eq_cube_mul_sq (a : Int) :
    (((q : Int) * a ^ 2 : Int) : ℝ) = (n : ℝ) ^ 3 * ((a : ℝ) * contrastSigma n q) ^ 2 := by
  rw [mul_pow, mul_left_comm, cube_mul_contrastSigma_sq hn, mul_comm]
  push_cast
  rfl

/-- The comparisons of squares in LE are those of a·σ with b by absolute value (R802, step 5). -/
theorem contrastSquares_le_iff_abs_le (a b : Int) :
    ((q : Int) * a ^ 2 ≤ (n : Int) ^ 3 * b ^ 2 ↔ |(a : ℝ) * contrastSigma n q| ≤ |(b : ℝ)|) ∧
    ((n : Int) ^ 3 * b ^ 2 ≤ (q : Int) * a ^ 2 ↔ |(b : ℝ)| ≤ |(a : ℝ) * contrastSigma n q|) := by
  have cube : (0 : ℝ) < (n : ℝ) ^ 3 := by positivity
  have right : (((n : Int) ^ 3 * b ^ 2 : Int) : ℝ) = (n : ℝ) ^ 3 * (b : ℝ) ^ 2 := by push_cast; rfl
  rw [← Int.cast_le (R := ℝ), ← Int.cast_le (R := ℝ), right, q_mul_sq_eq_cube_mul_sq hn, mul_le_mul_iff_right₀ cube,
    mul_le_mul_iff_right₀ cube, sq_le_sq, sq_le_sq]
  exact ⟨Iff.rfl, Iff.rfl⟩

end

/-! ### LE decides the comparison with σ (R802) -/

section
variable (n q : Nat) {a : Int} (b : Int)

theorem contrastLe_zero_left : contrastLe n q 0 b = true ↔ 0 ≤ b := by
  rcases lt_trichotomy b 0 with hb | rfl | hb
  · simp [contrastLe, Int.sign_eq_neg_one_of_neg hb, hb]
  · simp [contrastLe]
  · simp [contrastLe, Int.sign_eq_one_of_pos hb, hb.le]

theorem contrastLe_pos_left (ha : 0 < a) :
    contrastLe n q a b = true ↔ 0 < b ∧ (q : Int) * a ^ 2 ≤ (n : Int) ^ 3 * b ^ 2 := by
  rcases lt_trichotomy b 0 with hb | rfl | hb
  · simp [contrastLe, Int.sign_eq_one_of_pos ha, Int.sign_eq_neg_one_of_neg hb, hb.not_gt]
  · simp [contrastLe, Int.sign_eq_one_of_pos ha]
  · simp [contrastLe, Int.sign_eq_one_of_pos ha, Int.sign_eq_one_of_pos hb, ha, hb, ha.ne']

theorem contrastLe_neg_left (ha : a < 0) :
    contrastLe n q a b = true ↔ 0 ≤ b ∨ (n : Int) ^ 3 * b ^ 2 ≤ (q : Int) * a ^ 2 := by
  rcases lt_trichotomy b 0 with hb | rfl | hb
  · simp [contrastLe, Int.sign_eq_neg_one_of_neg ha, Int.sign_eq_neg_one_of_neg hb, ha.ne, ha.not_gt, hb]
  · simp [contrastLe, Int.sign_eq_neg_one_of_neg ha]
  · simp [contrastLe, Int.sign_eq_neg_one_of_neg ha, Int.sign_eq_one_of_pos hb, hb.le]

end

/-- The signs decide LE where they differ, and the squares where they are equal (R802, step 5). -/
theorem contrastLe_iff {n q : Nat} (hn : 0 < n) (hq : 0 < q) (a b : Int) :
    contrastLe n q a b = true ↔ (a : ℝ) * contrastSigma n q ≤ b := by
  have sigma := contrastSigma_pos hn hq
  rcases lt_trichotomy a 0 with ha | rfl | ha
  · have left : (a : ℝ) * contrastSigma n q < 0 := mul_neg_of_neg_of_pos (mod_cast ha) sigma
    rw [contrastLe_neg_left n q b ha]
    rcases le_or_gt 0 b with hb | hb
    · have right : (0 : ℝ) ≤ b := mod_cast hb
      exact iff_of_true (.inl hb) (left.le.trans right)
    · have right : (b : ℝ) < 0 := mod_cast hb
      rw [or_iff_right hb.not_ge, (contrastSquares_le_iff_abs_le hn a b).2, abs_of_neg left, abs_of_neg right,
        neg_le_neg_iff]
  · rw [contrastLe_zero_left, Int.cast_zero, zero_mul, Int.cast_nonneg_iff]
  · have left : 0 < (a : ℝ) * contrastSigma n q := mul_pos (mod_cast ha) sigma
    rw [contrastLe_pos_left n q b ha]
    rcases lt_or_ge 0 b with hb | hb
    · have right : (0 : ℝ) < b := mod_cast hb
      rw [and_iff_right hb, (contrastSquares_le_iff_abs_le hn a b).1, abs_of_pos left, abs_of_pos right]
    · have right : (b : ℝ) ≤ 0 := mod_cast hb
      exact iff_of_false (fun h => hb.not_gt h.1) (right.trans_lt left).not_ge

/-! ### The table entry is the real law, floored and clamped (R802) -/

/-- The number of j in 1..255 that LE accepts (R802). -/
theorem contrastCount_eq_count (n s1 q : Nat) (c : Int) (v : Nat) : contrastCount n s1 q c v =
    Nat.count (fun j => contrastLe n q ((n : Int) * ((j : Int) + 1) - s1) (c * ((n : Int) * v - s1)) = true) 255 := by
  rw [contrastCount, bind_pure_comp, List.map_eq_map, List.countP_map, Nat.count]
  congr 1
  funext j
  exact Bool.decide_eq_true.symm

/-- How many of 1..n are at most f: the clamp of f to 0..n (R802). -/
theorem count_eq_clamp {p : Nat → Prop} [DecidablePred p] {f : Int} (h : ∀ j, p j ↔ (j : Int) + 1 ≤ f) (n : Nat) :
    (Nat.count p n : Int) = min (n : Int) (max 0 f) := by
  induction n with
  | zero => rw [Nat.count_zero]; omega
  | succ n ih =>
    rw [Nat.count_succ]
    split
    case isTrue hn => rw [h] at hn; omega
    case isFalse hn => rw [h] at hn; omega

/-- LE at j decides j ≤ X(v) (R802, steps 2 to 4). -/
theorem contrastLe_iff_le_value {n q : Nat} (hn : 0 < n) (hq : 0 < q) (s1 : Nat) (c : Int) (v : Nat) (j : Int) :
    contrastLe n q ((n : Int) * j - s1) (c * ((n : Int) * v - s1)) = true ↔ (j : ℝ) ≤ contrastValue n s1 q c v := by
  have sigma := contrastSigma_pos hn hq
  have hn' : (0 : ℝ) < n := mod_cast hn
  have scaled : (contrastValue n s1 q c v - j) * (n * contrastSigma n q) =
      c * (n * v - s1) - (n * j - s1) * contrastSigma n q := by
    rw [contrastValue, contrastSlope, if_neg hq.ne']
    field_simp
    ring
  rw [contrastLe_iff hn hq, ← sub_nonneg]
  push_cast
  rw [← scaled, mul_nonneg_iff_of_pos_right (mul_pos hn' sigma), sub_nonneg]

theorem contrastEntry_eq_clampFloor {n : Nat} (hn : 0 < n) (s1 q : Nat) (c : Int) (v : Nat) :
    (contrastEntry n s1 q c v : Int) = clampFloor (contrastValue n s1 q c v) := by
  rcases Nat.eq_zero_or_pos q with rfl | hq
  · have floor : ⌊(s1 : ℝ) / n⌋ = ((s1 / n : Nat) : Int) := by
      rw [← Int.natCast_floor_eq_floor (by positivity), Nat.floor_div_eq_div]
    rw [contrastEntry, if_pos rfl, clampFloor, contrastValue, contrastSlope, if_pos rfl, zero_mul, add_zero, floor,
      Nat.cast_min, max_eq_right (Int.natCast_nonneg _), Nat.cast_ofNat]
  · rw [contrastEntry, if_neg hq.ne', contrastCount_eq_count]
    refine count_eq_clamp (fun j => ?_) 255
    rw [contrastLe_iff_le_value hn hq, Int.le_floor]

/-- Settles O58: LE decides j ≤ X(v), and the number of such j in 1..255 is the clamped floor. -/
theorem contrastTableIsExactRealLaw : Obligations.ContrastTableIsExactRealLaw := by
  intro n s1 q c v hn mean sigma k
  have affine : k * v + (1 - k) * mean = contrastValue n s1 q c v := by
    rw [show contrastValue n s1 q c v = mean + k * (v - mean) from rfl]
    ring
  rw [affine]
  exact contrastEntry_eq_clampFloor hn s1 q c v

/-! ### The shape of the table (R803, R805) -/

section
variable {n : Nat} (hn : 0 < n) {s1 q : Nat} {c : Int}
include hn

theorem contrastEntry_le_of_value_le {v w : Nat} (h : contrastValue n s1 q c v ≤ contrastValue n s1 q c w) :
    contrastEntry n s1 q c v ≤ contrastEntry n s1 q c w := by
  rw [← Int.ofNat_le, contrastEntry_eq_clampFloor hn, contrastEntry_eq_clampFloor hn]
  exact clampFloor_mono h

theorem contrastEntry_of_value_eq {v m : Nat} (h : contrastValue n s1 q c v = m) (hm : m ≤ 255) :
    contrastEntry n s1 q c v = m := by
  rw [← Int.ofNat_inj, contrastEntry_eq_clampFloor hn, h, clampFloor_natCast hm]

/-- With k = 0 every entry is that of the variance-zero rung, the floor of the mean (R801, R803). -/
theorem contrastEntry_of_slope_zero (h : contrastSlope n q c = 0) (v : Nat) :
    contrastEntry n s1 q c v = min 255 (s1 / n) := by
  have flat : contrastValue n s1 q c v = contrastValue n s1 0 c v := by
    rw [contrastValue, contrastValue, h, contrastSlope, if_pos rfl]
  have rung : contrastEntry n s1 0 c v = min 255 (s1 / n) := if_pos rfl
  rw [← rung, ← Int.ofNat_inj, contrastEntry_eq_clampFloor hn, contrastEntry_eq_clampFloor hn, flat]

theorem mean_of_eq_mul {m : Nat} (h : s1 = m * n) : (s1 : ℝ) / n = m := by
  rw [h, Nat.cast_mul, mul_div_cancel_right₀ _ (Nat.cast_ne_zero.mpr hn.ne')]

/-- σ is c where the variance is c² and c is positive. -/
theorem contrastSigma_eq (hc : 0 < c) (h : c ^ 2 * (n : Int) ^ 3 = q) : contrastSigma n q = c := by
  have variance : (q : ℝ) = (c : ℝ) ^ 2 * (n : ℝ) ^ 3 := by exact_mod_cast h.symm
  rw [contrastSigma, variance, mul_div_cancel_right₀ _ (by positivity), Real.sqrt_sq (mod_cast hc.le)]

end

/-- k has the sign of c, or is 0 (R803). -/
theorem contrastSlope_nonneg (n q : Nat) {c : Int} (hc : 0 ≤ c) : 0 ≤ contrastSlope n q c := by
  unfold contrastSlope
  split
  · exact le_rfl
  · exact div_nonneg (mod_cast hc) (Real.sqrt_nonneg _)

theorem contrastSlope_nonpos (n q : Nat) {c : Int} (hc : c ≤ 0) : contrastSlope n q c ≤ 0 := by
  unfold contrastSlope
  split
  · exact le_rfl
  · exact div_nonpos_of_nonpos_of_nonneg (mod_cast hc) (Real.sqrt_nonneg _)

theorem contrastSlope_eq_zero {n q : Nat} {c : Int} (h : c = 0 ∨ q = 0) : contrastSlope n q c = 0 := by
  rcases h with rfl | rfl <;> simp [contrastSlope]

/-- Settles O59: X is affine about the mean with slope k, and the clamped floor is monotone. -/
theorem contrastTableShape : Obligations.ContrastTableShape := by
  intro n s1 q c hn
  refine ⟨fun v => ?_, fun v w hvw hc => ?_, fun v w hvw hc => ?_, fun v h => ?_, fun m hm hm' => ?_,
    fun m v hm hq hc hk hv => ?_⟩
  · rw [← Int.ofNat_le, contrastEntry_eq_clampFloor hn]
    exact min_le_left _ _
  · refine contrastEntry_le_of_value_le hn (add_le_add_right ?_ _)
    exact mul_le_mul_of_nonneg_left (sub_le_sub_right (mod_cast hvw) _) (contrastSlope_nonneg n q hc)
  · refine contrastEntry_le_of_value_le hn (add_le_add_right ?_ _)
    exact mul_le_mul_of_nonpos_left (sub_le_sub_right (mod_cast hvw) _) (contrastSlope_nonpos n q hc.le)
  · exact contrastEntry_of_slope_zero hn (contrastSlope_eq_zero h) v
  · refine contrastEntry_of_value_eq hn ?_ hm'
    rw [contrastValue, mean_of_eq_mul hn hm, sub_self, mul_zero, add_zero]
  · refine contrastEntry_of_value_eq hn ?_ hv
    have slope : contrastSlope n q c = 1 := by
      rw [contrastSlope, if_neg hq.ne', contrastSigma_eq hn hc hk, div_self (mod_cast hc.ne')]
    rw [contrastValue, slope, one_mul, add_sub_cancel]

end Sys2Proof.Machine

/-! ## The table's commands LUT_BUILD and REMAP (spec/44_contrast.md R810, R811) -/

namespace Sys2Proof.Machine

/-! ### The table, entry by entry (R810) -/

/-- The table with its first `n` entries set by `f`. Irreducible: its entries say all there is to know of it, and unfolding all
256 of them would make a check that two register states are equal expensive. -/
@[irreducible] def Lut.filled (f : Nat → Byte) (l : Lut) (n : Nat) : Lut :=
  Vector.ofFn fun i => if i.val < n then f i else l[i.val]

theorem Lut.entry_filled (f : Nat → Byte) (l : Lut) (n : Nat) (v : Byte) :
    (l.filled f n).entry v = if v.toNat < n then f v.toNat else l.entry v := by
  unfold Lut.filled
  exact Vector.getElem_ofFn ..

theorem Lut.filled_zero (f : Nat → Byte) (l : Lut) : l.filled f 0 = l :=
  Lut.ext_entry fun v => (Lut.entry_filled f l 0 v).trans (if_neg v.toNat.not_lt_zero)

theorem Lut.put_filled (f : Nat → Byte) (l : Lut) {n : Nat} (hn : n < 256) :
    (l.filled f n).put (BitVec.ofNat 8 n) (f n) = l.filled f (n + 1) := by
  refine Lut.ext_entry fun v => ?_
  have next : v = BitVec.ofNat 8 n ↔ v.toNat = n := by
    rw [← BitVec.toNat_inj, BitVec.toNat_ofNat, Nat.mod_eq_of_lt hn]
  rw [Lut.entry_put, Lut.entry_filled, Lut.entry_filled]
  by_cases h : v.toNat = n
  · rw [if_pos (next.mpr h), if_pos (by omega), h]
  · rw [if_neg (mt next.mp h)]
    exact if_congr (by omega) rfl rfl

/-- The registers with the first `n` entries of the table built (R810). -/
def Regs.built (n : Nat) (g : Regs) : Regs := { g with lut := g.lut.filled g.tableEntry n }

/-- The whole table is L of the statistics and CONTRAST (R810). -/
theorem Regs.entry_built (g : Regs) (v : Byte) : (g.built 256).lut.entry v = g.tableEntry v.toNat :=
  (Lut.entry_filled _ _ _ v).trans (if_pos v.isLt)

theorem Regs.eq_built_zero {g : Regs} (hp : g.progress = 0#32) : g = (g.built 0).atUnit 0 := by
  rw [Regs.built, Regs.atUnit, Lut.filled_zero, ← hp]

theorem Regs.buildEntry_built (g : Regs) {n : Nat} (hn : n < 256) :
    ((g.built n).atUnit n).buildEntry = (g.built (n + 1)).atUnit n := by
  rw [Regs.buildEntry, Regs.atUnit_progress_toNat _ (by omega), Regs.built, Regs.built, ← Lut.put_filled _ _ hn]
  rfl

/-- Work unit `n` of LUT_BUILD builds entry `n` (R810). -/
theorem workUnit_lutBuild {g : Regs} {n : Nat} (hp : g.phase = .lutBuild) (hn : n < 256) (p : Platform) :
    workUnit ((g.built n).atUnit n) p = .ok ((g.built (n + 1)).atUnit n) p := by
  have phase : ((g.built n).atUnit n).phase = .lutBuild := hp
  simp only [workUnit, phase, unitLutBuild, Regs.buildEntry_built g hn]

/-- The whole phase LUT_BUILD: every entry is built, the platform is left alone, and the last unit ends the phase (R405,
R810). -/
theorem engineRun_lutBuild_phase {s : State} (hb : s.reg.busy = true) (hstart : s.reg.progress = 0#32)
    (hp : s.reg.phase = .lutBuild) :
    engineRun 256 s = .next { s with
      reg := ((s.reg.built 256).atUnit 255).advance
      plat := settleWhenIdle ((s.reg.built 256).atUnit 255).advance s.plat } := by
  obtain ⟨p, hrun, rfl⟩ := engineRun_pass_phase (s := s) (G := s.reg.built) (R := fun _ p => p = s.plat) (n := 256)
    (fun _ => hb) (Regs.eq_built_zero hstart) rfl
    (fun _ hi _ e => ⟨_, workUnit_lutBuild hp hi _, e⟩) (by decide) fun _ => by simp only [Regs.built, hp]; rfl
  exact hrun

/-- Settles O24: each unit builds its entry, and the last ends the command. -/
theorem lutBuildCompletes : Obligations.LutBuildCompletes := by
  intro s hb hs
  have passes : firstFailure .lutBuild s.reg = .none := firstFailure_eq_none_iff.mpr (by simp [hs])
  have hrun := engineRun_lutBuild_phase (s := s.started .lutBuild) rfl rfl rfl
  exact ⟨exec_started hb passes, _, engineRun_completes (Nat.succ_pos 255) rfl rfl hrun, rfl,
    (s.reg.started .lutBuild).entry_built⟩

/-! ### The destination region through the table (R811) -/

/-- Byte `i` of the destination region in `m`, through the table (R811). -/
def Regs.remapOutput (g : Regs) (m : Memory) (i : Nat) : Byte := g.lut.entry (m.regionByte g.dst.toNat i)

/-- The DMA accesses of unit `i` in REMAP, in order (R811). -/
def Regs.remapAccesses (g : Regs) (i : Nat) : List DmaAccess :=
  [⟨.read, BitVec.ofNat 32 (g.dst.toNat + i), true⟩, ⟨.write, BitVec.ofNat 32 (g.dst.toNat + i), true⟩]

/-- From `p`, REMAP has done its first `n` units: the table's entries of these bytes stand in their places, and nothing else has
changed (R811). -/
abbrev Regs.Remapped (g : Regs) (p : Platform) (n : Nat) (q : Platform) : Prop :=
  p.Filled g.dst.toNat (g.remapOutput p.mem) g.remapAccesses n q

/-- A granted REMAP unit replaces its byte by the byte's table entry (R811). -/
theorem unitRemap_granted {g : Regs} {p : Platform} {i : Nat} (hi : g.progress.toNat = i) (hw : p.mem.wf)
    (ha : g.dst.toNat + i < 2 ^ 32) (hr : p.grants .read (g.dst.toNat + i) 1)
    (hwr : p.grants .write (g.dst.toNat + i) 1) :
    ∃ q, unitRemap g p = .ok g q ∧ p.SameBut (BitVec.ofNat 32 (g.dst.toNat + i)) q ∧
      q.mem.regionByte g.dst.toNat i = g.remapOutput p.mem i ∧ q.dmaLog = (g.remapAccesses i).reverse ++ p.dmaLog := by
  obtain ⟨_, read, same, log₁⟩ := dmaRead_granted_after (.refl p) hr le_rfl (by omega) ha
  obtain ⟨q, write, same, byte, log₂⟩ :=
    dmaWrite_granted_after same hwr le_rfl (by omega) ha hw (g.remapOutput p.mem i)
  refine ⟨q, ?_, same, byte, by rw [log₂, log₁]; rfl⟩
  rw [unitRemap, hi, read, Dma.bind_ok]
  exact congrArg (Dma.bind · fun _ p => .ok g p) write

/-- Work unit `n` of REMAP reads byte `n` as it was before the phase, since the units before it wrote other bytes (R811). -/
theorem workUnit_remap {g : Regs} {p q : Platform} {n len : Nat} (hp : g.phase = .remap)
    (ha : g.dst.toNat + len ≤ 2 ^ 32) (hn : n < len) (hlen : len < 2 ^ 32) (hr : p.grants .read g.dst.toNat len)
    (hwr : p.grants .write g.dst.toNat len) (h : g.Remapped p n q) :
    ∃ r, workUnit (g.atUnit n) q = .ok (g.atUnit n) r ∧ g.Remapped p (n + 1) r := by
  have hlt : g.dst.toNat + n < 2 ^ 32 := by omega
  obtain ⟨r, hu, same, byte, log⟩ := unitRemap_granted (g := g.atUnit n) (g.atUnit_progress_toNat (hn.trans hlen)) h.wf
    hlt (h.grants (hr.mono (Nat.le_add_right _ _) (Nat.add_le_add_left hn _)))
    (h.grants (hwr.mono (Nat.le_add_right _ _) (Nat.add_le_add_left hn _)))
  have unread := h.regionByte_outside hlt (.inr le_rfl)
  refine ⟨r, ?_, h.succ hlt same (byte.trans (congrArg g.lut.entry unread)) log⟩
  rwa [workUnit, g.atUnit_phase, hp]

/-- The whole phase REMAP: every byte is replaced, and the last unit ends the phase (R405, R811). -/
theorem engineRun_remap_phase {s : State} (hb : s.reg.busy = true) (hstart : s.reg.progress = 0#32)
    (hp : s.reg.phase = .remap) (hw : s.plat.mem.wf) (hpos : 0 < s.reg.pixels)
    (ha : s.reg.dst.toNat + s.reg.pixels ≤ 2 ^ 32) (hr : s.plat.grants .read s.reg.dst.toNat s.reg.pixels)
    (hwr : s.plat.grants .write s.reg.dst.toNat s.reg.pixels) :
    ∃ p, engineRun s.reg.pixels s = .next { s with
        reg := (s.reg.atUnit (s.reg.pixels - 1)).advance
        plat := settleWhenIdle (s.reg.atUnit (s.reg.pixels - 1)).advance p } ∧
      s.reg.Remapped s.plat s.reg.pixels p :=
  engineRun_pass_phase (G := fun _ => s.reg) (R := s.reg.Remapped s.plat) (fun _ => hb)
    (Regs.atUnit_of_progress hstart).symm (Platform.filled_zero hw)
    (fun _ hi _ => workUnit_remap hp ha hi s.reg.pixels_lt hr hwr) hpos fun _ => by rw [hp]; rfl

theorem Regs.nextPhase_remap (g : Regs) : g.nextPhase .remap = none := by
  unfold Regs.nextPhase
  split <;> rfl

/-- REMAP is the last phase of every command that has it: the command completes (R406, R811, R901). -/
theorem engineRun_remap {s : State} (hb : s.reg.busy = true) (hstart : s.reg.progress = 0#32)
    (hp : s.reg.phase = .remap) (hw : s.plat.mem.wf) (hpos : 0 < s.reg.pixels)
    (ha : s.reg.dst.toNat + s.reg.pixels ≤ 2 ^ 32) (hr : s.plat.grants .read s.reg.dst.toNat s.reg.pixels)
    (hwr : s.plat.grants .write s.reg.dst.toNat s.reg.pixels) :
    ∃ p, engineRun s.reg.pixels s = .next { s with reg := (s.reg.atUnit s.reg.pixels).complete, plat := p.settle } ∧
      s.reg.Remapped s.plat s.reg.pixels p := by
  obtain ⟨p, hrun, hdone⟩ := engineRun_remap_phase hb hstart hp hw hpos ha hr hwr
  have ends := engineRun_completes hpos (by rw [hp]; rfl) (by rw [hp]; exact s.reg.nextPhase_remap) hrun
  rw [hp] at ends
  exact ⟨p, ends, hdone⟩

/-- Settles O25: each unit replaces its byte, and the last ends the command. -/
theorem remapCompletes : Obligations.RemapCompletes := by
  intro s hb hf hw hr hwr
  obtain ⟨hpos, ha⟩ := Regs.dst_of_passes (by decide) hf
  obtain ⟨p, hrun, hdone⟩ := engineRun_remap (s := s.started .remap) rfl rfl rfl hw hpos ha hr hwr
  exact ⟨exec_started hb hf, _, hrun, rfl, hdone.bytes, hdone.other, rfl, rfl⟩

end Sys2Proof.Machine

/-! ## RUN with contrast set, phase by phase (spec/45_run.md R900, R901), and uniform images (spec/44_contrast.md R814) -/

namespace Sys2Proof.Machine

/-! ### The operands through NORMALIZE and a start -/

theorem Regs.ImageOk.normalized {g : Regs} (h : g.ImageOk) : g.normalized.ImageOk := by
  obtain ⟨hpixels, hsrc, hdst, hapart⟩ := h
  cases g
  exact ⟨hpixels, hsrc, hdst, hapart⟩

@[simp] theorem Regs.normalized_pixels (g : Regs) : g.normalized.pixels = g.pixels :=
  Regs.pixels_congr g.normalized_width g.normalized_height

theorem Regs.started_pixels (i : Instr) (g : Regs) : (g.started i).pixels = g.pixels := rfl

theorem Regs.started_dst (i : Instr) (g : Regs) : (g.started i).dst = g.dst := rfl

/-! ### From one phase of RUN to the next -/

/-- The start of a phase forgets the units of the one before (R405). -/
theorem Regs.enterPhase_leavePhase_atUnit (g : Regs) (n : Nat) (ph next : Phase) :
    ((g.atUnit n).leavePhase ph).enterPhase next = (g.leavePhase ph).enterPhase next := by
  cases ph <;> cases next <;> rfl

/-- Where the phase that ends has another after it, that one begins in the same turn (R405). -/
theorem engineRun_enters {s : State} {g : Regs} {p : Platform} {n k : Nat} {next : Phase} (hpos : 0 < n)
    (hrun : engineRun k s = .next { s with
      reg := (g.atUnit (n - 1)).advance, plat := settleWhenIdle (g.atUnit (n - 1)).advance p })
    (hb : g.busy = true) (hn : g.unitCount g.phase = n) (hnext : g.nextPhase g.phase = some next) :
    engineRun k s = .next { s with reg := (g.leavePhase g.phase).enterPhase next, plat := p } := by
  have unit : n - 1 < 2 ^ 32 := by have := g.unitCount_lt g.phase; omega
  have enters : (g.atUnit (n - 1)).advance = (g.leavePhase g.phase).enterPhase next := by
    rcases (g.atUnit (n - 1)).advance_cases with ⟨hmore, -⟩ | ⟨-, ph, hsome, e⟩ | ⟨-, hnone, -⟩
    · rw [Regs.atUnit_progress_toNat g unit, Nat.sub_add_cancel hpos] at hmore
      exact absurd hn hmore.ne'
    · obtain rfl := Option.some.inj (hnext.symm.trans hsome)
      rw [e, Regs.countUnit_atUnit g unit]
      exact Regs.enterPhase_leavePhase_atUnit g _ _ _
    · cases hnext.symm.trans hnone
  have busy : ((g.leavePhase g.phase).enterPhase next).busy = true := by simpa using hb
  rw [hrun, enters, settleWhenIdle, if_pos busy]

/-- The one turn of NORMALIZE in a RUN leaves the weights that the other phases run with, and enters MIX (R510, R901). -/
theorem engineRun_run_normalize (s : State) : engineRun 1 (s.started .run) =
    .next { s with reg := (s.reg.normalized.started .run).enterPhase .mix } := by
  have unit : engineRun 1 (s.started .run) = .next { s with
      reg := ((s.reg.normalized.started .run).atUnit 0).advance
      plat := settleWhenIdle ((s.reg.normalized.started .run).atUnit 0).advance s.plat } :=
    engineRun_succ (engineStep_ok rfl rfl)
  exact engineRun_enters (next := .mix) Nat.one_pos unit rfl rfl rfl

/-! ### The statistics and the table of the MIX output -/

/-- The registers as VAR begins, with STAT_N and S1 those of the destination bytes in `m` (R710). -/
def Regs.atVar (m : Memory) (g : Regs) : Regs :=
  (((g.enterPhase .sum).summed m g.pixels).leavePhase .sum).enterPhase .var

/-- The registers as LUT_BUILD begins, with the statistics complete (R720). -/
def Regs.atLutBuild (m : Memory) (g : Regs) : Regs :=
  (((g.atVar m).deviated m g.pixels).leavePhase .var).enterPhase .lutBuild

/-- The registers as REMAP begins, with the table of these statistics (R810). -/
def Regs.atRemap (m : Memory) (g : Regs) : Regs :=
  (((g.atLutBuild m).built 256).leavePhase .lutBuild).enterPhase .remap

section
variable (m : Memory) (g : Regs)

theorem Regs.atVar_sameOperands : g.SameOperands (g.atVar m) := by
  cases g
  constructor <;> rfl

theorem Regs.atRemap_sameOperands : g.SameOperands (g.atRemap m) := by
  cases g
  constructor <;> rfl

/-- VAR and LUT_BUILD leave STAT_N and S1 (R720, R810). -/
theorem Regs.atRemap_eq_atVar : (g.atRemap m).statN = (g.atVar m).statN ∧ (g.atRemap m).s1 = (g.atVar m).s1 := ⟨rfl, rfl⟩

theorem Regs.atVar_statN_toNat : (g.atVar m).statN.toNat = g.pixels := Nat.mod_eq_of_lt g.pixels_lt

theorem Regs.atVar_s1_toNat : (g.atVar m).s1.toNat = m.sampleSum g.dst.toNat g.pixels := by
  have s1 : (g.atVar m).s1 = ((g.enterPhase .sum).summed m g.pixels).s1 := rfl
  rw [s1, Regs.summed_s1_toNat m (Regs.enterPhase_pixels .sum g).ge, Regs.enterPhase_dst]

theorem Regs.atRemap_statN_toNat : (g.atRemap m).statN.toNat = g.pixels := by
  rw [(g.atRemap_eq_atVar m).1, g.atVar_statN_toNat m]

theorem Regs.atRemap_s1_toNat : (g.atRemap m).s1.toNat = m.sampleSum g.dst.toNat g.pixels := by
  rw [(g.atRemap_eq_atVar m).2, g.atVar_s1_toNat m]

theorem Regs.atRemap_q_toNat : (g.atRemap m).q.toNat =
    m.deviationSum g.dst.toNat g.pixels g.pixels (m.sampleSum g.dst.toNat g.pixels) := by
  have counted := g.atVar_statN_toNat m
  have summed := g.atVar_s1_toNat m
  have q : (g.atRemap m).q = ((g.atVar m).deviated m g.pixels).q := rfl
  have deviated := Regs.deviated_q_toNat m (g := g.atVar m) (by rw [counted]; exact g.pixels_le)
    (by rw [counted, summed]; exact m.sampleSum_le _ _)
  rw [counted, summed, (g.atVar_sameOperands m).dst] at deviated
  rw [q, deviated]

/-- The table is L of these statistics (R810). -/
theorem Regs.atRemap_entry (v : Byte) : (g.atRemap m).lut.entry v = BitVec.ofNat 8
    (contrastEntry (g.atRemap m).statN.toNat (g.atRemap m).s1.toNat (g.atRemap m).q.toNat g.contrast v.toNat) := by
  cases g
  exact Regs.entry_built _ v

end

/-! ### The phases after NORMALIZE -/

section
variable {g : Regs} {s : State} {p : Platform} (hg : g.ImageOk)
include hg

/-- MIX in a RUN with contrast set mixes every pixel, and then SUM begins (R901). -/
theorem engineRun_run_mix (hcl : g.ctrlContrastEn = true) (hw : p.mem.wf)
    (hr : p.grants .read g.src.toNat (3 * g.pixels)) (hwr : p.grants .write g.dst.toNat g.pixels) :
    ∃ q, engineRun g.pixels { s with reg := (g.started .run).enterPhase .mix, plat := p } =
        .next { s with reg := (g.started .run).enterPhase .sum, plat := q } ∧ g.Mixed p g.pixels q := by
  obtain ⟨q, hrun, hmixed⟩ := engineRun_mix_phase (s := { s with reg := (g.started .run).enterPhase .mix, plat := p })
    rfl rfl rfl ⟨hg.pixels, hg.src, hg.dst, hg.apart⟩ hw hr hwr
  have latched : ((g.started .run).enterPhase .mix).nextPhase .mix = some .sum := if_pos hcl
  exact ⟨q, engineRun_enters hg.pixels hrun rfl rfl latched, hmixed⟩

/-- SUM in a RUN leaves STAT_N and S1 of the destination bytes, and then VAR begins (R901). -/
theorem engineRun_run_sum (hr : p.grants .read g.dst.toNat g.pixels) :
    ∃ q, engineRun g.pixels { s with reg := (g.started .run).enterPhase .sum, plat := p } =
        .next { s with reg := (g.started .run).atVar p.mem, plat := q } ∧ p.SameMemory q := by
  obtain ⟨q, hrun, same⟩ := engineRun_sum_phase (s := { s with reg := (g.started .run).enterPhase .sum, plat := p })
    rfl rfl rfl rfl hg.pixels hg.dst hr
  exact ⟨q, engineRun_enters (next := .var) hg.pixels hrun rfl rfl rfl, same⟩

/-- VAR in a RUN leaves Q of the same bytes, and then LUT_BUILD begins (R901). -/
theorem engineRun_run_var (hr : p.grants .read g.dst.toNat g.pixels) :
    ∃ q, engineRun g.pixels { s with reg := (g.started .run).atVar p.mem, plat := p } =
        .next { s with reg := (g.started .run).atLutBuild p.mem, plat := q } ∧ p.SameMemory q := by
  have counted : ((g.started .run).atVar p.mem).statN.toNat = g.pixels := (g.started .run).atVar_statN_toNat p.mem
  have phase := engineRun_var_phase (s := { s with reg := (g.started .run).atVar p.mem, plat := p }) rfl rfl rfl rfl
  rw [counted] at phase
  obtain ⟨q, hrun, same⟩ := phase hg.pixels hg.dst hr
  exact ⟨q, engineRun_enters (next := .lutBuild) hg.pixels hrun rfl counted rfl, same⟩

omit hg in
/-- LUT_BUILD in a RUN builds the table of the statistics, and then REMAP begins (R901). -/
theorem engineRun_run_lutBuild (m : Memory) :
    engineRun 256 { s with reg := (g.started .run).atLutBuild m, plat := p } =
      .next { s with reg := (g.started .run).atRemap m, plat := p } := by
  have hrun := engineRun_lutBuild_phase (s := { s with reg := (g.started .run).atLutBuild m, plat := p }) rfl rfl rfl
  exact engineRun_enters (next := .remap) (n := 256) (Nat.succ_pos 255) hrun rfl rfl rfl

/-- REMAP in a RUN passes every destination byte through the table, and completes the command (R901). -/
theorem engineRun_run_remap (m : Memory) (hw : p.mem.wf) (hr : p.grants .read g.dst.toNat g.pixels)
    (hwr : p.grants .write g.dst.toNat g.pixels) :
    ∃ q, engineRun g.pixels { s with reg := (g.started .run).atRemap m, plat := p } =
        .next { s with reg := (((g.started .run).atRemap m).atUnit g.pixels).complete, plat := q.settle } ∧
      ((g.started .run).atRemap m).Remapped p g.pixels q := by
  have operands := (g.started .run).atRemap_sameOperands m
  have pixels : ((g.started .run).atRemap m).pixels = g.pixels := Regs.pixels_congr operands.width operands.height
  have phase := engineRun_remap (s := { s with reg := (g.started .run).atRemap m, plat := p }) rfl rfl rfl hw
  rw [pixels, operands.dst] at phase
  exact phase hg.pixels hg.dst hr hwr

/-- From MIX on, a RUN with contrast set mixes every pixel, takes the statistics of the MIX output, builds their table, and
passes the output through it (R901). -/
theorem engineRun_run_contrast (hcl : g.ctrlContrastEn = true) (hw : p.mem.wf)
    (hsrc : p.grants .read g.src.toNat (3 * g.pixels)) (hr : p.grants .read g.dst.toNat g.pixels)
    (hwr : p.grants .write g.dst.toNat g.pixels) :
    ∃ q r u, engineRun (4 * g.pixels + 256) { s with reg := (g.started .run).enterPhase .mix, plat := p } =
        .next { s with reg := (((g.started .run).atRemap q.mem).atUnit g.pixels).complete, plat := u.settle } ∧
      g.Mixed p g.pixels q ∧ q.SameMemory r ∧ ((g.started .run).atRemap q.mem).Remapped r g.pixels u := by
  obtain ⟨q, mix, hmixed⟩ := engineRun_run_mix (s := s) hg hcl hw hsrc hwr
  have reads := hmixed.grants hr
  obtain ⟨r₁, sum, same₁⟩ := engineRun_run_sum (s := s) hg reads
  obtain ⟨r, var, same₂⟩ := engineRun_run_var (s := s) hg (same₁.grants reads)
  rw [same₁.mem] at var
  have same := same₁.trans same₂
  obtain ⟨u, remap, hdone⟩ := engineRun_run_remap (s := s) hg q.mem (by rw [same.mem]; exact hmixed.wf)
    (same.grants reads) (same.grants (hmixed.grants hwr))
  have turns : 4 * g.pixels + 256 = g.pixels + (g.pixels + (g.pixels + (256 + g.pixels))) := by omega
  refine ⟨q, r, u, ?_, hmixed, same, hdone⟩
  rw [turns, engineRun_add mix, engineRun_add sum, engineRun_add var, engineRun_add (engineRun_run_lutBuild q.mem), remap]

end

/-! ### Uniform images (R814) -/

section
variable {m : Memory} {g : Regs} {c : Byte} (h : ∀ i < g.pixels, m.regionByte g.dst.toNat i = c)
include h

theorem Regs.atRemap_s1_of_uniform : (g.atRemap m).s1.toNat = g.pixels * c.toNat :=
  (g.atRemap_s1_toNat m).trans (Memory.sampleSum_of_equal h)

theorem Regs.atRemap_q_of_uniform : (g.atRemap m).q = 0#128 := by
  have vanish : (g.atRemap m).q.toNat = 0 := by
    rw [g.atRemap_q_toNat m, Memory.sampleSum_of_equal h, Memory.deviationSum_eq_zero_iff]
    intro i hi
    rw [h i hi]
  exact BitVec.eq_of_toNat_eq vanish

/-- The variance-zero rung gives the mean, which is the byte of every pixel, whatever CONTRAST is (R801, R814). -/
theorem Regs.atRemap_entry_of_uniform (hpos : 0 < g.pixels) (v : Byte) : (g.atRemap m).lut.entry v = c := by
  have mean : min 255 (g.pixels * c.toNat / g.pixels) = c.toNat := by
    rw [Nat.mul_div_cancel_left _ hpos]
    exact min_eq_right (Nat.le_of_lt_succ c.isLt)
  rw [g.atRemap_entry m, g.atRemap_statN_toNat m, Regs.atRemap_s1_of_uniform h, Regs.atRemap_q_of_uniform h,
    BitVec.toNat_zero, contrastEntry_of_slope_zero hpos (contrastSlope_eq_zero (.inr rfl)), mean, BitVec.ofNat_toNat,
    BitVec.setWidth_eq]

end

/-- Settles O29: the deviations of a uniform MIX output vanish, so the table is constant at its byte. -/
theorem uniformImageKeepsMixOutput : Obligations.UniformImageKeepsMixOutput := by
  intro s c hb hcl hf hw hsrc hr hwr huniform
  have hg := (Regs.imageOk_of_passes (by decide) hf).normalized
  have pixels := s.reg.normalized_pixels
  rw [← pixels] at hsrc hr hwr huniform ⊢
  obtain ⟨p, _, u, hrun, hmixed, -, hdone⟩ := engineRun_run_contrast (s := s) hg hcl hw hsrc hr hwr
  have uniform : ∀ i < (s.reg.normalized.started .run).pixels,
      p.mem.regionByte (s.reg.normalized.started .run).dst.toNat i = c :=
    fun i hi => (hmixed.bytes i hi).trans (huniform i hi)
  have table := Regs.atRemap_entry_of_uniform uniform hg.pixels
  have issued := (issue_started hb hf _).trans ((engineRun_add (engineRun_run_normalize s)).trans hrun)
  have q := Regs.atRemap_q_of_uniform uniform
  have s1 := Regs.atRemap_s1_of_uniform uniform
  rw [Regs.started_pixels] at s1
  have output := hdone.bytes
  rw [(Regs.atRemap_sameOperands _ _).dst, Regs.started_dst, Regs.normalized_dst] at output
  rw [Nat.add_assoc]
  exact ⟨_, issued, rfl, rfl, s1, q, table, fun i hi => (output i hi).trans (table _)⟩

end Sys2Proof.Machine

/-! ## RUN from its arrival to its end (spec/45_run.md R900, R901) -/

namespace Sys2Proof.Machine

/-! ### RUN with contrast unset -/

/-- MIX in a RUN with contrast unset mixes every pixel, and completes the command (R901). -/
theorem engineRun_run_mix_last {g : Regs} {s : State} {p : Platform} (hg : g.ImageOk) (hcl : g.ctrlContrastEn = false)
    (hw : p.mem.wf) (hr : p.grants .read g.src.toNat (3 * g.pixels)) (hwr : p.grants .write g.dst.toNat g.pixels) :
    ∃ q, engineRun g.pixels { s with reg := (g.started .run).enterPhase .mix, plat := p } = .next { s with
        reg := (((g.started .run).enterPhase .mix).atUnit g.pixels).complete, plat := q.settle } ∧
      g.Mixed p g.pixels q := by
  obtain ⟨q, hrun, hmixed⟩ := engineRun_mix_phase (s := { s with reg := (g.started .run).enterPhase .mix, plat := p })
    rfl rfl rfl ⟨hg.pixels, hg.src, hg.dst, hg.apart⟩ hw hr hwr
  have unlatched : ((g.started .run).enterPhase .mix).nextPhase .mix = none :=
    (if_pos rfl).trans (if_neg (ne_true_of_eq_false hcl))
  exact ⟨q, engineRun_completes hg.pixels rfl unlatched hrun, hmixed⟩

/-- Settles O26: NORMALIZE leaves the weights, and MIX under them is the last phase. -/
theorem runWithContrastUnsetCompletes : Obligations.RunWithContrastUnsetCompletes := by
  intro s hb hcl hf hw hr hwr
  have hg := (Regs.imageOk_of_passes (by decide) hf).normalized
  have pixels := s.reg.normalized_pixels
  rw [← pixels] at hr hwr ⊢
  obtain ⟨q, hrun, hmixed⟩ := engineRun_run_mix_last (s := s) hg hcl hw hr hwr
  exact ⟨exec_started hb hf, _, (engineRun_add (engineRun_run_normalize s)).trans hrun, rfl, hmixed.bytes, hmixed.other,
    rfl, rfl⟩

/-! ### RUN with contrast set -/

section
variable {m : Memory} {base n : Nat} {byte : Nat → Byte} (h : ∀ i < n, m.regionByte base i = byte i)
include h

theorem Memory.sampleSum_of_bytes : m.sampleSum base n = ((List.range n).map fun i => (byte i).toNat).sum :=
  congrArg List.sum (List.map_congr_left fun i hi => by rw [h i (List.mem_range.mp hi)])

theorem Memory.deviationSum_of_bytes (ns s1 : Nat) :
    m.deviationSum base n ns s1 = ((List.range n).map fun i => squareOfDeviation ns s1 (byte i).toNat).sum :=
  congrArg List.sum (List.map_congr_left fun i hi => by rw [h i (List.mem_range.mp hi)])

end

/-- What the phases after MIX change by the end of REMAP: the statistics, the table and the lifecycle's registers (R901). -/
theorem Regs.atRemap_ended (m : Memory) (n : Nat) (g : Regs) : ((g.atRemap m).atUnit n).complete = { g with
    busy := false, done := true, phase := .remap, progress := BitVec.ofNat 32 n, stats := .full
    statN := (g.atRemap m).statN, s1 := (g.atRemap m).s1, q := (g.atRemap m).q, lut := (g.atRemap m).lut } := by
  cases g
  rfl

/-- REMAP after MIX passes the MIX output through the table, and the bytes that neither writes stay (R901). -/
theorem Regs.Remapped.of_mixed {g t : Regs} {p q r u : Platform} {n : Nat} (hdone : t.Remapped r n u)
    (hdst : t.dst = g.dst) (hmixed : g.Mixed p n q) (same : q.SameMemory r) :
    (∀ i < n, u.mem.regionByte g.dst.toNat i = t.lut.entry (g.mixOutput p.mem i)) ∧
    ∀ a : Word, inRegion g.dst.toNat n a.toNat = false → u.mem.read a = p.mem.read a := by
  have remapped := hdone.bytes
  have other := hdone.other
  simp only [Regs.remapOutput, hdst, same.mem] at remapped other
  refine ⟨fun i hi => ?_, fun a ha => (other a ha).trans (hmixed.other a ha)⟩
  rw [remapped i hi, hmixed.bytes i hi]

/-- Settles O27: the phases after NORMALIZE leave the statistics and the table of the MIX output, and the output through the
table. -/
theorem runWithContrastSetCompletes : Obligations.RunWithContrastSetCompletes := by
  intro s hb hcl hf hw hsrc hr hwr
  have hg := (Regs.imageOk_of_passes (by decide) hf).normalized
  have pixels := s.reg.normalized_pixels
  rw [← pixels] at hsrc hr hwr ⊢
  obtain ⟨q, r, u, hrun, hmixed, same, hdone⟩ := engineRun_run_contrast (s := s) hg hcl hw hsrc hr hwr
  have counted := (s.reg.normalized.started .run).atRemap_statN_toNat q.mem
  have summed := (s.reg.normalized.started .run).atRemap_s1_toNat q.mem
  have deviated := (s.reg.normalized.started .run).atRemap_q_toNat q.mem
  have table := (s.reg.normalized.started .run).atRemap_entry q.mem
  rw [← summed] at deviated
  simp only [counted] at table
  have issued := (engineRun_add (engineRun_run_normalize s)).trans hrun
  obtain ⟨output, outside⟩ :=
    hdone.of_mixed ((s.reg.normalized.started .run).atRemap_sameOperands q.mem).dst hmixed same
  rw [Nat.add_assoc]
  exact ⟨exec_started hb hf, _, issued, Regs.atRemap_ended .., counted,
    summed.trans (Memory.sampleSum_of_bytes hmixed.bytes), deviated.trans (Memory.deviationSum_of_bytes hmixed.bytes _ _),
    table, output, outside, rfl, rfl⟩

end Sys2Proof.Machine

/-! ## RUN against its commands issued one by one (spec/45_run.md R905) -/

namespace Sys2Proof.Machine

/-! ### A canonical memory is its bytes -/

/-- A canonical memory lists exactly the bytes that differ from the unlisted one. -/
theorem Memory.mem_iff_lookup {m : Memory} (hm : m.wf) {k : Nat} {v : Byte} :
    (k, v) ∈ m ↔ m.lookup k = v ∧ v ≠ Memory.unlisted := by
  induction m with
  | nil => simp +contextual [Memory.lookup, eq_comm]
  | cons c rest ih =>
    obtain ⟨j, w⟩ := c
    obtain ⟨habove, hsorted⟩ := List.pairwise_cons.mp hm.1
    have hw := (hm.2 _ List.mem_cons_self).2
    have ih := ih ⟨hsorted, fun x hx => hm.2 x (List.mem_cons_of_mem _ hx)⟩
    by_cases hjk : j = k
    · subst hjk
      have absent : (j, v) ∉ rest := fun h => (habove _ h).false
      simp only [Memory.lookup, if_true, List.mem_cons, Prod.mk.injEq, true_and, absent, or_false]
      exact ⟨fun e => ⟨e.symm, e ▸ hw⟩, fun e => e.1.symm⟩
    · simp only [Memory.lookup, if_neg hjk, List.mem_cons, Prod.mk.injEq, Ne.symm hjk, false_and, false_or, ih]

theorem Memory.subset_of_read {m m' : Memory} (hm : m.wf) (hm' : m'.wf) (h : ∀ a, m.read a = m'.read a) : m ⊆ m' := by
  intro c hc
  have read := h (BitVec.ofNat 32 c.1)
  rw [Memory.read, Memory.read, BitVec.toNat_ofNat, Nat.mod_eq_of_lt (hm.2 c hc).1] at read
  have listed := (Memory.mem_iff_lookup hm).mp hc
  rw [read] at listed
  exact (Memory.mem_iff_lookup hm').mpr listed

/-- Two canonical memories that read alike at every address are the same. -/
theorem Memory.ext_read {m m' : Memory} (hm : m.wf) (hm' : m'.wf) (h : ∀ a, m.read a = m'.read a) : m = m' := by
  have nodup {m : Memory} (hm : m.wf) : m.Nodup := hm.1.imp fun h e => h.ne (congrArg Prod.fst e)
  have perm : m.Perm m' := (List.perm_ext_iff_of_nodup (nodup hm) (nodup hm')).mpr fun _ =>
    ⟨fun hc => Memory.subset_of_read hm hm' h hc, fun hc => Memory.subset_of_read hm' hm (fun a => (h a).symm) hc⟩
  exact perm.eq_of_pairwise (fun _ _ _ _ h h' => absurd h h'.asymm) hm.1 hm'.1

/-- Two canonical memories that agree on the bytes of a region and at every address outside it are the same. -/
theorem Memory.ext_region {m m' : Memory} {base n : Nat} (hm : m.wf) (hm' : m'.wf)
    (hbytes : ∀ i < n, m.regionByte base i = m'.regionByte base i)
    (hother : ∀ a : Word, inRegion base n a.toNat = false → m.read a = m'.read a) : m = m' := by
  refine Memory.ext_read hm hm' fun a => ?_
  cases h : inRegion base n a.toNat with
  | false => exact hother a h
  | true =>
    simp only [inRegion, decide_eq_true_eq] at h
    have byte := hbytes (a.toNat - base) (by omega)
    simpa only [Memory.regionByte, Nat.add_sub_cancel' h.1, BitVec.ofNat_toNat, BitVec.setWidth_eq] using byte

/-! ### What a command leaves of the platform -/

/-- `q` still grants what `p` grants, and its memory is canonical if `p`'s is. -/
structure Platform.Usable (p q : Platform) : Prop where
  wf : p.mem.wf → q.mem.wf
  busErrs : q.busErrs = p.busErrs
  unclean : q.unclean = p.unclean
  raced : q.raced ⊆ p.raced

section
variable {p q r : Platform}

theorem Platform.Usable.refl (p : Platform) : p.Usable p := ⟨id, rfl, rfl, List.Subset.refl _⟩

theorem Platform.Usable.trans (h : p.Usable q) (k : q.Usable r) : p.Usable r :=
  ⟨k.wf ∘ h.wf, k.busErrs.trans h.busErrs, k.unclean.trans h.unclean, List.Subset.trans k.raced h.raced⟩

theorem Platform.Usable.grants (h : p.Usable q) {kind : AccessKind} {base len : Nat} (hg : p.grants kind base len) :
    q.grants kind base len := by
  refine ⟨fun a ha => ?_, fun a ha => ?_⟩
  · rw [Platform.busErr, h.busErrs]
    exact hg.1 a ha
  · have quiet := hg.2 a ha
    simp only [Platform.anyValue, Bool.or_eq_false_iff, List.contains_eq_mem, decide_eq_false_iff_not] at quiet ⊢
    exact ⟨fun hr => quiet.1 (h.raced hr), h.unclean ▸ quiet.2⟩

theorem Platform.SameBut.usable {a : Word} (h : p.SameBut a q) : p.Usable q :=
  ⟨h.wf, h.busErrs, h.unclean, h.raced ▸ List.Subset.refl _⟩

theorem Platform.usable_settle (p : Platform) : p.Usable p.settle := ⟨id, rfl, rfl, List.nil_subset _⟩

end

theorem engineStep_usable {s t : State} (h : engineStep s = .next t) : s.plat.Usable t.plat := by
  rcases engineStep_next h with ⟨-, rfl⟩ | ⟨-, g, p, hu, rfl⟩ | ⟨-, a, p, hu, rfl⟩
  · exact .refl _
  · have unit := (workUnit_ok_platform hu).usable
    dsimp only [settleWhenIdle]
    split
    · exact unit
    · exact unit.trans p.usable_settle
  · exact (workUnit_buserr_platform hu).usable.trans p.usable_settle

theorem engineRun_usable {n : Nat} {s t : State} (h : engineRun n s = .next t) : s.plat.Usable t.plat := by
  induction n generalizing s with
  | zero =>
    cases h
    exact .refl _
  | succ n ih =>
    cases hs : engineStep s with
    | next u =>
      rw [engineRun_succ hs] at h
      exact (engineStep_usable hs).trans (ih h)
    | fault f => simp [engineRun, hs] at h
    | refused r => simp [engineRun, hs] at h

theorem engineRun_started_usable {i : Instr} {n : Nat} {s t : State} (h : engineRun n (s.started i) = .next t) :
    s.plat.Usable t.plat :=
  engineRun_usable (s := s.started i) h

/-! ### NORMALIZE, then MIX -/

/-- A command that starts takes its turns (R404, R405). -/
theorem issue_of_exec {i : Instr} {n : Nat} {s t u : State} (hstart : exec i s = .next t)
    (hrun : engineRun n t = .next u) : issue i n s = .next u := by
  rw [issue, hstart]
  exact hrun

/-- The checks of NORMALIZE and MIX are among those of RUN (R901). -/
theorem firstFailure_of_run {i : Instr} {g : Regs} (hi : i ∈ [.normalize, .mix]) (hf : firstFailure .run g = .none) :
    firstFailure i g = .none := by
  obtain ⟨-, -, dim, weights, src, dst, -, apart⟩ := firstFailure_eq_none_iff.mp hf
  refine firstFailure_eq_none_iff.mpr ⟨fun e => absurd (e ▸ hi) (by decide), fun e => absurd (e ▸ hi) (by decide),
    fun _ => dim (by decide), fun _ => weights (by decide), fun _ => src (by decide), fun _ => dst (by decide),
    fun e => absurd (e ▸ hi) (by decide), fun _ => apart (by decide)⟩

/-- NORMALIZE leaves the normalised weights and completes (R510). -/
theorem engineRun_started_normalize (s : State) : engineRun 1 (s.started .normalize) = .next { s with
    reg := { s.reg.normalized.started .normalize with busy := false, done := true, progress := 1#32 }
    plat := s.plat.settle } := by
  rw [engineRun_succ (engineStep_ok rfl rfl), engineRun_zero]
  rfl

theorem firstFailure_mix_normalized (g : Regs) : firstFailure .mix g.normalized = firstFailure .mix g := by
  cases g
  rfl

/-- What the MIX after a NORMALIZE leaves, in terms of the registers `g` whose weights are normalised (R603). -/
theorem issue_mix_after_normalize {s : State} {g : Regs} {p : Platform} (hf : firstFailure .mix g = .none) (hw : p.mem.wf)
    (hr : p.grants .read g.src.toNat (3 * g.pixels)) (hwr : p.grants .write g.dst.toNat g.pixels) :
    ∃ t, issue .mix g.pixels { s with
        reg := { g.started .normalize with busy := false, done := true, progress := 1#32 }, plat := p } = .next t ∧
      t.reg = { g.started .mix with busy := false, done := true, progress := BitVec.ofNat 32 g.pixels } ∧
      (∀ i < g.pixels, t.plat.mem.regionByte g.dst.toNat i = g.mixOutput p.mem i) ∧
      (∀ a : Word, inRegion g.dst.toNat g.pixels a.toNat = false → t.plat.mem.read a = p.mem.read a) ∧
      p.Usable t.plat := by
  obtain ⟨started, t, mixed, regs, bytes, other, -, -⟩ := mixCompletes { s with
    reg := { g.started .normalize with busy := false, done := true, progress := 1#32 }, plat := p } rfl hf hw hr hwr
  exact ⟨t, issue_of_exec started mixed, regs, bytes, other, engineRun_started_usable mixed⟩

/-- NORMALIZE and then MIX leave the grays of the pixels under the normalised weights (R510, R603). -/
theorem issue_normalize_mix {s : State} (hb : s.reg.busy = false) (hf : firstFailure .run s.reg = .none)
    (hw : s.plat.mem.wf) (hr : s.plat.grants .read s.reg.src.toNat (3 * s.reg.pixels))
    (hwr : s.plat.grants .write s.reg.dst.toNat s.reg.pixels) :
    ∃ s₁ s₂, issue .normalize 1 s = .next s₁ ∧ issue .mix s.reg.pixels s₁ = .next s₂ ∧
      s₂.reg = { s.reg.normalized.started .mix with
        busy := false, done := true, progress := BitVec.ofNat 32 s.reg.pixels } ∧
      (∀ i < s.reg.pixels, s₂.plat.mem.regionByte s.reg.dst.toNat i = s.reg.normalized.mixOutput s.plat.mem i) ∧
      (∀ a : Word, inRegion s.reg.dst.toNat s.reg.pixels a.toNat = false → s₂.plat.mem.read a = s.plat.mem.read a) ∧
      s.plat.Usable s₂.plat := by
  have settled := s.plat.usable_settle
  have passes := (firstFailure_mix_normalized s.reg).trans (firstFailure_of_run (by decide) hf)
  have normalize := issue_of_exec (exec_started hb (firstFailure_of_run (by decide) hf)) (engineRun_started_normalize s)
  rw [← s.reg.normalized_pixels] at hr hwr ⊢
  obtain ⟨s₂, mix, regs, bytes, other, usable⟩ :=
    issue_mix_after_normalize (s := s) (p := s.plat.settle) passes hw (settled.grants hr) (settled.grants hwr)
  exact ⟨_, s₂, normalize, mix, regs, bytes, other, settled.trans usable⟩

/-! ### SUM, then VAR -/

/-- SUM and REMAP make only the checks of the image and of the destination region, which every command over the image makes
too, and these read the image's operands alone (R710, R811, R901). -/
theorem firstFailure_of_image {i j : Instr} {g h : Regs} (hi : i ∈ [.mix, .sum, .remap, .run])
    (hj : j = .sum ∨ j = .remap) (hf : firstFailure i g = .none) (hwidth : h.width = g.width) (hheight : h.height = g.height)
    (hdst : h.dst = g.dst) : firstFailure j h = .none := by
  obtain ⟨-, -, dim, -, -, dst, -, -⟩ := firstFailure_eq_none_iff.mp hf
  have dim := dim hi
  have dst := dst hi
  rw [← hwidth, ← hheight] at dim
  rw [← hdst, ← Regs.pixels_congr hwidth hheight] at dst
  obtain rfl | rfl := hj <;>
    exact firstFailure_eq_none_iff.mpr ⟨nofun, nofun, fun _ => dim, nofun, nofun, fun _ => dst, nofun, nofun⟩

/-- The results of SUM over at least one byte are within the bounds of R704. -/
theorem Regs.statsOk_of_sums {g : Regs} {m : Memory} {base : Nat} (hb : g.busy = false) (hpos : 0 < g.statN.toNat)
    (hN : g.statN.toNat ≤ 65535 ^ 2) (hs1 : g.s1.toNat = m.sampleSum base g.statN.toNat) (hq : g.q = 0#128) :
    g.StatsOk :=
  Regs.StatsBounded.statsOk ⟨fun _ => hpos, hN, hs1.trans_le (m.sampleSum_le _ _), by simp [hq]⟩ (by simp [hb])

/-- VAR passes its checks where the mean is complete and the bytes it counts are in range (R720). -/
theorem firstFailure_var {g : Regs} (hstats : g.stats = .mean) (hdst : g.dst.toNat + g.statN.toNat ≤ 2 ^ 32) :
    firstFailure .var g = .none :=
  firstFailure_eq_none_iff.mpr
    ⟨fun _ => by simp [hstats], nofun, nofun, nofun, nofun, nofun, fun _ => hdst, nofun⟩

/-- SUM and then VAR leave the statistics of the destination bytes (R710, R720). -/
theorem issue_sum_var {s : State} (hb : s.reg.busy = false) (hf : firstFailure .sum s.reg = .none)
    (hr : s.plat.grants .read s.reg.dst.toNat s.reg.pixels) :
    ∃ t u, issue .sum s.reg.pixels s = .next t ∧ issue .var s.reg.pixels t = .next u ∧
      u.reg = { s.reg.started .var with
        busy := false, done := true, progress := u.reg.progress, stats := .full
        statN := u.reg.statN, s1 := u.reg.s1, q := u.reg.q } ∧
      u.reg.statN.toNat = s.reg.pixels ∧ u.reg.s1.toNat = s.plat.mem.sampleSum s.reg.dst.toNat s.reg.pixels ∧
      u.reg.q.toNat = s.plat.mem.deviationSum s.reg.dst.toNat s.reg.pixels s.reg.pixels u.reg.s1.toNat ∧
      u.plat.mem = s.plat.mem ∧ s.plat.Usable u.plat := by
  obtain ⟨hpos, hdst⟩ := Regs.dst_of_passes (by decide) hf
  obtain ⟨started, t, summed, ht, s1, counted, q, mem⟩ := sumCompletes s hb hf hr
  have usable := engineRun_started_usable summed
  have regs := congrArg State.reg ht
  have idle : t.reg.busy = false := by rw [regs]
  have mean : t.reg.stats = .mean := by rw [regs]
  have dst : t.reg.dst = s.reg.dst := by rw [regs]; rfl
  have passes : firstFailure .var t.reg = .none := firstFailure_var mean (by rw [dst, counted]; exact hdst)
  have bounded : t.reg.StatsOk := Regs.statsOk_of_sums (m := s.plat.mem) (base := s.reg.dst.toNat) idle
    (by rw [counted]; exact hpos) (by rw [counted]; exact s.reg.pixels_le) (by rw [counted]; exact s1) q
  obtain ⟨started', u, deviated, hu, q', mem'⟩ := varCompletes t idle passes bounded
    (by rw [counted, dst]; exact usable.grants hr)
  have regs' := congrArg State.reg hu
  have s1' : u.reg.s1 = t.reg.s1 := by rw [regs']; rfl
  have statN' : u.reg.statN = t.reg.statN := by rw [regs']; rfl
  rw [counted] at deviated
  rw [mem, counted, dst, ← s1'] at q'
  refine ⟨t, u, issue_of_exec started summed, issue_of_exec started' deviated, ?_, by rw [statN', counted],
    by rw [s1', s1], q', mem'.trans mem, usable.trans (engineRun_started_usable deviated)⟩
  rw [s1', statN', regs', regs]
  rfl

/-! ### LUT_BUILD, then REMAP -/

/-- LUT_BUILD and then REMAP leave the table of the statistics, and the destination bytes through it (R810, R811). -/
theorem issue_lutBuild_remap {s : State} (hb : s.reg.busy = false) (hs : s.reg.stats = .full)
    (hf : firstFailure .remap s.reg = .none) (hw : s.plat.mem.wf)
    (hr : s.plat.grants .read s.reg.dst.toNat s.reg.pixels) (hwr : s.plat.grants .write s.reg.dst.toNat s.reg.pixels) :
    ∃ t u, issue .lutBuild 256 s = .next t ∧ issue .remap s.reg.pixels t = .next u ∧
      u.reg = { s.reg.started .remap with
        busy := false, done := true, progress := BitVec.ofNat 32 s.reg.pixels, lut := u.reg.lut } ∧
      (∀ v : Byte, u.reg.lut.entry v = BitVec.ofNat 8
        (contrastEntry s.reg.statN.toNat s.reg.s1.toNat s.reg.q.toNat s.reg.contrast v.toNat)) ∧
      (∀ i < s.reg.pixels, u.plat.mem.regionByte s.reg.dst.toNat i =
        u.reg.lut.entry (s.plat.mem.regionByte s.reg.dst.toNat i)) ∧
      (∀ a : Word, inRegion s.reg.dst.toNat s.reg.pixels a.toNat = false → u.plat.mem.read a = s.plat.mem.read a) ∧
      s.plat.Usable u.plat := by
  obtain ⟨started, t, built, ht, table⟩ := lutBuildCompletes s hb hs
  have usable := engineRun_started_usable built
  have regs := congrArg State.reg ht
  have mem : t.plat.mem = s.plat.mem := by rw [ht]; rfl
  have idle : t.reg.busy = false := by rw [regs]
  have dst : t.reg.dst = s.reg.dst := by rw [regs]; rfl
  have pixels : t.reg.pixels = s.reg.pixels := Regs.pixels_congr (by rw [regs]; rfl) (by rw [regs]; rfl)
  have passes : firstFailure .remap t.reg = .none := by rw [regs]; exact hf
  obtain ⟨started', u, remapped, regs', output, other, -, -⟩ := remapCompletes t idle passes (usable.wf hw)
    (by rw [pixels, dst]; exact usable.grants hr) (by rw [pixels, dst]; exact usable.grants hwr)
  have lut : u.reg.lut = t.reg.lut := by rw [regs']; rfl
  rw [pixels] at remapped
  rw [pixels, dst, mem] at output other
  rw [← lut] at table output
  refine ⟨t, u, issue_of_exec started built, issue_of_exec started' remapped, ?_, table, output, other,
    usable.trans (engineRun_started_usable remapped)⟩
  rw [lut, regs', pixels, regs]
  rfl

/-! ### SUM, VAR, LUT_BUILD, REMAP -/

/-- `u` holds the statistics of the `n` bytes `byte`, the table of these statistics under the contrast `c`, and the bytes
through the table in the region at `base`; elsewhere its memory is `m` (R701, R810, R811). -/
structure State.Contrasted (u : State) (n base : Nat) (c : Int) (byte : Nat → Byte) (m : Memory) : Prop where
  statN : u.reg.statN.toNat = n
  s1 : u.reg.s1.toNat = ((List.range n).map fun i => (byte i).toNat).sum
  q : u.reg.q.toNat = ((List.range n).map fun i => squareOfDeviation n u.reg.s1.toNat (byte i).toNat).sum
  table : ∀ v : Byte, u.reg.lut.entry v = BitVec.ofNat 8 (contrastEntry n u.reg.s1.toNat u.reg.q.toNat c v.toNat)
  output : ∀ i < n, u.plat.mem.regionByte base i = u.reg.lut.entry (byte i)
  other : ∀ a : Word, inRegion base n a.toNat = false → u.plat.mem.read a = m.read a

section
variable {u v : State} {n base : Nat} {c : Int} {byte : Nat → Byte} {m : Memory}

/-- These determine the statistics, the table and the memory. -/
theorem State.Contrasted.unique (h : u.Contrasted n base c byte m) (k : v.Contrasted n base c byte m) :
    u.reg.statN = v.reg.statN ∧ u.reg.s1 = v.reg.s1 ∧ u.reg.q = v.reg.q ∧ u.reg.lut = v.reg.lut ∧
      (u.plat.mem.wf → v.plat.mem.wf → u.plat.mem = v.plat.mem) := by
  have s1 : u.reg.s1 = v.reg.s1 := BitVec.eq_of_toNat_eq (h.s1.trans k.s1.symm)
  have q : u.reg.q = v.reg.q := BitVec.eq_of_toNat_eq (by rw [h.q, k.q, s1])
  have lut : u.reg.lut = v.reg.lut := Lut.ext_entry fun x => by rw [h.table, k.table, s1, q]
  refine ⟨BitVec.eq_of_toNat_eq (h.statN.trans k.statN.symm), s1, q, lut, fun hu hv => ?_⟩
  exact Memory.ext_region hu hv (fun i hi => by rw [h.output i hi, k.output i hi, lut])
    fun a ha => (h.other a ha).trans (k.other a ha).symm

end

/-- SUM, VAR, LUT_BUILD and REMAP, each waited for, leave the statistics of the destination bytes, their table, and the bytes
through it. -/
theorem issue_sum_var_lutBuild_remap {s : State} {byte : Nat → Byte} {m : Memory} (hb : s.reg.busy = false)
    (hf : firstFailure .sum s.reg = .none) (hw : s.plat.mem.wf) (hr : s.plat.grants .read s.reg.dst.toNat s.reg.pixels)
    (hwr : s.plat.grants .write s.reg.dst.toNat s.reg.pixels)
    (hbytes : ∀ i < s.reg.pixels, s.plat.mem.regionByte s.reg.dst.toNat i = byte i)
    (hother : ∀ a : Word, inRegion s.reg.dst.toNat s.reg.pixels a.toNat = false → s.plat.mem.read a = m.read a) :
    ∃ s₁ s₂ s₃ s₄, issue .sum s.reg.pixels s = .next s₁ ∧ issue .var s.reg.pixels s₁ = .next s₂ ∧
      issue .lutBuild 256 s₂ = .next s₃ ∧ issue .remap s.reg.pixels s₃ = .next s₄ ∧
      s₄.reg = { s.reg.started .remap with
        busy := false, done := true, progress := BitVec.ofNat 32 s.reg.pixels, stats := .full
        statN := s₄.reg.statN, s1 := s₄.reg.s1, q := s₄.reg.q, lut := s₄.reg.lut } ∧
      s₄.Contrasted s.reg.pixels s.reg.dst.toNat s.reg.contrast byte m ∧ s₄.plat.mem.wf := by
  obtain ⟨s₁, s₂, sum, var, regs, statN, s1, q, mem, usable⟩ := issue_sum_var hb hf hr
  have dst : s₂.reg.dst = s.reg.dst := by rw [regs]; rfl
  have width : s₂.reg.width = s.reg.width := by rw [regs]; rfl
  have height : s₂.reg.height = s.reg.height := by rw [regs]; rfl
  have pixels := Regs.pixels_congr width height
  have contrast : s₂.reg.contrast = s.reg.contrast := by rw [regs]; rfl
  have passes := firstFailure_of_image (by decide) (.inr rfl) hf width height dst
  obtain ⟨s₃, s₄, lutBuild, remap, regs', table, output, other, usable'⟩ := issue_lutBuild_remap (s := s₂)
    (by rw [regs]) (by rw [regs]) passes (usable.wf hw) (by rw [pixels, dst]; exact usable.grants hr)
    (by rw [pixels, dst]; exact usable.grants hwr)
  have statN' : s₄.reg.statN = s₂.reg.statN := by rw [regs']; rfl
  have s1' : s₄.reg.s1 = s₂.reg.s1 := by rw [regs']; rfl
  have q' : s₄.reg.q = s₂.reg.q := by rw [regs']; rfl
  rw [← statN'] at statN table
  rw [← s1'] at s1 q table
  rw [← q'] at q table
  rw [statN, contrast] at table
  rw [pixels, dst, mem] at output other
  rw [pixels] at remap regs'
  refine ⟨s₁, s₂, s₃, s₄, sum, var, lutBuild, remap, ?_, ⟨statN, s1.trans (Memory.sampleSum_of_bytes hbytes),
    q.trans (Memory.deviationSum_of_bytes hbytes _ _), table, fun i hi => (output i hi).trans (by rw [hbytes i hi]),
    fun a ha => (other a ha).trans (hother a ha)⟩, usable'.wf (usable.wf hw)⟩
  rw [statN', s1', q', regs', regs]
  rfl

/-! ### Settled: RUN and its parts -/

/-- Settles O28: both leave what the statistics, the table and the output of the same mixed image determine. -/
theorem runEqualsItsParts : Obligations.RunEqualsItsParts := by
  intro s u hb hf hw hsrc hwr hr
  obtain ⟨s₁, s₂, normalize, mix, regs, bytes, other, usable⟩ := issue_normalize_mix hb hf hw hsrc hwr
  have idle : s₂.reg.busy = false := by rw [regs]
  constructor
  · intro hcl hrun
    obtain ⟨started, t, run, regs', statN, s1, q, table, output, other', -, -⟩ :=
      runWithContrastSetCompletes s hb hcl hf hw hsrc (hr hcl) hwr
    obtain rfl := Host.Outcome.next.inj ((issue_of_exec started run).symm.trans hrun)
    have dst : s₂.reg.dst = s.reg.dst := by rw [regs]; rfl
    have width : s₂.reg.width = s.reg.width := by rw [regs]; rfl
    have height : s₂.reg.height = s.reg.height := by rw [regs]; rfl
    have pixels := Regs.pixels_congr width height
    have contrast : s₂.reg.contrast = s.reg.contrast := by rw [regs]; rfl
    have passes := firstFailure_of_image (by decide) (.inl rfl) hf width height dst
    have parts := issue_sum_var_lutBuild_remap (byte := s.reg.normalized.mixOutput s.plat.mem) (m := s.plat.mem) idle passes
      (usable.wf hw)
    rw [pixels, dst, contrast] at parts
    obtain ⟨s₃, s₄, s₅, s₆, sum, var, lutBuild, remap, regs₆, contrasted, wf⟩ :=
      parts (usable.grants (hr hcl)) (usable.grants hwr) bytes other
    have whole : t.Contrasted s.reg.pixels s.reg.dst.toNat s.reg.contrast
      (s.reg.normalized.mixOutput s.plat.mem) s.plat.mem := ⟨statN, s1, q, table, output, other'⟩
    obtain ⟨eN, eS1, eQ, eLut, eMem⟩ := contrasted.unique whole
    refine ⟨s₁, s₂, s₃, s₄, s₅, s₆, normalize, mix, sum, var, lutBuild, remap, by rw [regs₆],
      eMem wf ((engineRun_started_usable run).wf hw), ?_⟩
    rw [eN, eS1, eQ, eLut] at regs₆
    rw [regs₆, regs, regs']
    rfl
  · intro hcl hrun
    obtain ⟨started, t, run, regs', bytes', other', -, -⟩ := runWithContrastUnsetCompletes s hb hcl hf hw hsrc hwr
    obtain rfl := Host.Outcome.next.inj ((issue_of_exec started run).symm.trans hrun)
    have mem := Memory.ext_region (usable.wf hw) ((engineRun_started_usable run).wf hw)
      (fun i hi => (bytes i hi).trans (bytes' i hi).symm) fun a ha => (other a ha).trans (other' a ha).symm
    refine ⟨s₁, s₂, normalize, mix, idle, mem, ?_⟩
    rw [regs, regs']
    rfl

end Sys2Proof.Machine

/-! ## The interrupt output (spec/60_exceptions.md R1010) -/

namespace Sys2Proof.Machine

theorem Regs.irq_iff {g : Regs} : g.irq = true ↔ g.ctrlIrqEn = true ∧ (g.done = true ∨ g.err = true) := by
  simp [Regs.irq]

/-- With a cause pending, IRQ is IRQ_EN. -/
theorem Regs.irq_of_done_or_err {g : Regs} (h : g.done = true ∨ g.err = true) : g.irq = g.ctrlIrqEn := by
  rcases h with h | h <;> simp [Regs.irq, h]

/-- With no cause pending, IRQ is low. -/
theorem Regs.irq_of_not_done_not_err {g : Regs} (hd : g.done = false) (he : g.err = false) : g.irq = false := by
  simp [Regs.irq, hd, he]

/-- An arrival at an idle engine leaves IRQ high only where a check fails and IRQ_EN = 1 (R402, R403). -/
theorem exec_irq {s t : State} {i : Instr} (hb : s.reg.busy = false) (h : exec i s = .next t) :
    t.reg.irq = (s.reg.ctrlIrqEn && decide (firstFailure i s.reg ≠ .none)) := by
  rcases exec_next h with ⟨hbusy, -⟩ | ⟨-, hf, rfl⟩ | ⟨-, hf, rfl⟩
  · exact absurd hbusy (by simp [hb])
  · rw [Regs.irq_of_done_or_err (.inr rfl), decide_eq_true hf, Bool.and_true]
    rfl
  · rw [Regs.irq_of_not_done_not_err rfl rfl, hf]
    simp

/-- A STATUS write of the bits of DONE and ERR leaves IRQ low (R112). -/
theorem Regs.clearFlags_irq {d : Word} (hd : d.getLsbD 1 = true) (he : d.getLsbD 2 = true) (g : Regs) :
    (g.clearFlags d).irq = false :=
  Regs.irq_of_not_done_not_err (by simp [hd]) (by simp [he])

/-- The turn that ends a command, in success or in a bus error, leaves IRQ at IRQ_EN (R406, R407). -/
theorem engineStep_irq_of_end {s t : State} (hb : s.reg.busy = true) (h : engineStep s = .next t)
    (hend : t.reg.busy = false) : t.reg.irq = s.reg.ctrlIrqEn := by
  have enabled : t.reg.ctrlIrqEn = s.reg.ctrlIrqEn := by rw [engineStep_reg_frame h]
  obtain ⟨-, -, same | ⟨-, cause⟩, -⟩ := engineStep_status h
  · rw [hend, hb] at same
    cases same
  · exact (Regs.irq_of_done_or_err cause).trans enabled

/-- Settles O13: an arrival leaves ERR exactly where a check fails, a STATUS write of 6 clears both causes, and the end of a
command leaves one of them set. -/
theorem irqFollowsDoneAndErr : Obligations.IrqFollowsDoneAndErr := by
  refine ⟨fun _ => Regs.irq_iff, fun _ _ _ => exec_irq, fun s t h => ?_, fun _ _ => engineStep_irq_of_end⟩
  obtain rfl := Host.Outcome.next.inj ((perform_regWrite_offset (r := .status) (by decide) _ s).symm.trans h)
  exact Regs.clearFlags_irq (by decide) (by decide) s.reg

end Sys2Proof.Machine

/-! ## The state after reset and the reset event (spec/70_reset_and_hazards.md R1100 to R1102) -/

namespace Sys2Proof.Machine

/-! ### Bytes drawn over a range -/

/-- A range of draws takes one free value for each byte. -/
theorem Platform.drawRange_draws (base n : Nat) (p : Platform) : (p.drawRange base n).draws = p.draws + n := by
  induction n with
  | zero => rfl
  | succ n ih => rw [Platform.drawRange, Platform.drawAt_draws, ih, Nat.add_assoc]

/-- Byte `i` of a range that is drawn takes free value `i` (I4): the draws after it are at other addresses. -/
theorem Platform.regionByte_drawRange {base n i : Nat} {p : Platform} (hw : p.mem.wf) (hrange : base + n ≤ 2 ^ 32)
    (hi : i < n) : (p.drawRange base n).mem.regionByte base i = Config.freeByte (p.draws + i) := by
  induction n with
  | zero => exact absurd hi (Nat.not_lt_zero i)
  | succ n ih =>
    have other := (p.drawRange base n).drawAt_same (BitVec.ofNat 32 (base + n))
    obtain rfl | hlt : i = n ∨ i < n := by omega
    · rw [← Platform.drawRange_draws base i p]
      exact Memory.read_write_same (Platform.drawRange_wf base i hw) _ _
    · refine (other.read _ fun e => ?_).trans (ih (by omega) hlt)
      have := congrArg BitVec.toNat e
      simp only [BitVec.toNat_ofNat] at this
      omega

/-- Drawing a range changes no byte outside the region it makes up. -/
theorem Platform.drawRange_read_outside {base n : Nat} {a : Word} (p : Platform) (hrange : base + n ≤ 2 ^ 32)
    (h : inRegion base n a.toNat = false) : (p.drawRange base n).mem.read a = p.mem.read a := by
  refine Platform.drawRange_read_other base n p a ?_
  rintro i hi rfl
  rw [inRegion_eq_false, BitVec.toNat_ofNat] at h
  omega

/-! ### The reset event -/

/-- A reset while no command runs leaves memory (R1101). -/
theorem resetEvent_mem_idle {s : State} (hb : s.reg.busy = false) : (resetEvent s).plat.mem = s.plat.mem := by
  simp [resetEvent, hb]

/-- A reset while a command runs draws its destination region (R1102). -/
theorem resetEvent_mem_busy {s : State} (hb : s.reg.busy = true) :
    (resetEvent s).plat.mem = (s.plat.drawRange s.reg.dst.toNat s.reg.dstLen).mem := by
  simp [resetEvent, hb]

/-- Settles O45: only a running command's destination region is drawn, one free value for each byte. -/
theorem resetEventEffect : Obligations.ResetEventEffect := by
  refine fun s => ⟨_, rfl, rfl, resetEvent_mem_idle, fun a houtside hrange => ?_, fun hw hb hrange i hi => ?_⟩
  · cases hb : s.reg.busy
    · rw [resetEvent_mem_idle hb]
    · rw [resetEvent_mem_busy hb]
      exact s.plat.drawRange_read_outside hrange houtside
  · rw [resetEvent_mem_busy hb]
    exact Platform.regionByte_drawRange hw hrange hi

/-! ### The state after reset -/

/-- Settles O34: each register's fields are 0 after reset, and the table is the identity. -/
theorem resetRegisterValues : Obligations.ResetRegisterValues := by
  refine ⟨rfl, fun r hid hlut => ?_, Lut.entry_identity, by decide, by decide, rfl,
    Regs.irq_of_not_done_not_err rfl rfl⟩
  cases r
  case id => exact absurd rfl hid
  case lutw j => exact absurd rfl (hlut j)
  all_goals rfl

/-- Settles O35: no command runs, the statistics are 0, and the platform has nothing raced or cached. -/
theorem resetMeetsInvariants : Obligations.ResetMeetsInvariants :=
  have quiet : State.reset.RacesOk := ⟨fun _ => rfl, fun _ => ⟨rfl, rfl⟩⟩
  ⟨⟨by decide, Regs.engineOk_of_idle rfl, by decide, quiet, Memory.initial_wf⟩, nofun⟩

end Sys2Proof.Machine

/-! ## The number of steps of a command (spec/70_reset_and_hazards.md R1130, R1131; spec/40_lifecycle.md R411) -/

namespace Sys2Proof.Machine

/-! ### The steps that are left -/

/-- The turns that RUN takes from the first unit of a phase to its end, phase by phase in the order of R901 (R1130). -/
def Regs.runStepsFrom (g : Regs) : Phase → Nat
  | .none => 0
  | .normalize => if g.cl then 1 + 4 * g.pixels + 256 else 1 + g.pixels
  | .mix => if g.cl then 4 * g.pixels + 256 else g.pixels
  | .sum => 3 * g.pixels + 256
  | .var => 2 * g.pixels + 256
  | .lutBuild => 256 + g.pixels
  | .remap => g.pixels

/-- The turns that a running command takes from where it stands to its end if no unit gets buserr: the units left in its phase,
and the later phases of a RUN. A turn that does not end the command lowers it by 1 (R1131). -/
def Regs.stepsLeft (g : Regs) : Nat :=
  g.unitCount g.phase - g.progress.toNat + (g.nextPhase g.phase).elim 0 g.runStepsFrom

theorem Regs.runStepsFrom_congr {g h : Regs} (hcl : h.cl = g.cl) (hpix : h.pixels = g.pixels) :
    h.runStepsFrom = g.runStepsFrom := by
  funext ph
  cases ph <;> simp only [Regs.runStepsFrom, hcl, hpix]

/-- RUN does the units of a phase, and then the phases after it (R901). -/
theorem Regs.runStepsFrom_eq {g : Regs} {ph : Phase} (hop : g.op = 7#4) (hph : ph ≠ .none)
    (hN : ph = .var → g.statN.toNat = g.pixels) :
    g.runStepsFrom ph = g.unitCount ph + (g.nextPhase ph).elim 0 g.runStepsFrom := by
  cases ph
  case none => exact absurd rfl hph
  case normalize | mix =>
    cases hcl : g.cl <;> simp +arith [Regs.runStepsFrom, Regs.unitCount, Regs.nextPhase, hop, hcl]
  case var => simp +arith [Regs.runStepsFrom, Regs.unitCount, Regs.nextPhase, hop, hN rfl]
  all_goals simp +arith [Regs.runStepsFrom, Regs.unitCount, Regs.nextPhase, hop]

theorem Regs.stepsLeft_of_last {g : Regs} (hn : g.nextPhase g.phase = none) :
    g.stepsLeft = g.unitCount g.phase - g.progress.toNat := by
  simp [Regs.stepsLeft, hn]

/-- A RUN has the turns from the start of its phase left, but those it has taken. -/
theorem Regs.stepsLeft_of_run {g : Regs} (hop : g.op = 7#4) (k : g.PositionOk) :
    g.stepsLeft = g.runStepsFrom g.phase - g.progress.toNat := by
  have hph := ((Regs.phaseFits_run_iff hop).mp k.fits).1
  have hprogress := k.progress
  rw [Regs.runStepsFrom_eq hop hph fun hp => k.counted ⟨hop, .inl hp⟩, Regs.stepsLeft]
  omega

/-! ### The counts of R1130 -/

/-- A command other than RUN has one phase, whose units are its step count (R1130). -/
theorem Regs.commandSteps_of_single {g : Regs} (hop : g.op ≠ 7#4) (k : g.PositionOk) :
    g.commandSteps = g.unitCount g.phase := by
  rcases Regs.op_of_phaseFits k.fits with h | h
  · cases hp : g.phase <;> simp [Regs.commandSteps, Regs.unitCount, h, hp, Phase.code]
  · exact absurd (BitVec.eq_of_toNat_eq h) hop

theorem Regs.commandSteps_of_run {g : Regs} (hop : g.op = 7#4) : g.commandSteps = g.runStepsFrom .normalize := by
  simp [Regs.commandSteps, Regs.runStepsFrom, hop]

theorem Regs.nextPhase_of_single {g : Regs} (hop : g.op ≠ 7#4) (ph : Phase) : g.nextPhase ph = none := by
  simp [Regs.nextPhase, hop]

/-- No phase of a RUN has more turns to the end than the first (R901). -/
theorem Regs.runStepsFrom_le {g : Regs} (hop : g.op = 7#4) (k : g.PositionOk) :
    g.runStepsFrom g.phase ≤ g.runStepsFrom .normalize := by
  obtain ⟨-, latched | first | second⟩ := (Regs.phaseFits_run_iff hop).mp k.fits
  · cases g.phase <;> simp only [Regs.runStepsFrom, latched, if_true] <;> omega
  · rw [first]
  · rw [second]
    simp only [Regs.runStepsFrom]
    split <;> omega

/-- A running command has no more turns left than its step count. -/
theorem Regs.stepsLeft_le_commandSteps {g : Regs} (k : g.PositionOk) : g.stepsLeft ≤ g.commandSteps := by
  by_cases hop : g.op = 7#4
  · rw [Regs.stepsLeft_of_run hop k, Regs.commandSteps_of_run hop]
    exact (Nat.sub_le _ _).trans (Regs.runStepsFrom_le hop k)
  · rw [Regs.stepsLeft_of_last (Regs.nextPhase_of_single hop _), Regs.commandSteps_of_single hop k]
    exact Nat.sub_le _ _

/-- A command that has just started has its whole step count left. -/
theorem Regs.started_stepsLeft {i : Instr} {g : Regs} (k : (g.started i).PositionOk) :
    (g.started i).stepsLeft = (g.started i).commandSteps := by
  by_cases hop : (g.started i).op = 7#4
  · obtain rfl : i = .run := opcodeFor_injective hop
    exact (Regs.stepsLeft_of_run hop k).trans (Regs.commandSteps_of_run hop).symm
  · rw [Regs.stepsLeft_of_last (Regs.nextPhase_of_single hop _), Regs.commandSteps_of_single hop k]
    rfl

/-! ### One turn takes one step -/

theorem workUnit_ok_stepsLeft {g g' : Regs} {p p' : Platform} (h : workUnit g p = .ok g' p') :
    g'.stepsLeft = g.stepsLeft := by
  rw [workUnit_ok_regs h]
  rfl

/-- The end of a unit takes one of the turns left: it leaves the command running, or it was the last and completes it. -/
theorem Regs.advance_stepsLeft {g : Regs} (k : g.PositionOk) (hb : g.busy = true)
    (k' : g.advance.busy = true → g.advance.PositionOk) :
    (g.SameStatus g.advance ∧ g.stepsLeft = g.advance.stepsLeft + 1) ∨
    (g.advance.busy = false ∧ g.advance.done = true ∧ g.stepsLeft = 1) := by
  have hprogress := k.progress
  rcases g.advance_cases with ⟨hmore, e⟩ | ⟨hlast, ph, hn, e⟩ | ⟨hlast, hn, e⟩
  · refine .inl ⟨e ▸ ⟨rfl, rfl, rfl, rfl⟩, ?_⟩
    have counted := Regs.countUnit_progress_toNat hprogress
    have left : g.countUnit.stepsLeft =
      g.unitCount g.phase - g.countUnit.progress.toNat + (g.nextPhase g.phase).elim 0 g.runStepsFrom := rfl
    rw [e, left, counted, Regs.stepsLeft]
    omega
  · have hop := (Regs.nextPhase_eq_some hn).1
    have same : g.SameStatus g.advance := e ▸ ⟨by simp, by simp, by simp, by simp⟩
    refine .inl ⟨same, ?_⟩
    have left := Regs.stepsLeft_of_run (by simpa [e] using hop) (k' (same.busy.trans hb))
    rw [Regs.runStepsFrom_congr (g := g) (by simp [e]) (by simp [e])] at left
    simp only [e, Regs.enterPhase_phase, Regs.enterPhase_progress, BitVec.toNat_zero, Nat.sub_zero] at left
    rw [e, left, Regs.stepsLeft, hn, Option.elim_some]
    omega
  · refine .inr ⟨by rw [e]; rfl, by rw [e]; rfl, ?_⟩
    rw [Regs.stepsLeft_of_last hn]
    omega

/-- A turn of a running command takes one of the turns left, and ends the command if it was the last; or it ends in a bus
error (R405 to R407). -/
theorem engineStep_stepsLeft {s t : State} (hok : s.reg.InBounds) (hb : s.reg.busy = true) (h : engineStep s = .next t) :
    (t.reg.busy = true ∧ t.reg.done = s.reg.done ∧ s.reg.stepsLeft = t.reg.stepsLeft + 1) ∨
    (t.reg.busy = false ∧ t.reg.done = true ∧ s.reg.stepsLeft = 1) ∨
    (t.reg.busy = false ∧ t.reg.err = true ∧ t.reg.done = s.reg.done) := by
  have hok' := engineStep_inBounds hok h
  rcases engineStep_next h with ⟨hidle, -⟩ | ⟨-, g, p, hu, rfl⟩ | ⟨-, a, p, -, rfl⟩
  · cases hb.symm.trans hidle
  · have unit := workUnit_ok_sameStatus hu
    have hg := unit.busy.trans hb
    obtain ⟨-, k⟩ := (workUnit_ok_engineOk hok.engine hu).parts hg
    rw [← workUnit_ok_stepsLeft hu]
    rcases Regs.advance_stepsLeft k hg fun hb' => (hok'.engine.parts hb').2 with ⟨same, left⟩ | last
    · exact .inl ⟨same.busy.trans hg, same.done.trans unit.done, left⟩
    · exact .inr (.inl last)
  · exact .inr (.inr ⟨rfl, rfl, rfl⟩)

/-! ### The turns to the end -/

/-- Turns after the end of a command change nothing (R1025). -/
theorem engineRun_idle {s : State} (hb : s.reg.busy = false) (n : Nat) : engineRun n s = .next s := by
  induction n with
  | zero => rfl
  | succ n ih => rw [engineRun_succ (engineStep_idle hb), ih]

/-- A running command has ended, with DONE or ERR, after the turns it has left (R411, R1131). -/
theorem engineRun_ends {n : Nat} {s : State} (hok : s.reg.InBounds) (hb : s.reg.busy = true) (hn : s.reg.stepsLeft ≤ n) :
    ∃ t, engineRun n s = .next t ∧ t.reg.busy = false ∧ (t.reg.done = true ∨ t.reg.err = true) := by
  induction n generalizing s with
  | zero =>
    have := (hok.engine.parts hb).2.progress
    simp only [Regs.stepsLeft] at hn
    omega
  | succ n ih =>
    obtain ⟨u, hu⟩ := engineStep_isNext hok.engine
    rw [engineRun_succ hu]
    rcases engineStep_stepsLeft hok hb hu with ⟨hbusy, -, left⟩ | ⟨hidle, hdone, -⟩ | ⟨hidle, herr, -⟩
    · exact ih (engineStep_inBounds hok hu) hbusy (by omega)
    · exact ⟨u, engineRun_idle hidle n, hidle, .inl hdone⟩
    · exact ⟨u, engineRun_idle hidle n, hidle, .inr herr⟩

/-- A command that ends with DONE was running before each of the turns it had left: only a bus error ends it earlier, and that
leaves DONE clear (R406, R407). -/
theorem engineRun_busy_of_done {n m : Nat} {s t : State} (hok : s.reg.InBounds) (hb : s.reg.busy = true)
    (hnot : s.reg.done = false) (hrun : engineRun n s = .next t) (hdone : t.reg.done = true) (hm : m < s.reg.stepsLeft) :
    ∃ u, engineRun m s = .next u ∧ u.reg.busy = true := by
  induction m generalizing s n with
  | zero => exact ⟨s, rfl, hb⟩
  | succ m ih =>
    cases n with
    | zero =>
      cases hrun
      cases hnot.symm.trans hdone
    | succ n =>
      obtain ⟨u, hu⟩ := engineStep_isNext hok.engine
      rw [engineRun_succ hu] at hrun ⊢
      rcases engineStep_stepsLeft hok hb hu with ⟨hbusy, hsame, left⟩ | ⟨-, -, left⟩ | ⟨hidle, -, hsame⟩
      · exact ih (engineStep_inBounds hok hu) hbusy (hsame.trans hnot) hrun (by omega)
      · omega
      · rw [engineRun_idle hidle] at hrun
        cases hrun
        cases (hsame.trans hnot).symm.trans hdone

/-- Settles O41: each turn lowers the number of turns left by 1 or ends the command, and that number is at most the step count,
and equal to it at a start. -/
theorem everyCommandEnds : Obligations.EveryCommandEnds := by
  refine ⟨fun s hb _ he hs => ?_, fun s i _ hf hs => ?_, fun s => ⟨rfl, rfl, rfl, rfl, rfl, rfl, rfl, rfl⟩⟩
  · exact engineRun_ends ⟨he, hs⟩ hb (Regs.stepsLeft_le_commandSteps (he.parts hb).2)
  · have hok : (s.started i).reg.InBounds := Regs.started_inBounds hf hs.bounded
    have left := Regs.started_stepsLeft (hok.engine.parts rfl).2
    obtain ⟨t, hrun, hidle, hend⟩ := engineRun_ends hok rfl left.le
    exact ⟨t, hrun, hidle, hend, fun hdone m hm => engineRun_busy_of_done hok rfl rfl hrun hdone (hm.trans_eq left.symm)⟩

end Sys2Proof.Machine

/-! ## Memory and the bookkeeping of races and caches (spec/20_memory.md R223, R228) -/

namespace Sys2Proof.Machine

/-! ### Canonical platforms -/

/-- Memory is in its canonical form, and a coherent platform has nothing to clean or invalidate (R228). -/
structure Platform.Canonical (p : Platform) : Prop where
  mem : p.mem.wf
  caches : p.coherent = true → p.unclean = [] ∧ p.stale = []

section
variable {p q : Platform}

/-- An access of the engine keeps a platform canonical. -/
theorem Platform.SameBut.canonical {a : Word} (h : p.SameBut a q) (hp : p.Canonical) : q.Canonical := by
  refine ⟨h.wf hp.mem, fun hc => ?_⟩
  have hcoh : p.coherent = true := h.coherent ▸ hc
  rw [h.unclean, h.stale hcoh]
  exact hp.caches hcoh

theorem Platform.Canonical.settle (hp : p.Canonical) : p.settle.Canonical := ⟨hp.mem, hp.caches⟩

theorem Platform.Canonical.drawRange (hp : p.Canonical) (base n : Nat) : (p.drawRange base n).Canonical := by
  obtain ⟨-, hcoh, -, hunclean, hstale, -⟩ := p.drawRange_frame base n
  refine ⟨p.drawRange_wf base n hp.mem, ?_⟩
  rw [hcoh, hunclean, hstale]
  exact hp.caches

end

/-! ### What keeps a platform canonical -/

theorem engineStep_canonical {s t : State} (hp : s.plat.Canonical) (h : engineStep s = .next t) : t.plat.Canonical := by
  rcases engineStep_next h with ⟨-, rfl⟩ | ⟨-, g, p, hu, rfl⟩ | ⟨-, a, p, hu, rfl⟩
  · exact hp
  · have unit : p.Canonical := (workUnit_ok_platform hu).canonical hp
    dsimp only [settleWhenIdle]
    split
    · exact unit
    · exact unit.settle
  · exact ((workUnit_buserr_platform hu).canonical hp).settle

theorem hostMemWrite_coherent (a : Word) (v : Byte) (s : State) :
    (hostMemWrite a v s).plat.coherent = s.plat.coherent := by
  dsimp only [hostMemWrite]
  split <;> split <;> rfl

/-- On a coherent platform a host write leaves nothing in the host's caches (R228). -/
theorem hostMemWrite_caches {s : State} (hc : s.plat.coherent = true) (a : Word) (v : Byte) :
    (hostMemWrite a v s).plat.unclean = s.plat.unclean ∧ (hostMemWrite a v s).plat.stale = s.plat.stale := by
  cases ho : s.reg.owns a <;> simp [hostMemWrite, hc, ho]

/-- A host write puts one byte into memory: the host's, or a free value where the engine owns the byte (R221, R223). -/
theorem hostMemWrite_canonical {s : State} (hp : s.plat.Canonical) (a : Word) (v : Byte) :
    (hostMemWrite a v s).plat.Canonical := by
  refine ⟨?_, fun hc => ?_⟩
  · cases ho : s.reg.owns a
    · rw [(hostMemWrite_free ho v).1]
      exact Memory.write_wf hp.mem _ _
    · rw [(hostMemWrite_owned ho v).1]
      exact Memory.write_wf hp.mem _ _
  · rw [hostMemWrite_coherent] at hc
    obtain ⟨hunclean, hstale⟩ := hostMemWrite_caches hc a v
    rw [hunclean, hstale]
    exact hp.caches hc

theorem hostMemRead_canonical {s : State} (hp : s.plat.Canonical) (a : Word) : (hostMemRead a s).plat.Canonical := by
  unfold hostMemRead
  split
  · exact ⟨hp.mem, hp.caches⟩
  · exact hp

/-- A clean only takes lines off the list. -/
theorem hostCacheClean_canonical {s : State} (hp : s.plat.Canonical) (base len : Nat) :
    (hostCacheClean base len s).plat.Canonical := by
  refine ⟨hp.mem, fun hc => ?_⟩
  obtain ⟨hunclean, hstale⟩ := hp.caches hc
  simp [hostCacheClean, hunclean, hstale]

/-- An invalidate draws the bytes that were not cleaned, and on a coherent platform there are none. -/
theorem hostCacheInvalidate_canonical {s : State} (hp : s.plat.Canonical) (base len : Nat) :
    (hostCacheInvalidate base len s).plat.Canonical := by
  refine ⟨Platform.drawEach_wf _ hp.mem, fun hc => ?_⟩
  obtain ⟨-, hcoh, -, hunclean, -, -⟩ :=
    Platform.drawEach_frame (s.plat.unclean.filter fun a => inRegion base len a.toNat) s.plat
  have quiet := hp.caches (hcoh.symm.trans hc)
  exact ⟨hunclean.trans quiet.1, by simp [hostCacheInvalidate, quiet.1, quiet.2]⟩

theorem resetEvent_canonical {s : State} (hp : s.plat.Canonical) : (resetEvent s).plat.Canonical := by
  refine Platform.Canonical.settle ?_
  split
  · exact hp.drawRange _ _
  · exact hp

theorem perform_canonical {e : Event} {s t : State} (hp : s.plat.Canonical) (h : perform e s = .next t) :
    t.plat.Canonical := by
  cases e
  case engine => exact engineStep_canonical hp h
  case regWrite o size d => rwa [hostRegWrite_plat h]
  all_goals cases h
  case regRead o size => rwa [(hostRegRead_reg_plat o size s).2]
  case wait | wrlut => exact hp
  case memWrite a v => exact hostMemWrite_canonical hp a v
  case memRead a => exact hostMemRead_canonical hp a
  case cacheClean base len => exact hostCacheClean_canonical hp base len
  case cacheInvalidate base len => exact hostCacheInvalidate_canonical hp base len
  case platformErr => exact ⟨hp.mem, hp.caches⟩
  case reset => exact resetEvent_canonical hp

/-! ### Races end with the command -/

/-- Where no command runs after an event, no byte is raced: none was before, or the event ended the command (R223). -/
theorem perform_raced_idle {e : Event} {s t : State} (hs : s.reg.busy = false → s.plat.raced = [])
    (h : perform e s = .next t) (ht : t.reg.busy = false) : t.plat.raced = [] := by
  rcases perform_raced h with ⟨hraced, hbusy⟩ | ⟨-, hraced⟩ | ⟨a, v, ho, rfl⟩
  · rw [hraced]
    refine hs (Bool.eq_false_iff.mpr fun hb => ?_)
    rw [hbusy hb] at ht
    cases ht
  · exact hraced
  · cases (Regs.busy_of_owns ho).symm.trans ht

/-- Settles O39: each event keeps the platform canonical, and the races end with the command. -/
theorem memoryStaysCanonical : Obligations.MemoryStaysCanonical := by
  rintro s t hw ⟨hraced, hcaches⟩ h
  obtain ⟨e, rest, -, h⟩ := step_performs h
  have canonical := perform_canonical (s := { s with inputs := rest }) ⟨hw, hcaches⟩ h
  exact ⟨canonical.mem, perform_raced_idle (s := { s with inputs := rest }) hraced h, canonical.caches⟩

end Sys2Proof.Machine
